-- ==== Sys2Proof/Word.lean ====
section
/-! DEFINITION. The byte, the block's one unit of storage (20_memory R60, 00_scope R16). -/

namespace Sys2Proof

/-- A byte: an unsigned integer 0 to 255, bit 7 the most significant (R16). -/
abbrev Byte := BitVec 8

end Sys2Proof
end

