-- ==== Sys2Proof/Config.lean ====
section
/-! DEFINITION. The configuration record of 00_scope R10 and the values no file of spec/ gives: what an implementation
fixes, and what the collaborators, the schedule and the host do. -/

namespace Sys2Proof

/-- What the clock collaborator says of its reading (R174, D17): `CLK_OK` is one distinguished status, every other
status is opaque and only passed on. -/
inductive ClockStatus where
  | ok
  | other (code : Nat)
deriving DecidableEq, Repr, Inhabited

/-- What the schedule puts at one point between two main-agent actions (R73, R296): nothing, a data-ready edge (any
number of edges at one point is one, R281), or the host's reset (R310). -/
inductive Move where
  | quiet
  | edge
  | reset
deriving DecidableEq, Repr, Inhabited

/-- The configuration record (R10): fixed for the life of the block, set by no operation and not changed by reset (R311).
A field of the state holds it, so that a statement about every state is one about every record (log entry 4). -/
structure Config where
  /-- CRC-16 polynomial; D10 decides 0x1021. -/
  crcPoly : BitVec 16
  /-- CRC-16 initial value; D10 decides 0x0000. -/
  crcInit : BitVec 16
  /-- Does the framer emit an empty run after a maximal run that ends the input; D6 decides false. -/
  cobsExtraAfterMax : Bool
  /-- The stamp assigned when timestamping is disabled; open (D15). -/
  stampSentinel : Nat
  /-- Bus command bytes (R96); open (D19). -/
  cmdWreg : Byte
  cmdRreg : Byte
  cmdRdata : Byte
  cmdRdatac : Byte
  cmdSdatac : Byte
  cmdSync : Byte
  cmdWakeup : Byte
  cmdSelfcal : Byte
  /-- Register addresses (R70), as the byte OR'd into a command (R96); open (D19). -/
  aStatus : Byte
  aMux : Byte
  aAdcon : Byte
  aDrate : Byte
  aIo : Byte
  /-- Field masks of the shadow bytes (R34); open (D19). -/
  mOrder : Byte
  mAcal : Byte
  mBufen : Byte
  mPga : Byte
  mClk : Byte
  mSdcs : Byte
  mDir : Byte
  mDio : Byte
  /-- The register values ADC_INIT writes (R206); open (D19). -/
  defStatus : Byte
  defMux : Byte
  defAdcon : Byte
  defDrate : Byte
  /-- Multiplexer bytes of the two cycling machines (R247); open (D19). -/
  muxSe : Vector Byte 8
  muxDiff : Vector Byte 4
  /-- Second byte of a register exchange and the byte sent while reading (R97, R240); D21 decides 0x00. -/
  rsvdByte : Byte
  dummyTx : Byte
  /-- Presence of the optional pins (R33); open (D23). -/
  hasReset : Bool
  hasSync : Bool
  /-- Delay lengths in microseconds (R10); open (D19), and no result depends on one (R331). -/
  tIb : Nat
  tSyncWake : Nat
  tResetLow : Nat
  tResetSettle : Nat
  tSyncpinLow : Nat
  tSyncpinSettle : Nat
  /-- The reference voltage in volts, a positive rational (R38); open (D33). -/
  vref : Rat
deriving DecidableEq, Repr, Inhabited

/-- The record of the block at hand: no file of spec/ gives it (R10), so nothing about it can be proved. -/
opaque Config.given : Config

/-- The record after reset: the given one, with the fields that 92_eei_decisions fixes at their decided values
(D6, D10, D21; R10). -/
def Config.atReset : Config :=
  { Config.given with
    crcPoly := 0x1021#16
    crcInit := 0x0000#16
    cobsExtraAfterMax := false
    rsvdByte := 0x00#8
    dummyTx := 0x00#8 }

/-- Free value: the byte the serial bus answers to the n-th transfer for which the state lists no answer (R67). -/
opaque Config.busAnswer : Nat → Byte

/-- Free value: what the clock answers to the n-th reading for which the state lists no answer (R67). -/
opaque Config.clockAnswer : Nat → ClockStatus × Nat

/-- Free value: what the schedule puts at the n-th point that a free schedule comes to (R15, R67). -/
opaque Config.schedule : Nat → Move

/-- Free value: the request the host issues when it is asked the n-th time and its moves are free, if it issues one (R15,
R296). -/
opaque Config.request : Nat → Option (List Byte)

end Sys2Proof
end

