-- ==== Sys2Proof/Syntax.lean ====
section
/-! DEFINITION. The 28 operations of 30_encoding R111, one constructor each, with the operand types of R112. -/

namespace Sys2Proof

/-- The five registers of the ADC chip that the block reaches (20_memory R70), an enumeration and no number (R112). -/
inductive Reg where
  | status
  | mux
  | adcon
  | drate
  | io
deriving DecidableEq, Repr, Inhabited

/-- The six bytes of a packed header, byte 0 first (30_encoding R91). -/
structure Hdr where
  b0 : Byte
  b1 : Byte
  b2 : Byte
  b3 : Byte
  b4 : Byte
  b5 : Byte
deriving DecidableEq, Repr, Inhabited

/-- An operation with its operands (R111, R112). The four operands of type `Byte` named for a field mask (`exp`, `div`,
`cur`, and `dir` with `val`) are as wide as that field: `Instr.wf` says so, since the mask is configuration. -/
inductive Instr where
  | cobsEnc (raw : List Byte)
  | cobsDec (frame : List Byte)
  | crc16 (data : List Byte)
  | hdrEnc (ms : BitVec 27) (topic : BitVec 6) (command : BitVec 4) (dlen : BitVec 11)
  | hdrDec (hdr : Hdr)
  | pktConfigure (topic : Byte) (command : Byte) (payload : List Byte)
  | pktStamp (disable : Bool)
  | pktEncodeHeader
  | pktPacketize
  | pktDepacketize (rawBytes : List Byte)
  | adcInit
  | adcWreg (reg : Reg) (value : Byte)
  | adcRreg (reg : Reg)
  | adcSetDrate (code : Byte)
  | adcSetMux (sel : Byte)
  | adcSetPga (exp : Byte)
  | adcSetClkout (div : Byte)
  | adcSetSdcs (cur : Byte)
  | adcSetOrder (b : Bool)
  | adcSetAcal (b : Bool)
  | adcSetBufen (b : Bool)
  | adcSetGpio (dir : Byte) (val : Byte)
  | adcReadSingle
  | adcReadCont
  | adcStop
  | adcCycleSe
  | adcCycleDiff
  | adcVconv (raw24 : BitVec 24)
deriving DecidableEq, Repr

end Sys2Proof
end

