-- ==== Sys2Proof/Machine/State.lean ====
section
/-! DEFINITION. The state of the block (10_state.md), its interfaces as data (20_memory R66, R67), and the state after reset
(70_reset_and_hazards R311). Plain data throughout. -/

namespace Sys2Proof.Machine

/-- The five positions of the send lifecycle (R23). -/
inductive Phase where
  | empty
  | configured
  | stamped
  | headerPacked
  | finalized
deriving DecidableEq, Repr

/-- The chip-select line as last driven by the block (R43). -/
inductive ChipSelect where
  | asserted
  | released
deriving DecidableEq, Repr

/-- The optional pins (R33). -/
inductive Pin where
  | reset
  | sync
deriving DecidableEq, Repr

/-- The level an optional pin is driven to (R66). -/
inductive PinLevel where
  | active
  | inactive
deriving DecidableEq, Repr

/-- The output events of R66, in the trace with the answer where the event has one. -/
inductive Event where
  | cs (level : ChipSelect)
  | xfer (tx rx : Byte)
  | pin (p : Pin) (level : PinLevel)
  | delayUs (n : Nat)
  /-- Named by R66; no rule emits it. -/
  | delayMs (n : Nat)
  | attachDrdy
  | clock (status : ClockStatus) (ms : Nat)
deriving DecidableEq, Repr

/-- The error codes of R270; `PKT_ERR_CLOCK` carries the clock's status (R272). -/
inductive ErrCode where
  | cobsErrZeroInBlock
  | cobsErrTruncated
  | pktErrTopic
  | pktErrCommand
  | pktErrLength
  | pktErrStampRange
  | pktErrClock (status : ClockStatus)
  | pktErrNoStamp
  | pktErrNoHeader
  | pktErrAssembly
  | pktErrShort
  | pktErrChecksum
  | pktErrDataLength
  | pktErrMillistampRange
  | adcErrNoShadow
  | errBadOp
deriving DecidableEq, Repr

/-- The accepted message of the receive path (R24). -/
structure RxMsg where
  topic : BitVec 6
  command : BitVec 4
  millistamp : BitVec 27
  dataLength : BitVec 11
  payload : List Byte
  checksum : BitVec 16
deriving DecidableEq, Repr

/-- The results an operation returns with status `OK` (R111). -/
inductive Result where
  | unit
  | frame (bytes : List Byte)
  | raw (bytes : List Byte) (consumed : Nat)
  | crc (value : BitVec 16)
  | hdr (value : Hdr)
  | fields (ms : BitVec 27) (topic : BitVec 6) (command : BitVec 4) (dlen : BitVec 11)
  | packet (bytes : List Byte)
  | rxMsg (msg : RxMsg)
  | value (byte : Byte)
  | sample (raw24 : BitVec 24)
  | voltage (volts : Rat)
deriving DecidableEq, Repr

/-- How an operation ended: `OK` with its results, or one error code and no result (R14, R270). -/
inductive Response where
  | ok (result : Result)
  | err (code : ErrCode)
deriving DecidableEq, Repr

/-- What the end of an ADC operation returns: nothing, the one kept answer, or the sample made of the three kept
answers (R208, R240). -/
inductive Ending where
  | unit
  | value
  | sample
deriving DecidableEq, Repr

/-- One step of an ADC operation's event list (R45): a state write, an event, a hold, or the end. `xfer` keeps its answer
when the rule uses it and discards it otherwise (R97, R201). -/
inductive Action where
  | setShadow (r : Reg) (v : Byte)
  | setPga (e : Nat)
  | setRunning (b : Bool)
  | setCycle (c : BitVec 3)
  | attachDrdy
  | waitDrdy
  | cs (level : ChipSelect)
  | pin (p : Pin) (level : PinLevel)
  | delayUs (n : Nat)
  | xfer (tx : Byte) (keep : Bool)
  | finish (e : Ending)
deriving DecidableEq, Repr

/-- The TX message object (R21). -/
structure Msg where
  topic : BitVec 6
  cmd : BitVec 4
  dlen : BitVec 11
  payload : List Byte
  ms : Option (BitVec 27)
  hdr : Option Hdr
  csum : Option (BitVec 16)
  pkt : Option (List Byte)
  phase : Phase
deriving DecidableEq, Repr

/-- The ADC device state (R32): five shadows (R34), the gain exponent (R38), the session flag (R35), the cycle index
(R36), the data-ready flag and its enable (R37). -/
structure Adc where
  shStatus : Option Byte
  shMux : Option Byte
  shAdcon : Option Byte
  shDrate : Option Byte
  shIo : Option Byte
  pga : Option Nat
  running : Bool
  cycle : BitVec 3
  drdyFlag : Bool
  irqEn : Bool
deriving DecidableEq, Repr

/-- How a sequence without an end goes on past a list, as data, the model's own (R15, R67; log entries 7 and 10): one entry
for ever, or free values from the n-th on. -/
inductive Later (α : Type) where
  | always (a : α)
  | free (n : Nat)
deriving DecidableEq, Repr

/-- The environment as data (R15, R67), the model's own: the schedule of edges and resets, which is the moves of `sched` and
then without end those of `later`, the answers still to come, and how many answers past them were taken as free values. -/
structure Env where
  sched : List Move
  later : Later Move
  busIn : List Byte
  busDraws : Nat
  clockIn : List (ClockStatus × Nat)
  clockDraws : Nat
deriving DecidableEq, Repr

/-- The state of the block and of its interfaces. -/
structure State where
  /-- The configuration record (R10): no operation and no reset changes it. -/
  cfg : Config
  /-- The TX message object (R21). -/
  msg : Msg
  /-- The ADC device state (R32). -/
  adc : Adc
  /-- Chip-select as last driven (R43). -/
  cs : ChipSelect
  /-- The actions still to run of the operation in progress; none when the main agent is idle (R45). -/
  todo : List Action
  /-- The answers the operation in progress has kept, oldest first (R45). -/
  rx : List Byte
  /-- The response of the operation that ended last, absent while one is in progress (R110, R296). -/
  response : Option Response
  /-- The output events so far, oldest first (R12). -/
  trace : List Event
  /-- The model's own: the requests the host will issue first, next first (R15). -/
  requests : List (List Byte)
  /-- The model's own: what the host does after those, asked each time the block is idle: a request or none (R15, R296). -/
  laterRequests : Later (Option (List Byte))
  /-- The model's own: the environment (R67). -/
  env : Env
deriving DecidableEq, Repr

/-- The block has no fault (R14, R270, R285: no trap, no abort; an error is a response), so no step raises one: the type
is empty, which is safe. -/
inductive Fault where
deriving DecidableEq, Repr

/-- Why a step has no meaning. -/
inductive Refusal where
  /-- Raised by an arm of `exec` whose instruction has no meaning yet; safe. -/
  | notModelled (mnemonic : String)
  /-- Raised by `step` on request bytes that end inside an operand or hold an operand outside its type: the spec has no
  such request (R112, D4, D43); safe. -/
  | malformedRequest
  /-- Raised by `step` on a setter operand wider than its field: the spec has no such request (R112, R219, D43); safe. -/
  | operandWiderThanField
deriving DecidableEq, Repr

/-- The TX message object at reset (R25). -/
def Msg.reset : Msg :=
  { topic := 0, cmd := 0, dlen := 0, payload := [], ms := none, hdr := none, csum := none, pkt := none, phase := .empty }

/-- The ADC device state at reset (R40). -/
def Adc.reset : Adc :=
  { shStatus := none, shMux := none, shAdcon := none, shDrate := none, shIo := none, pga := none, running := false
    cycle := 0, drdyFlag := false, irqEn := false }

/-- An environment that fixes nothing: every move and every answer is a free value (R15, R67; log entries 5, 6, 7). -/
def Env.reset : Env := { sched := [], later := .free 0, busIn := [], busDraws := 0, clockIn := [], clockDraws := 0 }

/-- The machine right after reset (R311): idle, no operation in progress, no response, nothing on the trace, and the host's
requests free (R15; log entry 10). -/
def State.reset : State :=
  { cfg := Config.atReset, msg := Msg.reset, adc := Adc.reset, cs := .released, todo := [], rx := [], response := none
    trace := [], requests := [], laterRequests := .free 0, env := Env.reset }

end Sys2Proof.Machine
end

