-- ==== Sys2Proof/Machine/Flags.lean ====
section
/-! DEFINITION. The block's one-bit state and its lifecycle (10_state R31): the order of `PHASE` (R23), the interrupt
agent's action on `DRDY_FLAG` (60_exceptions R280), and its test-and-clear (20_memory R75). -/

namespace Sys2Proof.Machine

/-- The number of a phase (R23). -/
def Phase.num : Phase → Nat
  | .empty => 0
  | .configured => 1
  | .stamped => 2
  | .headerPacked => 3
  | .finalized => 4

/-- Has the lifecycle come to phase `p` (`x[PHASE] >= p`, R23)? -/
def Phase.reached (p now : Phase) : Bool := decide (p.num ≤ now.num)

/-- The interrupt agent's one atomic action: `if x[IRQ_EN] == 1: x[DRDY_FLAG] <- 1` (R280). -/
def Adc.drdyEdge (a : Adc) : Adc := if a.irqEn then { a with drdyFlag := true } else a

/-- The clear of the flag, the second half of the indivisible test-and-clear (R75, R282). -/
def Adc.clearDrdy (a : Adc) : Adc := { a with drdyFlag := false }

end Sys2Proof.Machine
end

