-- ==== Sys2Proof/Machine/Operands.lean ====
section
/-! DEFINITION. Operand forms: the fields of a shadow byte (30_encoding R99), the register select (R96), and the bits of
the packed header (R91, R92). -/

namespace Sys2Proof.Machine

/-- Position of the lowest set bit of a mask (the `s` of R99); 7 for the mask 0, which no profile holds (R204). -/
def lowBit (m : Byte) : Nat :=
  if m.getLsbD 0 then 0
  else if m.getLsbD 1 then 1
  else if m.getLsbD 2 then 2
  else if m.getLsbD 3 then 3
  else if m.getLsbD 4 then 4
  else if m.getLsbD 5 then 5
  else if m.getLsbD 6 then 6
  else 7

/-- The largest value of the field under a mask, `M >> s` (R99). -/
def fieldMax (m : Byte) : Byte := m >>> lowBit m

/-- Is `v` a value of the field under mask `m` (R112)? Zero is one whatever the mask. -/
def fitsField (m v : Byte) : Bool := v == 0#8 || decide (v ≤ fieldMax m)

/-- `INS(old, M, v) = (old & ~M) | ((v << s) & M)`, all 8-bit (R99). -/
def ins (old m v : Byte) : Byte := (old &&& ~~~m) ||| ((v <<< lowBit m) &&& m)

/-- The field of a byte under a mask, `(b & M) >> s` (R206). -/
def fieldOf (m b : Byte) : Byte := (b &&& m) >>> lowBit m

/-- A non-zero mask whose set bits are contiguous (R204). -/
def contiguous (m : Byte) : Bool := m != 0#8 && (fieldMax m &&& (fieldMax m + 1#8)) == 0#8

/-- A mask with one bit set (R204). -/
def oneBit (m : Byte) : Bool := m != 0#8 && fieldMax m == 1#8

/-- Two masks without a common bit (R204). -/
def disjoint (m n : Byte) : Bool := (m &&& n) == 0#8

/-- The value a one-bit operand gives its field. -/
def bitValue (b : Bool) : Byte := if b then 1#8 else 0#8

/-- The address parameter of a register (R70). -/
def regAddr (c : Config) : Reg → Byte
  | .status => c.aStatus
  | .mux => c.aMux
  | .adcon => c.aAdcon
  | .drate => c.aDrate
  | .io => c.aIo

/-- First byte of a register write exchange, `CMD_WREG | A_r` (R96). -/
def wregByte (c : Config) (r : Reg) : Byte := c.cmdWreg ||| regAddr c r

/-- First byte of a register read exchange, `CMD_RREG | A_r` (R96). -/
def rregByte (c : Config) (r : Reg) : Byte := c.cmdRreg ||| regAddr c r

/-- `H = (ms << 21) | (topic << 15) | (command << 11) | data_length`, 48 bits, operands zero-extended (R92). -/
def hdrBits (ms : BitVec 27) (topic : BitVec 6) (command : BitVec 4) (dlen : BitVec 11) : BitVec 48 :=
  (ms.setWidth 48 <<< 21) ||| (topic.setWidth 48 <<< 15) ||| (command.setWidth 48 <<< 11) ||| dlen.setWidth 48

/-- Byte `k` of the header is `H[47-8k : 40-8k]` (R62, R91). -/
def hdrOfBits (h : BitVec 48) : Hdr :=
  { b0 := h.extractLsb' 40 8, b1 := h.extractLsb' 32 8, b2 := h.extractLsb' 24 8
    b3 := h.extractLsb' 16 8, b4 := h.extractLsb' 8 8, b5 := h.extractLsb' 0 8 }

/-- `H = h[0] ‖ h[1] ‖ h[2] ‖ h[3] ‖ h[4] ‖ h[5]` (R92). -/
def hdrToBits (h : Hdr) : BitVec 48 := h.b0 ++ h.b1 ++ h.b2 ++ h.b3 ++ h.b4 ++ h.b5

/-- The millistamp `H[47:21]` (R92). -/
def hdrMs (h : Hdr) : BitVec 27 := (hdrToBits h).extractLsb' 21 27

/-- The topic `H[20:15]` (R92). -/
def hdrTopic (h : Hdr) : BitVec 6 := (hdrToBits h).extractLsb' 15 6

/-- The command `H[14:11]` (R92). -/
def hdrCommand (h : Hdr) : BitVec 4 := (hdrToBits h).extractLsb' 11 4

/-- The data length `H[10:0]` (R92). -/
def hdrDlen (h : Hdr) : BitVec 11 := (hdrToBits h).extractLsb' 0 11

/-- The header as a byte sequence, byte 0 first. -/
def hdrBytes (h : Hdr) : List Byte := [h.b0, h.b1, h.b2, h.b3, h.b4, h.b5]

/-- The first six bytes of a sequence as a header (R177); a byte the sequence lacks reads 0, which no caller meets. -/
def hdrOfList (bs : List Byte) : Hdr :=
  { b0 := bs.getD 0 0#8, b1 := bs.getD 1 0#8, b2 := bs.getD 2 0#8
    b3 := bs.getD 3 0#8, b4 := bs.getD 4 0#8, b5 := bs.getD 5 0#8 }

/-- A 16-bit value high byte first (R63). -/
def bigEndian16 (c : BitVec 16) : List Byte := [c.extractLsb' 8 8, c.extractLsb' 0 8]

/-- Three sample bytes in the order MSB, mid, LSB (R98). -/
def sample24 (b0 b1 b2 : Byte) : BitVec 24 := b0 ++ b1 ++ b2

/-- The signed value of a 24-bit two's-complement pattern: subtract 2^24 if bit 23 is set (R98). -/
def signed24 (raw : BitVec 24) : Int :=
  if raw.getLsbD 23 then (raw.toNat : Int) - 2 ^ 24 else (raw.toNat : Int)

end Sys2Proof.Machine
end

