-- ==== Sys2Proof/Machine/Ops.lean ====
section
/-! DEFINITION. The shared operations on the state: ending an operation with a result or an error code (60_exceptions R270
to R273, the block's synchronous exception), reset (70_reset_and_hazards R310), the draws from the bus and the clock
(20_memory R67), and the main agent running an action list between edges (20_memory R72, R73, 43_adc_regs R200). -/

namespace Sys2Proof.Machine

/-- The 8-bit value of an error code (R270). -/
def ErrCode.code : ErrCode → Byte
  | .cobsErrZeroInBlock => 0x10#8
  | .cobsErrTruncated => 0x11#8
  | .pktErrTopic => 0x20#8
  | .pktErrCommand => 0x21#8
  | .pktErrLength => 0x22#8
  | .pktErrStampRange => 0x23#8
  | .pktErrClock _ => 0x24#8
  | .pktErrNoStamp => 0x25#8
  | .pktErrNoHeader => 0x26#8
  | .pktErrAssembly => 0x27#8
  | .pktErrShort => 0x30#8
  | .pktErrChecksum => 0x31#8
  | .pktErrDataLength => 0x32#8
  | .pktErrMillistampRange => 0x33#8
  | .adcErrNoShadow => 0x40#8
  | .errBadOp => 0xF0#8

/-- The 8-bit result code of a response; `OK` is 0x00 (R270). -/
def Response.code : Response → Byte
  | .ok _ => 0x00#8
  | .err e => e.code

/-- `return v`: end the operation with status `OK` and its results (R18). -/
def State.reply (r : Result) (s : State) : State := { s with response := some (.ok r) }

/-- `raise <CODE>`: end the operation with an error code, every register as it was (R18, R273). This is all the block has
of a synchronous exception: no register is saved, no control is transferred (R285), and nothing is returned from (R286). -/
def State.raise (e : ErrCode) (s : State) : State := { s with response := some (.err e) }

/-- `emit E`: append an output event to the trace (R18). -/
def State.emit (e : Event) (s : State) : State := { s with trace := s.trace ++ [e] }

/-- The host's reset move (R310, R311): every register at its reset value, the operation in progress abandoned, no event
emitted; the configuration, the level of the chip-select line (log entry 11), the trace and the world outside stay. -/
def State.applyReset (s : State) : State :=
  { State.reset with
    cfg := s.cfg, cs := s.cs, trace := s.trace, requests := s.requests, laterRequests := s.laterRequests, env := s.env }

/-- The shadow of a register (R34). -/
def Adc.shadow (a : Adc) : Reg → Option Byte
  | .status => a.shStatus
  | .mux => a.shMux
  | .adcon => a.shAdcon
  | .drate => a.shDrate
  | .io => a.shIo

/-- `x[SH_r] <- v` (R34). -/
def Adc.setShadow (a : Adc) (r : Reg) (v : Byte) : Adc :=
  match r with
  | .status => { a with shStatus := some v }
  | .mux => { a with shMux := some v }
  | .adcon => { a with shAdcon := some v }
  | .drate => { a with shDrate := some v }
  | .io => { a with shIo := some v }

/-- The `k`-th bus answer from now, 0 the next: a listed one, or a free value (R67). -/
def Env.busAnswerAt (e : Env) (k : Nat) : Byte :=
  match e.busIn[k]? with
  | some b => b
  | none => Config.busAnswer (e.busDraws + (k - e.busIn.length))

/-- The environment after one bus answer was taken. -/
def Env.takeBus (e : Env) : Env :=
  match e.busIn with
  | _ :: bs => { e with busIn := bs }
  | [] => { e with busDraws := e.busDraws + 1 }

/-- The next clock answer: a listed one, or a free value (R67). -/
def Env.clockAnswer (e : Env) : ClockStatus × Nat :=
  match e.clockIn with
  | a :: _ => a
  | [] => Config.clockAnswer e.clockDraws

/-- The environment after one clock answer was taken. -/
def Env.takeClock (e : Env) : Env :=
  match e.clockIn with
  | _ :: as => { e with clockIn := as }
  | [] => { e with clockDraws := e.clockDraws + 1 }

/-- `CLOCK()`: the event with its answer (R66); the answer itself is `Env.clockAnswer` of the state before. -/
def State.readClock (s : State) : State :=
  { (s.emit (.clock s.env.clockAnswer.1 s.env.clockAnswer.2)) with env := s.env.takeClock }

/-- `XFER(tx)`: one byte out and its answer in (R66), the answer kept when the rule uses it (R201). -/
def State.xfer (tx : Byte) (keep : Bool) (s : State) : State :=
  let rx := s.env.busAnswerAt 0
  { (s.emit (.xfer tx rx)) with
    env := s.env.takeBus
    rx := if keep then s.rx ++ [rx] else s.rx }

/-- The `k`-th entry of what goes on without an end, 0 the next; `free` numbers the free values. -/
def Later.nth {α : Type} (free : Nat → α) (l : Later α) (k : Nat) : α :=
  match l with
  | .always a => a
  | .free n => free (n + k)

/-- What is left of it once its next entry is used up. -/
def Later.drop {α : Type} : Later α → Later α
  | .always a => .always a
  | .free n => .free (n + 1)

/-- What the schedule puts at the `k`-th point from now, 0 the next (R15, R67). -/
def Env.moveAt (e : Env) (k : Nat) : Move :=
  match e.sched[k]? with
  | some m => m
  | none => e.later.nth Config.schedule (k - e.sched.length)

/-- The environment after one point of the schedule passed. -/
def Env.dropMove (e : Env) : Env :=
  match e.sched with
  | _ :: ms => { e with sched := ms }
  | [] => { e with later := e.later.drop }

/-- Let one point between two main-agent actions pass: an edge scheduled there is the interrupt agent's action (R73). -/
def State.tick (s : State) : State :=
  { s with
    adc := if s.env.moveAt 0 = .edge then s.adc.drdyEdge else s.adc
    env := s.env.dropMove }

/-- The request the host issues when the block is idle, if it issues one (R15, R296). -/
def State.nextRequest (s : State) : Option (List Byte) :=
  match s.requests with
  | bytes :: _ => some bytes
  | [] => s.laterRequests.nth Config.request 0

/-- The state at an operation boundary after the host was asked for its next request (R72). -/
def State.takeRequest (s : State) : State :=
  match s.requests with
  | _ :: rs => { s with requests := rs }
  | [] => { s with laterRequests := s.laterRequests.drop }

/-- The results of an ADC operation from the answers it kept (R208, R240). -/
def Ending.result (rx : List Byte) : Ending → Result
  | .unit => .unit
  | .value => .value (rx.getD 0 0#8)
  | .sample => .sample (sample24 (rx.getD 0 0#8) (rx.getD 1 0#8) (rx.getD 2 0#8))

/-- One action of the main agent. WaitDRDY, once the flag is set, is the clear that makes test and clear one action (R75,
R200); it emits no event. -/
def State.act (a : Action) (s : State) : State :=
  match a with
  | .setShadow r v => { s with adc := s.adc.setShadow r v }
  | .setPga e => { s with adc := { s.adc with pga := some e } }
  | .setRunning b => { s with adc := { s.adc with running := b } }
  | .setCycle c => { s with adc := { s.adc with cycle := c } }
  | .attachDrdy => { (s.emit .attachDrdy) with adc := { s.adc with irqEn := true } }
  | .waitDrdy => { s with adc := s.adc.clearDrdy }
  | .cs level => { (s.emit (.cs level)) with cs := level }
  | .pin p level => s.emit (.pin p level)
  | .delayUs n => s.emit (.delayUs n)
  | .xfer tx keep => s.xfer tx keep
  | .finish e => s.reply (e.result s.rx)

/-- The main agent runs the actions of an operation in order (R72), one point of the schedule before each (R73). A scheduled
reset abandons the operation (R310). At WaitDRDY with the flag clear (R200) it is held: the rest of the operation is kept in
`todo` (R45) and the main agent has no step until the flag is set (R274), so that each further step lets one point of the
schedule pass. -/
def run : List Action → State → State
  | [], s => { s with todo := [], rx := [] }
  | a :: as, s =>
    if s.env.moveAt 0 = .reset then s.tick.applyReset
    else if a = .waitDrdy ∧ s.tick.adc.drdyFlag = false then { s.tick with todo := a :: as }
    else run as (s.tick.act a)

/-- Start an operation that is a list of actions: no response yet, no answer kept (R45). -/
def State.startOp (acts : List Action) (s : State) : State := run acts { s with response := none, rx := [] }

/-- Go on with the operation in progress (R45). -/
def State.resume (s : State) : State := run s.todo s

end Sys2Proof.Machine
end

