-- ==== Sys2Proof/Machine/AdcRegs.lean ====
section
/-! DEFINITION. The ADC unit, registers (43_adc_regs.md): the shared procedures as action lists, initialisation, raw register
access and the nine setters. -/

namespace Sys2Proof.Machine

/-- EXCH3: three transfers with one inter-byte delay between consecutive bytes; `keep` when the answer to the third is the
result (R201). -/
def exch3 (c : Config) (b0 b1 b2 : Byte) (keep : Bool) : List Action :=
  [.xfer b0 false, .delayUs c.tIb, .xfer b1 false, .delayUs c.tIb, .xfer b2 keep]

/-- REGWRITE: the shadow first, then the wait, then the exchange in a chip-select bracket (R202). -/
def regwrite (c : Config) (r : Reg) (v : Byte) : List Action :=
  [.setShadow r v, .waitDrdy, .cs .asserted] ++ exch3 c (wregByte c r) c.rsvdByte v false ++ [.cs .released]

/-- SELFCAL: wait, one command byte in a chip-select bracket (R218). -/
def selfcal (c : Config) : List Action := [.waitDrdy, .cs .asserted, .xfer c.cmdSelfcal false, .cs .released]

/-- A pulse on an optional pin, when it is present (R206). -/
def pulse (present : Bool) (p : Pin) (low settle : Nat) : List Action :=
  if present then [.pin p .active, .delayUs low, .pin p .inactive, .delayUs settle] else []

/-- The whole of ADC_INIT (R206). -/
def initActions (c : Config) : List Action :=
  [.cs .asserted] ++ pulse c.hasReset .reset c.tResetLow c.tResetSettle
    ++ pulse c.hasSync .sync c.tSyncpinLow c.tSyncpinSettle
    ++ [.attachDrdy] ++ regwrite c .status c.defStatus ++ regwrite c .mux c.defMux
    ++ [.setPga (fieldOf c.mPga c.defAdcon).toNat] ++ regwrite c .adcon c.defAdcon
    ++ regwrite c .drate c.defDrate ++ selfcal c ++ [.setRunning false, .finish .unit]

/-- ADC_WREG as a whole: one register write (R207). -/
def wregActions (c : Config) (r : Reg) (v : Byte) : List Action := regwrite c r v ++ [.finish .unit]

/-- ADC_RREG as a whole: the read exchange, whose third answer is the value (R208). -/
def rregActions (c : Config) (r : Reg) : List Action :=
  [.waitDrdy, .cs .asserted] ++ exch3 c (rregByte c r) c.rsvdByte c.dummyTx true ++ [.cs .released, .finish .value]

/-- SETFIELD: refused when the shadow holds no value, else the shadow's byte with the field replaced, written through
(R203, R205). -/
def State.setField (r : Reg) (m v : Byte) (s : State) : State :=
  match s.adc.shadow r with
  | none => s.raise .adcErrNoShadow
  | some old => s.startOp (wregActions s.cfg r (ins old m v))

/-- ADC_INIT (R206). -/
def execAdcInit (s : State) : Host.Outcome State Fault Refusal := .next (s.startOp (initActions s.cfg))

/-- ADC_WREG (R207). -/
def execAdcWreg (reg : Reg) (value : Byte) (s : State) : Host.Outcome State Fault Refusal :=
  .next (s.startOp (wregActions s.cfg reg value))

/-- ADC_RREG (R208). -/
def execAdcRreg (reg : Reg) (s : State) : Host.Outcome State Fault Refusal :=
  .next (s.startOp (rregActions s.cfg reg))

/-- ADC_SET_DRATE (R209). -/
def execAdcSetDrate (code : Byte) (s : State) : Host.Outcome State Fault Refusal :=
  .next (s.startOp (wregActions s.cfg .drate code))

/-- ADC_SET_MUX (R210). -/
def execAdcSetMux (sel : Byte) (s : State) : Host.Outcome State Fault Refusal :=
  .next (s.startOp (wregActions s.cfg .mux sel))

/-- ADC_SET_PGA: the gain exponent register is written beside the field of the shadow (R211). -/
def execAdcSetPga (exp : Byte) (s : State) : Host.Outcome State Fault Refusal :=
  .next
    (match s.adc.shAdcon with
    | none => s.raise .adcErrNoShadow
    | some old => s.startOp (.setPga exp.toNat :: wregActions s.cfg .adcon (ins old s.cfg.mPga exp)))

/-- ADC_SET_CLKOUT (R212). -/
def execAdcSetClkout (div : Byte) (s : State) : Host.Outcome State Fault Refusal :=
  .next (s.setField .adcon s.cfg.mClk div)

/-- ADC_SET_SDCS (R213). -/
def execAdcSetSdcs (cur : Byte) (s : State) : Host.Outcome State Fault Refusal :=
  .next (s.setField .adcon s.cfg.mSdcs cur)

/-- ADC_SET_ORDER (R214). -/
def execAdcSetOrder (b : Bool) (s : State) : Host.Outcome State Fault Refusal :=
  .next (s.setField .status s.cfg.mOrder (bitValue b))

/-- ADC_SET_ACAL (R215). -/
def execAdcSetAcal (b : Bool) (s : State) : Host.Outcome State Fault Refusal :=
  .next (s.setField .status s.cfg.mAcal (bitValue b))

/-- ADC_SET_BUFEN (R216). -/
def execAdcSetBufen (b : Bool) (s : State) : Host.Outcome State Fault Refusal :=
  .next (s.setField .status s.cfg.mBufen (bitValue b))

/-- The GPIO byte ADC_SET_GPIO writes: both fields into the old shadow, or into 0x00 when it holds no value (R217). -/
def gpioByte (c : Config) (old : Option Byte) (dir val : Byte) : Byte :=
  ins (ins (old.getD 0x00#8) c.mDir dir) c.mDio val

/-- ADC_SET_GPIO (R217). -/
def execAdcSetGpio (dir val : Byte) (s : State) : Host.Outcome State Fault Refusal :=
  .next (s.startOp (wregActions s.cfg .io (gpioByte s.cfg s.adc.shIo dir val)))

end Sys2Proof.Machine
end

