-- ==== Sys2Proof/Machine/AdcAcq.lean ====
section
/-! DEFINITION. The ADC unit, acquisition (44_adc_acq.md): single and continuous reads, stop, the two cycling machines and
the voltage conversion. -/

namespace Sys2Proof.Machine

/-- READ3: three transfers, whose answers make the sample (R240). -/
def read3 (c : Config) : List Action := [.xfer c.dummyTx true, .xfer c.dummyTx true, .xfer c.dummyTx true]

/-- MUXWR: the multiplexer write inside a session, without a wait or a chip-select toggle (R245, C4). -/
def muxwr (c : Config) (v : Byte) : List Action := .setShadow .mux v :: exch3 c (wregByte c .mux) c.rsvdByte v false

/-- The whole of ADC_READ_SINGLE (R241). -/
def readSingleActions (c : Config) : List Action :=
  [.waitDrdy, .cs .asserted, .xfer c.cmdRdata false] ++ read3 c ++ [.cs .released, .finish .sample]

/-- The whole of ADC_READ_CONT, by whether the session is open (R242). -/
def readContActions (c : Config) (running : Bool) : List Action :=
  (if running then [.waitDrdy] else [.setRunning true, .cs .asserted, .waitDrdy, .xfer c.cmdRdatac false])
    ++ read3 c ++ [.finish .sample]

/-- The whole of ADC_STOP (R243). -/
def stopActions (c : Config) : List Action :=
  [.waitDrdy, .xfer c.cmdSdatac false, .cs .released, .setRunning false, .finish .unit]

/-- The index of the table entry after entry `i` in a cycle of `n` steps (R246 steps 2 and 7). -/
def nextIndex (n i : Nat) : Nat := (i + 1) % n

/-- The cycle index an invocation works from: 0 when it opens the session (R246). -/
def startCycle (a : Adc) : BitVec 3 := if a.running then a.cycle else 0#3

/-- One invocation of a cycling machine over a table of `n` multiplexer bytes: the preamble when it opens the session, then
steps (1) to (7) (R246, R248, C5). -/
def cycleActions (c : Config) {n : Nat} (table : Vector Byte n) (a : Adc) : List Action :=
  let next := nextIndex n (startCycle a).toNat
  (if a.running then []
    else [.setRunning true, .setCycle 0#3, .cs .asserted] ++ muxwr c (table.toList.getD 0 0#8))
    ++ [.waitDrdy] ++ muxwr c (table.toList.getD next 0#8)
    ++ [.xfer c.cmdSync false, .delayUs c.tSyncWake, .xfer c.cmdWakeup false, .xfer c.cmdRdata false] ++ read3 c
    ++ [.setCycle (BitVec.ofNat 3 next), .finish .sample]

/-- `VREF * sraw / 2^(22 + PGA)`, exact (R250). -/
def voltageOf (vref : Rat) (pga : Nat) (raw24 : BitVec 24) : Rat :=
  vref * ((signed24 raw24 : Int) : Rat) / ((2 ^ (22 + pga) : Nat) : Rat)

/-- ADC_READ_SINGLE (R241). -/
def execAdcReadSingle (s : State) : Host.Outcome State Fault Refusal := .next (s.startOp (readSingleActions s.cfg))

/-- ADC_READ_CONT (R242). -/
def execAdcReadCont (s : State) : Host.Outcome State Fault Refusal :=
  .next (s.startOp (readContActions s.cfg s.adc.running))

/-- ADC_STOP (R243). -/
def execAdcStop (s : State) : Host.Outcome State Fault Refusal := .next (s.startOp (stopActions s.cfg))

/-- ADC_CYCLE_SE (R246). -/
def execAdcCycleSe (s : State) : Host.Outcome State Fault Refusal :=
  .next (s.startOp (cycleActions s.cfg s.cfg.muxSe s.adc))

/-- ADC_CYCLE_DIFF (R248). -/
def execAdcCycleDiff (s : State) : Host.Outcome State Fault Refusal :=
  .next (s.startOp (cycleActions s.cfg s.cfg.muxDiff s.adc))

/-- ADC_VCONV (R250). -/
def execAdcVconv (raw24 : BitVec 24) (s : State) : Host.Outcome State Fault Refusal :=
  .next
    (match s.adc.pga with
    | none => s.raise .adcErrNoShadow
    | some e => s.reply (.voltage (voltageOf s.cfg.vref e raw24)))

end Sys2Proof.Machine
end

