-- ==== Sys2Proof/Machine/Cobs.lean ====
section
/-! DEFINITION. The COBS unit (40_cobs.md): the framer and the deframer, pure functions of their operand (R130). -/

namespace Sys2Proof.Machine

/-- The length byte of a run, its length plus one (R131). -/
def lenByte (run : List Byte) : Byte := BitVec.ofNat 8 (run.length + 1)

/-- The loop of R131: the input left, the frame under construction, the current run, and whether a run must still be
emitted at the end of the input. -/
def cobsEncLoop (extra : Bool) : List Byte → List Byte → List Byte → Bool → List Byte
  | [], out, run, need => (if need then out ++ lenByte run :: run else out) ++ [0x00#8]
  | b :: bs, out, run, _ =>
    if b = 0x00#8 then cobsEncLoop extra bs (out ++ lenByte run :: run) [] true
    else if (run ++ [b]).length = 254 then cobsEncLoop extra bs (out ++ 0xFF#8 :: (run ++ [b])) [] extra
    else cobsEncLoop extra bs out (run ++ [b]) true

/-- The frame of a byte sequence (R131); `extra` is `COBS_EXTRA_AFTER_MAX`. -/
def cobsEncode (extra : Bool) (raw : List Byte) : List Byte := cobsEncLoop extra raw [] [] true

/-- Copy `n` block bytes from the front of a frame: the bytes and what follows them (R133). -/
def takeBlock : Nat → List Byte → Except ErrCode (List Byte × List Byte)
  | 0, bs => .ok ([], bs)
  | _ + 1, [] => .error .cobsErrTruncated
  | n + 1, b :: bs =>
    if b = 0x00#8 then .error .cobsErrZeroInBlock
    else
      match takeBlock n bs with
      | .ok (blk, rest) => .ok (b :: blk, rest)
      | .error e => .error e

/-- The loop of R133: the frame from index `i` on, the output so far. Each round reads at least one byte, so a fuel of the
frame's length plus one is never used up. -/
def cobsDecLoop : Nat → List Byte → List Byte → Nat → Except ErrCode (List Byte × Nat)
  | 0, _, _, _ => .error .cobsErrTruncated
  | _ + 1, [], _, _ => .error .cobsErrTruncated
  | fuel + 1, l :: rest, out, i =>
    if l = 0x00#8 then .ok (out, i + 1)
    else
      match takeBlock (l.toNat - 1) rest with
      | .error e => .error e
      | .ok (_, []) => .error .cobsErrTruncated
      | .ok (blk, next :: after) =>
        cobsDecLoop fuel (next :: after)
          (if l ≠ 0xFF#8 ∧ next ≠ 0x00#8 then out ++ blk ++ [0x00#8] else out ++ blk) (i + l.toNat)

/-- The raw bytes of a frame and how many of its bytes were read (R133). -/
def cobsDecode (frame : List Byte) : Except ErrCode (List Byte × Nat) := cobsDecLoop (frame.length + 1) frame [] 0

/-- COBS_ENC (R131). -/
def execCobsEnc (raw : List Byte) (s : State) : Host.Outcome State Fault Refusal :=
  .next (s.reply (.frame (cobsEncode s.cfg.cobsExtraAfterMax raw)))

/-- COBS_DEC (R133, R134). -/
def execCobsDec (frame : List Byte) (s : State) : Host.Outcome State Fault Refusal :=
  .next
    (match cobsDecode frame with
    | .ok (raw, consumed) => s.reply (.raw raw consumed)
    | .error e => s.raise e)

end Sys2Proof.Machine
end

