-- ==== Sys2Proof/Machine/Crc.lean ====
section
/-! DEFINITION. The CRC unit (41_crc16.md): CRC-16 over the polynomial and initial value of the configuration (R163). -/

namespace Sys2Proof.Machine

/-- One shift of the register: left by one, and when the bit shifted out was 1, exclusive-or the polynomial (R160). -/
def crcShift (poly c : BitVec 16) : BitVec 16 := if c.getLsbD 15 then (c <<< 1) ^^^ poly else c <<< 1

/-- One byte into the register, `UPD` of R161: exclusive-or into bits 15:8, then eight shifts. -/
def crcByte (poly c : BitVec 16) (b : Byte) : BitVec 16 := (crcShift poly)^[8] (c ^^^ (b.setWidth 16 <<< 8))

/-- The register after a byte sequence, from a register value (R161). -/
def crcFrom (poly c : BitVec 16) (data : List Byte) : BitVec 16 := data.foldl (crcByte poly) c

/-- `CRC16(data)` (R160). -/
def crcOf (cfg : Config) (data : List Byte) : BitVec 16 := crcFrom cfg.crcPoly cfg.crcInit data

/-- CRC16 (R160). -/
def execCrc16 (data : List Byte) (s : State) : Host.Outcome State Fault Refusal :=
  .next (s.reply (.crc (crcOf s.cfg data)))

end Sys2Proof.Machine
end

