-- ==== Sys2Proof/Machine/Packet.lean ====
section
/-! DEFINITION. The packet unit (42_packet.md): the header encoder and decoder, the send path over the TX message object,
and the receive path. -/

namespace Sys2Proof.Machine

/-- `HDR_ENC(ms, topic, command, dlen)` (R171). -/
def hdrEncode (ms : BitVec 27) (topic : BitVec 6) (command : BitVec 4) (dlen : BitVec 11) : Hdr :=
  hdrOfBits (hdrBits ms topic command dlen)

/-- HDR_ENC (R171). -/
def execHdrEnc (ms : BitVec 27) (topic : BitVec 6) (command : BitVec 4) (dlen : BitVec 11) (s : State) :
    Host.Outcome State Fault Refusal :=
  .next (s.reply (.hdr (hdrEncode ms topic command dlen)))

/-- HDR_DEC (R172). -/
def execHdrDec (hdr : Hdr) (s : State) : Host.Outcome State Fault Refusal :=
  .next (s.reply (.fields (hdrMs hdr) (hdrTopic hdr) (hdrCommand hdr) (hdrDlen hdr)))

/-- The message after a successful PKT_CONFIGURE: a lifecycle restarted at Configured (R173). -/
def Msg.configure (topic command : Byte) (payload : List Byte) (m : Msg) : Msg :=
  { m with
    topic := topic.setWidth 6, cmd := command.setWidth 4, payload := payload
    dlen := BitVec.ofNat 11 payload.length
    ms := none, hdr := none, csum := none, pkt := none, phase := .configured }

/-- PKT_CONFIGURE: the checks in operand order, then the writes (R173). -/
def execPktConfigure (topic command : Byte) (payload : List Byte) (s : State) : Host.Outcome State Fault Refusal :=
  .next
    (if 63 < topic.toNat then s.raise .pktErrTopic
    else if 15 < command.toNat then s.raise .pktErrCommand
    else if 2047 < payload.length then s.raise .pktErrLength
    else State.reply .unit { s with msg := s.msg.configure topic command payload })

/-- The message after a successful PKT_STAMP with value `v` (R174). -/
def Msg.stamp (v : Nat) (m : Msg) : Msg :=
  { m with ms := some (BitVec.ofNat 27 v), hdr := none, csum := none, pkt := none, phase := .stamped }

/-- The end of PKT_STAMP once the value is known: the 27-bit fit, then the writes (R174). -/
def State.stampWith (v : Nat) (s : State) : State :=
  if 2 ^ 27 ≤ v then s.raise .pktErrStampRange else State.reply .unit { s with msg := s.msg.stamp v }

/-- PKT_STAMP: the sentinel when disabled, the clock's answer otherwise, a status other than `CLK_OK` passed on (R174). -/
def execPktStamp (disable : Bool) (s : State) : Host.Outcome State Fault Refusal :=
  .next
    (if disable then s.stampWith s.cfg.stampSentinel
    else if s.env.clockAnswer.1 ≠ .ok then s.readClock.raise (.pktErrClock s.env.clockAnswer.1)
    else s.readClock.stampWith s.env.clockAnswer.2)

/-- The message after a successful PKT_ENCODE_HEADER with header `h` (R175). -/
def Msg.packHeader (h : Hdr) (m : Msg) : Msg := { m with hdr := some h, csum := none, pkt := none, phase := .headerPacked }

/-- PKT_ENCODE_HEADER: refused while no timestamp has been assigned (R175). -/
def execPktEncodeHeader (s : State) : Host.Outcome State Fault Refusal :=
  .next
    (match Phase.stamped.reached s.msg.phase, s.msg.ms with
    | true, some ms =>
      let h := hdrEncode ms s.msg.topic s.msg.cmd s.msg.dlen
      State.reply (.hdr h) { s with msg := s.msg.packHeader h }
    | _, _ => s.raise .pktErrNoStamp)

/-- The message after a successful PKT_PACKETIZE with checksum `c` and packet `p` (R176). -/
def Msg.finalize (c : BitVec 16) (p : List Byte) (m : Msg) : Msg :=
  { m with csum := some c, pkt := some p, phase := .finalized }

/-- `body ++ [c[15:8], c[7:0]]` with `c` the checksum of the body (R176, R93). -/
def sealPacket (cfg : Config) (body : List Byte) : List Byte := body ++ bigEndian16 (crcOf cfg body)

/-- PKT_PACKETIZE: refused while the header has not been encoded; the assembled length is checked (R176). -/
def execPktPacketize (s : State) : Host.Outcome State Fault Refusal :=
  .next
    (match Phase.headerPacked.reached s.msg.phase, s.msg.hdr with
    | true, some h =>
      let body := hdrBytes h ++ s.msg.payload
      let p := sealPacket s.cfg body
      if p.length ≠ 6 + s.msg.dlen.toNat + 2 then s.raise .pktErrAssembly
      else State.reply (.packet p) { s with msg := s.msg.finalize (crcOf s.cfg body) p }
    | _, _ => s.raise .pktErrNoHeader)

/-- The receive path as a function of the bytes: the checks in the order of R178, and the accepted message (R177). -/
def depacketize (cfg : Config) (bs : List Byte) : Except ErrCode RxMsg :=
  let n := bs.length
  let h := hdrOfList bs
  let t : BitVec 16 := bs.getD (n - 2) 0#8 ++ bs.getD (n - 1) 0#8
  if n < 8 then .error .pktErrShort
  else if crcOf cfg (bs.take (n - 2)) ≠ t then .error .pktErrChecksum
  else if (hdrDlen h).toNat ≠ n - 8 then .error .pktErrDataLength
  else if 86400000 ≤ (hdrMs h).toNat then .error .pktErrMillistampRange
  else
    .ok { topic := hdrTopic h, command := hdrCommand h, millistamp := hdrMs h, dataLength := hdrDlen h
          payload := (bs.drop 6).take (n - 8), checksum := t }

/-- PKT_DEPACKETIZE: it reads and writes no state (R24, R177). -/
def execPktDepacketize (rawBytes : List Byte) (s : State) : Host.Outcome State Fault Refusal :=
  .next
    (match depacketize s.cfg rawBytes with
    | .ok m => s.reply (.rxMsg m)
    | .error e => s.raise e)

end Sys2Proof.Machine
end

