-- ==== Sys2Proof/Machine/Dispatch.lean ====
section
/-! DEFINITION. One arm per operation of 30_encoding R111. -/

namespace Sys2Proof.Machine

/-- The effect of an operation (R111). -/
def exec (i : Instr) (s : State) : Host.Outcome State Fault Refusal :=
  match i with
  | .cobsEnc raw => Sys2Proof.Machine.execCobsEnc raw s
  | .cobsDec frame => Sys2Proof.Machine.execCobsDec frame s
  | .crc16 data => Sys2Proof.Machine.execCrc16 data s
  | .hdrEnc ms topic command dlen => Sys2Proof.Machine.execHdrEnc ms topic command dlen s
  | .hdrDec hdr => Sys2Proof.Machine.execHdrDec hdr s
  | .pktConfigure topic command payload => Sys2Proof.Machine.execPktConfigure topic command payload s
  | .pktStamp disable => Sys2Proof.Machine.execPktStamp disable s
  | .pktEncodeHeader => Sys2Proof.Machine.execPktEncodeHeader s
  | .pktPacketize => Sys2Proof.Machine.execPktPacketize s
  | .pktDepacketize rawBytes => Sys2Proof.Machine.execPktDepacketize rawBytes s
  | .adcInit => Sys2Proof.Machine.execAdcInit s
  | .adcWreg reg value => Sys2Proof.Machine.execAdcWreg reg value s
  | .adcRreg reg => Sys2Proof.Machine.execAdcRreg reg s
  | .adcSetDrate code => Sys2Proof.Machine.execAdcSetDrate code s
  | .adcSetMux sel => Sys2Proof.Machine.execAdcSetMux sel s
  | .adcSetPga exp => Sys2Proof.Machine.execAdcSetPga exp s
  | .adcSetClkout div => Sys2Proof.Machine.execAdcSetClkout div s
  | .adcSetSdcs cur => Sys2Proof.Machine.execAdcSetSdcs cur s
  | .adcSetOrder b => Sys2Proof.Machine.execAdcSetOrder b s
  | .adcSetAcal b => Sys2Proof.Machine.execAdcSetAcal b s
  | .adcSetBufen b => Sys2Proof.Machine.execAdcSetBufen b s
  | .adcSetGpio dir val => Sys2Proof.Machine.execAdcSetGpio dir val s
  | .adcReadSingle => Sys2Proof.Machine.execAdcReadSingle s
  | .adcReadCont => Sys2Proof.Machine.execAdcReadCont s
  | .adcStop => Sys2Proof.Machine.execAdcStop s
  | .adcCycleSe => Sys2Proof.Machine.execAdcCycleSe s
  | .adcCycleDiff => Sys2Proof.Machine.execAdcCycleDiff s
  | .adcVconv raw24 => Sys2Proof.Machine.execAdcVconv raw24 s

end Sys2Proof.Machine
end

