-- ==== Sys2Proof/Decode.lean ====
section
/-! DEFINITION. Requests as bytes: the operation-select code of 30_encoding R111 followed by the operands in the types of
R112. The spec fixes the code and no serial form of the operands; the form below is the model's own (log entry 1): a
number most significant byte first in the fewest whole bytes, a one-bit operand as 0 or 1, a register as its place in the
list of R34, a byte sequence with its length before it (R112), the length in base 128, least group first. -/

namespace Sys2Proof

/-- Why some bytes are no request: an operation code outside R111 (R113), bytes that end inside an operand, an operand
outside its type (R112). -/
inductive DecodeError where
  | unassignedOp (op : Byte)
  | truncated
  | operandRange
deriving DecidableEq, Repr

/-- The operation-select code of R111. -/
def Instr.opcode : Instr → Byte
  | .cobsEnc _ => 0x01#8
  | .cobsDec _ => 0x02#8
  | .crc16 _ => 0x03#8
  | .hdrEnc _ _ _ _ => 0x04#8
  | .hdrDec _ => 0x05#8
  | .pktConfigure _ _ _ => 0x10#8
  | .pktStamp _ => 0x11#8
  | .pktEncodeHeader => 0x12#8
  | .pktPacketize => 0x13#8
  | .pktDepacketize _ => 0x14#8
  | .adcInit => 0x20#8
  | .adcWreg _ _ => 0x21#8
  | .adcRreg _ => 0x22#8
  | .adcSetDrate _ => 0x23#8
  | .adcSetMux _ => 0x24#8
  | .adcSetPga _ => 0x25#8
  | .adcSetClkout _ => 0x26#8
  | .adcSetSdcs _ => 0x27#8
  | .adcSetOrder _ => 0x28#8
  | .adcSetAcal _ => 0x29#8
  | .adcSetBufen _ => 0x2A#8
  | .adcSetGpio _ _ => 0x2B#8
  | .adcReadSingle => 0x30#8
  | .adcReadCont => 0x31#8
  | .adcStop => 0x32#8
  | .adcCycleSe => 0x33#8
  | .adcCycleDiff => 0x34#8
  | .adcVconv _ => 0x35#8

/-- What reading a part of a request gives: the value and the bytes after it. -/
abbrev Parsed (α : Type) := Except DecodeError (α × List Byte)

/-- One byte. -/
def getByte : List Byte → Parsed Byte
  | [] => .error .truncated
  | b :: bs => .ok (b, bs)

/-- `k` bytes as one number, most significant first, after `acc`. -/
def getNatBE : Nat → Nat → List Byte → Parsed Nat
  | 0, acc, bs => .ok (acc, bs)
  | _ + 1, _, [] => .error .truncated
  | k + 1, acc, b :: bs => getNatBE k (acc * 256 + b.toNat) bs

/-- A `w`-bit operand in `k` bytes; the bits above `w` must be 0, since the operand is exactly `w` bits wide (R112). -/
def getBits (w k : Nat) (bs : List Byte) : Parsed (BitVec w) :=
  match getNatBE k 0 bs with
  | .error e => .error e
  | .ok (n, rest) => if n < 2 ^ w then .ok (BitVec.ofNat w n, rest) else .error .operandRange

/-- A one-bit operand: 0 or 1 (R112). -/
def getBool : List Byte → Parsed Bool
  | [] => .error .truncated
  | b :: bs =>
    if b = 0#8 then .ok (false, bs)
    else if b = 1#8 then .ok (true, bs)
    else .error .operandRange

/-- The number that selects a register in a request: its place in the list STATUS, MUX, ADCON, DRATE, IO. -/
def Reg.code : Reg → Byte
  | .status => 0#8
  | .mux => 1#8
  | .adcon => 2#8
  | .drate => 3#8
  | .io => 4#8

/-- A register operand: one of the five (R112). -/
def getReg : List Byte → Parsed Reg
  | [] => .error .truncated
  | b :: bs =>
    if b = 0#8 then .ok (.status, bs)
    else if b = 1#8 then .ok (.mux, bs)
    else if b = 2#8 then .ok (.adcon, bs)
    else if b = 3#8 then .ok (.drate, bs)
    else if b = 4#8 then .ok (.io, bs)
    else .error .operandRange

/-- A length in base 128, least group first; a byte of 128 or more says that a further group follows. -/
def getLen : List Byte → Parsed Nat
  | [] => .error .truncated
  | b :: bs =>
    if b.toNat < 128 then .ok (b.toNat, bs)
    else
      match getLen bs with
      | .error e => .error e
      | .ok (n, rest) => .ok (b.toNat - 128 + 128 * n, rest)

/-- A byte sequence with its length before it (R112). -/
def getSeq (bs : List Byte) : Parsed (List Byte) :=
  match getLen bs with
  | .error e => .error e
  | .ok (n, rest) => if rest.length < n then .error .truncated else .ok (rest.take n, rest.drop n)

/-- Six header bytes. -/
def getHdr : List Byte → Parsed Hdr
  | b0 :: b1 :: b2 :: b3 :: b4 :: b5 :: bs => .ok (⟨b0, b1, b2, b3, b4, b5⟩, bs)
  | _ => .error .truncated

/-- Read one part, then go on with its value and the bytes after it. -/
def andParse {α β : Type} (p : Parsed α) (f : α → List Byte → Parsed β) : Parsed β :=
  match p with
  | .error e => .error e
  | .ok (a, rest) => f a rest

/-- Apply an operation to one operand read from the bytes. -/
def with1 {α : Type} (f : α → Instr) (p : Parsed α) : Parsed Instr := andParse p fun a rest => .ok (f a, rest)

/-- The four operands of HDR_ENC (R171). -/
def decodeHdrEnc (bs : List Byte) : Parsed Instr :=
  andParse (getBits 27 4 bs) fun ms r1 =>
  andParse (getBits 6 1 r1) fun topic r2 =>
  andParse (getBits 4 1 r2) fun command r3 =>
  andParse (getBits 11 2 r3) fun dlen r4 => .ok (.hdrEnc ms topic command dlen, r4)

/-- The three operands of PKT_CONFIGURE (R173). -/
def decodePktConfigure (bs : List Byte) : Parsed Instr :=
  andParse (getByte bs) fun topic r1 =>
  andParse (getByte r1) fun command r2 =>
  andParse (getSeq r2) fun payload r3 => .ok (.pktConfigure topic command payload, r3)

/-- The two operands of ADC_WREG (R207). -/
def decodeAdcWreg (bs : List Byte) : Parsed Instr :=
  andParse (getReg bs) fun reg r1 =>
  andParse (getByte r1) fun value r2 => .ok (.adcWreg reg value, r2)

/-- The two operands of ADC_SET_GPIO (R217). -/
def decodeAdcSetGpio (bs : List Byte) : Parsed Instr :=
  andParse (getByte bs) fun dir r1 =>
  andParse (getByte r1) fun val r2 => .ok (.adcSetGpio dir val, r2)

/-- The operands of the operation that `op` selects (R111); an `op` of no row is unassigned (R113). -/
def decodeOperands (op : Byte) (bs : List Byte) : Parsed Instr :=
  match op.toNat with
  | 0x01 => with1 .cobsEnc (getSeq bs)
  | 0x02 => with1 .cobsDec (getSeq bs)
  | 0x03 => with1 .crc16 (getSeq bs)
  | 0x04 => decodeHdrEnc bs
  | 0x05 => with1 .hdrDec (getHdr bs)
  | 0x10 => decodePktConfigure bs
  | 0x11 => with1 .pktStamp (getBool bs)
  | 0x12 => .ok (.pktEncodeHeader, bs)
  | 0x13 => .ok (.pktPacketize, bs)
  | 0x14 => with1 .pktDepacketize (getSeq bs)
  | 0x20 => .ok (.adcInit, bs)
  | 0x21 => decodeAdcWreg bs
  | 0x22 => with1 .adcRreg (getReg bs)
  | 0x23 => with1 .adcSetDrate (getByte bs)
  | 0x24 => with1 .adcSetMux (getByte bs)
  | 0x25 => with1 .adcSetPga (getByte bs)
  | 0x26 => with1 .adcSetClkout (getByte bs)
  | 0x27 => with1 .adcSetSdcs (getByte bs)
  | 0x28 => with1 .adcSetOrder (getBool bs)
  | 0x29 => with1 .adcSetAcal (getBool bs)
  | 0x2A => with1 .adcSetBufen (getBool bs)
  | 0x2B => decodeAdcSetGpio bs
  | 0x30 => .ok (.adcReadSingle, bs)
  | 0x31 => .ok (.adcReadCont, bs)
  | 0x32 => .ok (.adcStop, bs)
  | 0x33 => .ok (.adcCycleSe, bs)
  | 0x34 => .ok (.adcCycleDiff, bs)
  | 0x35 => with1 .adcVconv (getBits 24 3 bs)
  | _ => .error (.unassignedOp op)

/-- Decode a request: the operation and the bytes after it, or why there is none (R110 to R113). -/
def decode : List Byte → Parsed Instr
  | [] => .error .truncated
  | op :: bs => decodeOperands op bs

/-- The low `8k` bits of a number in `k` bytes, most significant first. -/
def putNatBE : Nat → Nat → List Byte
  | 0, _ => []
  | k + 1, n => BitVec.ofNat 8 (n / 256 ^ k) :: putNatBE k n

/-- A length in base 128, least group first; `fuel` bounds the number of further groups. -/
def putLenFuel : Nat → Nat → List Byte
  | 0, n => [BitVec.ofNat 8 n]
  | fuel + 1, n =>
    if n < 128 then [BitVec.ofNat 8 n] else BitVec.ofNat 8 (128 + n % 128) :: putLenFuel fuel (n / 128)

/-- A length in base 128; no length has more groups than its own value. -/
def putLen (n : Nat) : List Byte := putLenFuel n n

/-- A byte sequence with its length before it (R112). -/
def putSeq (bs : List Byte) : List Byte := putLen bs.length ++ bs

/-- A one-bit operand. -/
def putBool (b : Bool) : List Byte := [if b then 1#8 else 0#8]

/-- Six header bytes. -/
def putHdr (h : Hdr) : List Byte := [h.b0, h.b1, h.b2, h.b3, h.b4, h.b5]

/-- The operand bytes of an operation, in the order of R111. -/
def encodeOperands : Instr → List Byte
  | .cobsEnc raw => putSeq raw
  | .cobsDec frame => putSeq frame
  | .crc16 data => putSeq data
  | .hdrEnc ms topic command dlen =>
    putNatBE 4 ms.toNat ++ putNatBE 1 topic.toNat ++ putNatBE 1 command.toNat ++ putNatBE 2 dlen.toNat
  | .hdrDec hdr => putHdr hdr
  | .pktConfigure topic command payload => topic :: command :: putSeq payload
  | .pktStamp disable => putBool disable
  | .pktEncodeHeader => []
  | .pktPacketize => []
  | .pktDepacketize rawBytes => putSeq rawBytes
  | .adcInit => []
  | .adcWreg reg value => [reg.code, value]
  | .adcRreg reg => [reg.code]
  | .adcSetDrate code => [code]
  | .adcSetMux sel => [sel]
  | .adcSetPga exp => [exp]
  | .adcSetClkout div => [div]
  | .adcSetSdcs cur => [cur]
  | .adcSetOrder b => putBool b
  | .adcSetAcal b => putBool b
  | .adcSetBufen b => putBool b
  | .adcSetGpio dir val => [dir, val]
  | .adcReadSingle => []
  | .adcReadCont => []
  | .adcStop => []
  | .adcCycleSe => []
  | .adcCycleDiff => []
  | .adcVconv raw24 => putNatBE 3 raw24.toNat

/-- The bytes of a request: the operation-select code and the operands (R110). -/
def encode (i : Instr) : List Byte := i.opcode :: encodeOperands i

/-- The most operand bytes an operation has when its operands are zeros: those of HDR_ENC. -/
def zeroOperandBytes : Nat := 8

/-- `k` bytes of a number, least significant first: the numbering of spec/opcode_table.json. -/
def bytesOfWord : Nat → Nat → List Byte
  | 0, _ => []
  | k + 1, w => BitVec.ofNat 8 w :: bytesOfWord k (w / 256)

/-- The bytes of a table word: its own bytes, and zero operands after them. -/
def tableBytes (nbits w : Nat) : List Byte := bytesOfWord ((nbits + 7) / 8) w ++ List.replicate zeroOperandBytes 0#8

/-- The operation the decoder reads from a table word (30_encoding R111, opcode_table.json), if it reads one. -/
def decodeTableWord (nbits w : Nat) : Option Instr :=
  match decode (tableBytes nbits w) with
  | .ok (i, _) => some i
  | .error _ => none

end Sys2Proof
end

