-- ==== Sys2Proof/WellFormed.lean ====
section
/-! DEFINITION. Well-formedness: of the configuration record (43_adc_regs R204, 00_scope R10) and of an operation's operands
(30_encoding R112). -/

namespace Sys2Proof

open Sys2Proof.Machine

/-- Five bytes, no two equal. -/
def Config.distinct5 (a b c d e : Byte) : Bool := decide [a, b, c, d, e].Nodup

/-- A chip profile the rules assume (R204), with a positive reference voltage (R10) and a settle delay under 10
microseconds (R246). -/
def Config.wf (c : Config) : Bool :=
  contiguous c.mOrder && contiguous c.mAcal && contiguous c.mBufen && contiguous c.mPga && contiguous c.mClk
    && contiguous c.mSdcs && contiguous c.mDir && contiguous c.mDio
    && oneBit c.mOrder && oneBit c.mAcal && oneBit c.mBufen
    && disjoint c.mOrder c.mAcal && disjoint c.mOrder c.mBufen && disjoint c.mAcal c.mBufen
    && disjoint c.mPga c.mClk && disjoint c.mPga c.mSdcs && disjoint c.mClk c.mSdcs
    && disjoint c.mDir c.mDio
    && decide (fieldMax c.mPga ≤ 7#8)
    && Config.distinct5 (wregByte c .status) (wregByte c .mux) (wregByte c .adcon) (wregByte c .drate) (wregByte c .io)
    && Config.distinct5 (rregByte c .status) (rregByte c .mux) (rregByte c .adcon) (rregByte c .drate) (rregByte c .io)
    && decide (0 < c.vref) && decide (c.tSyncWake < 10)

/-- Operands of the types of R112: a setter operand is a value of its field, every other operand has its width in its
type. -/
def Instr.wf (c : Config) : Instr → Bool
  | .cobsEnc _ => true
  | .cobsDec _ => true
  | .crc16 _ => true
  | .hdrEnc _ _ _ _ => true
  | .hdrDec _ => true
  | .pktConfigure _ _ _ => true
  | .pktStamp _ => true
  | .pktEncodeHeader => true
  | .pktPacketize => true
  | .pktDepacketize _ => true
  | .adcInit => true
  | .adcWreg _ _ => true
  | .adcRreg _ => true
  | .adcSetDrate _ => true
  | .adcSetMux _ => true
  | .adcSetPga exp => fitsField c.mPga exp
  | .adcSetClkout div => fitsField c.mClk div
  | .adcSetSdcs cur => fitsField c.mSdcs cur
  | .adcSetOrder _ => true
  | .adcSetAcal _ => true
  | .adcSetBufen _ => true
  | .adcSetGpio dir val => fitsField c.mDir dir && fitsField c.mDio val
  | .adcReadSingle => true
  | .adcReadCont => true
  | .adcStop => true
  | .adcCycleSe => true
  | .adcCycleDiff => true
  | .adcVconv _ => true

end Sys2Proof
end

