-- ==== Sys2Proof/Machine/Fetch.lean ====
section
/-! DEFINITION. What stands around an operation: the block takes the host's next request when it is idle (20_memory R72,
60_exceptions R296), decodes it (30_encoding R110 to R113), goes on with an operation that is held (10_state R45), and
obeys a reset (70_reset_and_hazards R310). The block has no program counter and fetches no program (R30). -/

namespace Sys2Proof.Machine

/-- What a step finds to do. -/
inductive Fetched where
  /-- An operation, at the state it starts from. -/
  | operation (i : Instr) (s : State)
  /-- No operation starts: the step ends in this state. -/
  | done (s : State)
  /-- The request bytes are no request the spec can express. -/
  | stop (r : Refusal)
deriving DecidableEq, Repr

/-- A request at an operation boundary: an unassigned code ends at once with `ERR_BAD_OP` (R113); operands outside their
type are no request (R112). -/
def State.accept (bytes : List Byte) (s : State) : Fetched :=
  match decode bytes with
  | .ok (i, _) => if i.wf s.cfg then .operation i s else .stop .operandWiderThanField
  | .error (.unassignedOp _) => .done (s.raise .errBadOp)
  | .error .truncated => .stop .malformedRequest
  | .error .operandRange => .stop .malformedRequest

/-- What the next step does: go on with the operation in progress, obey a reset scheduled here, take the next request, or
let time pass while the host issues none. -/
def State.fetch (s : State) : Fetched :=
  if s.todo ≠ [] then .done s.resume
  else if s.env.moveAt 0 = .reset then .done s.tick.applyReset
  else
    match s.nextRequest with
    | none => .done s.tick.takeRequest
    | some bytes => State.accept bytes s.tick.takeRequest

/-- The state with request bytes where the next step takes them: first of the host's requests, the block idle, and nothing
at the point of the schedule before them (log entry 10). -/
def State.withRequest (bytes : List Byte) (s : State) : State :=
  { s with
    todo := [], rx := [], requests := bytes :: s.requests
    env := { s.env with sched := .quiet :: s.env.sched } }

end Sys2Proof.Machine
end

