-- ==== Sys2Proof/Machine/Step.lean ====
section
/-! DEFINITION. One step of the machine. -/

namespace Sys2Proof.Machine

/-- One step: run the operation the host's next request names, or what `State.fetch` finds in its place (R72, R296). -/
def step (s : State) : Host.Outcome State Fault Refusal :=
  match s.fetch with
  | .operation i t => exec i t
  | .done t => .next t
  | .stop r => .refused r

/-- The state whose next step takes the operation of a table word (30_encoding R111), its operands zeros (log entry 10). -/
def State.withFetchWord (s : State) (nbits w : Nat) : State := s.withRequest (tableBytes nbits w)

end Sys2Proof.Machine
end

