-- ==== Sys2Proof/Machine/Pseudo.lean ====
section
/-! DEFINITION. The pseudo-operations SEND and RECEIVE as their exact expansions (30_encoding R117). They are no rows of the
operation table. -/

namespace Sys2Proof.Machine

/-- After an operation: go on with its results when it ended with `OK`; a failing step ends the expansion with that step's
result code (R117). -/
def andThen (o : Host.Outcome State Fault Refusal) (k : Result → State → Host.Outcome State Fault Refusal) :
    Host.Outcome State Fault Refusal :=
  match o with
  | .next t =>
    match t.response with
    | some (.ok r) => k r t
    | _ => .next t
  | .fault f => .fault f
  | .refused r => .refused r

/-- COBS_ENC of the packet an operation returned (R117). -/
def framePacket (r : Result) (s : State) : Host.Outcome State Fault Refusal :=
  match r with
  | .packet p => exec (.cobsEnc p) s
  | _ => .next s

/-- PKT_DEPACKETIZE of the raw bytes an operation returned (R117). -/
def acceptRaw (r : Result) (s : State) : Host.Outcome State Fault Refusal :=
  match r with
  | .raw bytes _ => exec (.pktDepacketize bytes) s
  | _ => .next s

/-- `SEND topic, command, payload, disable -> frame` (R117). -/
def send (topic command : Byte) (payload : List Byte) (disable : Bool) (s : State) : Host.Outcome State Fault Refusal :=
  andThen (exec (.pktConfigure topic command payload) s) fun _ s1 =>
  andThen (exec (.pktStamp disable) s1) fun _ s2 =>
  andThen (exec .pktEncodeHeader s2) fun _ s3 =>
  andThen (exec .pktPacketize s3) framePacket

/-- `RECEIVE frame -> RXMSG` (R117). -/
def receive (frame : List Byte) (s : State) : Host.Outcome State Fault Refusal :=
  andThen (exec (.cobsDec frame) s) acceptRaw

end Sys2Proof.Machine
end

