-- ==== Sys2Proof/Machine/Streaming.lean ====
section
/-! DEFINITION. The streaming forms the spec gives the two stateless units (40_cobs R140, R141, 41_crc16 R161) and the
resynchronisation of a byte stream (40_cobs R142). Their working state lives inside one operation and is no register
(10_state R20), so none of it stands in `State`. -/

namespace Sys2Proof.Machine

/-- Working state of the streaming framer: the run buffer and the `need` bit (R140). -/
structure EncStream where
  run : List Byte
  need : Bool
deriving DecidableEq, Repr

/-- The framer's working state at the start of an operation (R140). -/
def EncStream.start : EncStream := { run := [], need := true }

/-- One input byte into the streaming framer: what it emits, and its working state after (R140). -/
def EncStream.push (extra : Bool) (b : Byte) (w : EncStream) : List Byte × EncStream :=
  if b = 0x00#8 then (lenByte w.run :: w.run, { run := [], need := true })
  else if (w.run ++ [b]).length = 254 then (0xFF#8 :: (w.run ++ [b]), { run := [], need := extra })
  else ([], { run := w.run ++ [b], need := true })

/-- What the streaming framer emits at the end-of-input mark (R140). -/
def EncStream.stop (w : EncStream) : List Byte := (if w.need then lenByte w.run :: w.run else []) ++ [0x00#8]

/-- Everything the streaming framer emits over an input, in order (R140). -/
def EncStream.emitted (extra : Bool) : List Byte → EncStream → List Byte
  | [], w => w.stop
  | b :: bs, w => (w.push extra b).1 ++ EncStream.emitted extra bs (w.push extra b).2

/-- Where the streaming deframer stands: at a length byte, or inside a block with `rem` bytes to copy (R141). -/
inductive DecPhase where
  | len
  | copy (rem : Nat)
deriving DecidableEq, Repr

/-- Working state of the streaming deframer, with the count of bytes read (R141). -/
structure DecStream where
  phase : DecPhase
  first : Bool
  wasmax : Bool
  out : List Byte
  count : Nat
deriving DecidableEq, Repr

/-- The deframer's working state at the start of an operation (R141). -/
def DecStream.start : DecStream := { phase := .len, first := true, wasmax := false, out := [], count := 0 }

/-- The phase with `rem` bytes still to copy: COPY while there are some (R141). -/
def DecPhase.ofRem : Nat → DecPhase
  | 0 => .len
  | n + 1 => .copy (n + 1)

/-- One frame byte into the streaming deframer: the end of the operation, or its working state after (R141). -/
def DecStream.push (b : Byte) (w : DecStream) : Except ErrCode (List Byte × Nat) ⊕ DecStream :=
  match w.phase with
  | .len =>
    if b = 0x00#8 then .inl (.ok (w.out, w.count + 1))
    else
      .inr
        { phase := DecPhase.ofRem (b.toNat - 1), first := false, wasmax := b == 0xFF#8
          out := if !w.first && !w.wasmax then w.out ++ [0x00#8] else w.out
          count := w.count + 1 }
  | .copy rem =>
    if b = 0x00#8 then .inl (.error .cobsErrZeroInBlock)
    else .inr { w with phase := DecPhase.ofRem (rem - 1), out := w.out ++ [b], count := w.count + 1 }

/-- The outcome of the streaming deframer over a frame with an end-of-input mark after it (R141). -/
def DecStream.outcome : List Byte → DecStream → Except ErrCode (List Byte × Nat)
  | [], _ => .error .cobsErrTruncated
  | b :: bs, w =>
    match w.push b with
    | .inl r => r
    | .inr w' => DecStream.outcome bs w'

/-- The bits of a byte, most significant first (R161). -/
def bitsOf (b : Byte) : List Bool :=
  [b.getLsbD 7, b.getLsbD 6, b.getLsbD 5, b.getLsbD 4, b.getLsbD 3, b.getLsbD 2, b.getLsbD 1, b.getLsbD 0]

/-- One input bit into the register: `fb <- c[15] ^ u; c <- c << 1; if fb: c <- c ^ CRC_POLY` (R161). -/
def crcBit (poly c : BitVec 16) (u : Bool) : BitVec 16 := if c.getLsbD 15 ^^ u then (c <<< 1) ^^^ poly else c <<< 1

/-- The bit-serial register after a byte sequence (R161). -/
def crcSerial (poly c : BitVec 16) (data : List Byte) : BitVec 16 := (data.flatMap bitsOf).foldl (crcBit poly) c

/-- What a receiver has left of a stream after discarding bytes up to and including the next 0x00 (R142). -/
def resync : List Byte → List Byte
  | [] => []
  | b :: bs => if b = 0x00#8 then bs else resync bs

end Sys2Proof.Machine
end

