-- ==== Sys2Proof/Safety.lean ====
section
/-! DEFINITION. The terms claims use: the invariants the spec states of the machine (10_state R22, R23, R35 to R38, R45), the
premises on the environment a claim may need (20_memory R67), and comparison of states up to timing. -/

namespace Sys2Proof.Machine

/-- The invariants of the TX message object (R22, R23): the length register agrees with the payload, each product of the
lifecycle has a value exactly from its phase on, and then holds what its operation computes. -/
structure State.MsgOk (s : State) : Prop where
  dlen_eq : s.msg.payload.length = s.msg.dlen.toNat
  ms_iff : s.msg.ms.isSome = Phase.stamped.reached s.msg.phase
  hdr_iff : s.msg.hdr.isSome = Phase.headerPacked.reached s.msg.phase
  csum_iff : s.msg.csum.isSome = Phase.finalized.reached s.msg.phase
  pkt_iff : s.msg.pkt.isSome = Phase.finalized.reached s.msg.phase
  hdr_eq : ∀ h ms, s.msg.hdr = some h → s.msg.ms = some ms → h = hdrEncode ms s.msg.topic s.msg.cmd s.msg.dlen
  csum_eq : ∀ c h, s.msg.csum = some c → s.msg.hdr = some h → c = crcOf s.cfg (hdrBytes h ++ s.msg.payload)
  pkt_eq : ∀ p h, s.msg.pkt = some p → s.msg.hdr = some h → p = sealPacket s.cfg (hdrBytes h ++ s.msg.payload)

/-- The position of the main agent (R45): an operation in progress waits at a hold, has given no response, and ends with
its results; without one no answer is kept. -/
structure State.PositionOk (s : State) : Prop where
  at_hold : s.todo ≠ [] → s.todo.head? = some .waitDrdy
  ends : s.todo ≠ [] → ∃ as e, s.todo = as ++ [.finish e] ∧ ∀ f, Action.finish f ∉ as
  no_response : s.todo ≠ [] → s.response = none
  no_answers : s.todo = [] → s.rx = []

/-- The flag is set only while the handler is installed (R37, R282). -/
def State.FlagOk (s : State) : Prop := s.adc.drdyFlag = true → s.adc.irqEn = true

/-- The gain exponent is a value 0 to 7 of its field, in the register and in what the operation in progress will write
(R38). -/
def State.PgaOk (s : State) : Prop :=
  (∀ e, s.adc.pga = some e → e ≤ 7) ∧ ∀ e, Action.setPga e ∈ s.todo → e ≤ 7

/-- No operation is in progress (R313). -/
abbrev State.Idle (s : State) : Prop := s.todo = []

/-- The host applies no reset from here on. -/
abbrev State.NoReset (s : State) : Prop := ∀ k, s.env.moveAt k ≠ .reset

/-- The next hold will pass: the flag is set, or the handler is installed and an edge comes at the next point of the schedule
(R200). -/
abbrev State.EdgeReady (s : State) : Prop := s.adc.drdyFlag = true ∨ (s.adc.irqEn = true ∧ s.env.moveAt 0 = .edge)

/-- The main agent is held at WaitDRDY (R200, R274). -/
abbrev State.Held (s : State) : Prop := s.todo.head? = some .waitDrdy

/-- The state with a data-ready edge put before what its schedule holds. -/
def State.givenEdge (s : State) : State := { s with env := { s.env with sched := .edge :: s.env.sched } }

/-- Does an operation wait for data-ready on its way: every operation of the ADC unit but ADC_VCONV (R200)? -/
abbrev Waits (i : Instr) : Prop := 0x20 ≤ i.opcode.toNat ∧ i.opcode.toNat ≤ 0x34

/-- The shadow that an operation reads holds a value, so that the operation is not refused (R205). -/
abbrev State.HasShadow (s : State) (i : Instr) : Prop :=
  (0x25 ≤ i.opcode.toNat → i.opcode.toNat ≤ 0x27 → s.adc.shAdcon ≠ none) ∧
  (0x28 ≤ i.opcode.toNat → i.opcode.toNat ≤ 0x2A → s.adc.shStatus ≠ none)

/-- A state with the flag and the schedule left out: what remains does not depend on when edges came. -/
def State.untimed (s : State) : State :=
  { s with adc := { s.adc with drdyFlag := false }, env := { s.env with sched := [], later := .always .quiet } }

/-- Operation `i` from state `s` answers a next state, which is `u` but for when edges came. -/
def EndsAs (i : Instr) (s u : State) : Prop := ∃ t, exec i s = .next t ∧ t.untimed = u.untimed

/-- Steps lead from a state to another, an operation in progress all the way but at the last. -/
inductive GoesOn : State → State → Prop where
  | here (s : State) : GoesOn s s
  | further {s t u : State} (held : ¬ s.Idle) (next : step s = .next t) (rest : GoesOn t u) : GoesOn s u

/-- Operation `i` started in state `s` ends with a response in state `t`, in the step that starts it or in a later one. -/
def Ends (i : Instr) (s t : State) : Prop :=
  ∃ h, exec i s = .next h ∧ GoesOn h t ∧ t.Idle ∧ t.response ≠ none

/-- The environment after `n` bus answers were taken. -/
def Env.takeBuses (n : Nat) (e : Env) : Env := (Env.takeBus)^[n] e

/-- The transfer event of a byte whose answer is the `k`-th from the state's environment. -/
def State.xferEvent (s : State) (tx : Byte) (k : Nat) : Event := .xfer tx (s.env.busAnswerAt k)

/-- The events of EXCH3, its answers from the `k`-th on (R201). -/
def State.exchEvents (s : State) (b0 b1 b2 : Byte) (k : Nat) : List Event :=
  [s.xferEvent b0 k, .delayUs s.cfg.tIb, s.xferEvent b1 (k + 1), .delayUs s.cfg.tIb, s.xferEvent b2 (k + 2)]

/-- The events of a register write, its answers from the `k`-th on (R202). -/
def State.regwriteEvents (s : State) (r : Reg) (v : Byte) (k : Nat) : List Event :=
  .cs .asserted :: s.exchEvents (wregByte s.cfg r) s.cfg.rsvdByte v k ++ [.cs .released]

/-- The sample of the three answers from the `k`-th on, most significant first, as the number they make (R64, R240). -/
def State.sampleAt (s : State) (k : Nat) : BitVec 24 :=
  BitVec.ofNat 24
    ((s.env.busAnswerAt k).toNat * 2 ^ 16 + (s.env.busAnswerAt (k + 1)).toNat * 2 ^ 8 + (s.env.busAnswerAt (k + 2)).toNat)

/-- The events of READ3, its answers from the `k`-th on (R240). -/
def State.read3Events (s : State) (k : Nat) : List Event :=
  [s.xferEvent s.cfg.dummyTx k, s.xferEvent s.cfg.dummyTx (k + 1), s.xferEvent s.cfg.dummyTx (k + 2)]

/-- The pulse events of an optional pin (R206). -/
def pulseEvents (present : Bool) (p : Pin) (low settle : Nat) : List Event :=
  if present then [.pin p .active, .delayUs low, .pin p .inactive, .delayUs settle] else []

/-- The state an ADC operation leaves when it ended with results `r`, having emitted `events` with `n` transfers and left
the device state `adc` and the line at `level`. -/
def State.ended (s : State) (adc : Adc) (level : ChipSelect) (events : List Event) (n : Nat) (r : Result) : State :=
  { s with
    adc := adc, cs := level, todo := [], rx := [], response := some (.ok r), trace := s.trace ++ events
    env := s.env.takeBuses n }

end Sys2Proof.Machine
end

