-- ==== Sys2Proof/Certificates/Slice0/Obligations.lean ====
section
/-! DEFINITION. The statements for the provers, each about the machine and none about a program; the docstring names the rules
of spec/ it rests on. -/

open Sys2Proof Sys2Proof.Machine

/-! ## The step, the request decoder and reset -/

/-- A step runs the decoded request: an idle block with no reset due takes the host's next request and runs the operation it
decodes to, from the state in which one point of the schedule has passed and the request is taken; with the request listed
and nothing at that point, nothing else has changed (R72, R110, R296; the schedule and the bytes of a request are the model's
own, log entries 1, 7 and 10). -/
def Obligations.StepRunsTheDecodedRequest : Prop :=
  ∀ (s : State) (bytes : List Byte) (i : Instr) (rest : List Byte),
    s.Idle → s.env.moveAt 0 ≠ .reset → s.nextRequest = some bytes → decode bytes = .ok (i, rest) →
    i.wf s.cfg = true →
    step s = exec i s.tick.takeRequest ∧
      ∀ (rs : List (List Byte)) (ms : List Move), s.requests = bytes :: rs → s.env.sched = .quiet :: ms →
        step s = exec i { s with requests := rs, env := { s.env with sched := ms } }

/-- Without a request an idle block only lets a point of the schedule pass. An operation in progress is gone on with, and the
host's later requests wait for its end: a step runs the actions it has still to run; at a hold it passes to the rest of them,
the flag cleared, when the flag is set or an edge sets it at this point, and else only the point passes (R72, R75, R200, R296;
the schedule, the position and the requests are the model's own, log entries 7, 8 and 10). -/
def Obligations.StepWithoutARequest : Prop :=
  ∀ s : State,
    (s.Idle → s.env.moveAt 0 ≠ .reset → s.nextRequest = none → step s = .next s.tick.takeRequest) ∧
    (¬ s.Idle → step s = .next (run s.todo s) ∧ (run s.todo s).requests = s.requests ∧
      (run s.todo s).laterRequests = s.laterRequests ∧ (s.NoReset → (run s.todo s).msg = s.msg)) ∧
    (∀ as : List Action, s.todo = .waitDrdy :: as → s.env.moveAt 0 ≠ .reset →
      step s = .next
        (if s.adc.drdyFlag = true ∨ s.adc.irqEn = true ∧ s.env.moveAt 0 = .edge then
          run as { s with adc := { s.adc with drdyFlag := false }, env := s.env.dropMove }
        else { s with env := s.env.dropMove }))

/-- A reset puts every register at its reset value in one step, abandons any operation in progress, emits no event and
leaves the block idle, whatever the state (R310, R311; that a point of the schedule carries the reset is log entry 9). -/
def Obligations.ResetTakesOneStep : Prop :=
  ∀ s : State, s.env.moveAt 0 = .reset →
    ∃ t, step s = .next t ∧ t.msg = State.reset.msg ∧ t.adc = State.reset.adc ∧ t.Idle ∧ t.rx = [] ∧ t.trace = s.trace ∧
      t.cfg = s.cfg ∧ t.requests = s.requests ∧ t.laterRequests = s.laterRequests ∧ t.env = s.env.dropMove

/-- The reset values of the TX message object and of the ADC device state, and the start of the chip-select view (R25, R40,
R311; that it starts released where R43 leaves it unspecified is log entry 11). -/
def Obligations.ResetValues : Prop :=
  State.reset.msg.phase = .empty ∧ State.reset.msg.topic = 0 ∧ State.reset.msg.cmd = 0 ∧ State.reset.msg.dlen = 0 ∧
  State.reset.msg.payload = [] ∧ State.reset.msg.ms = none ∧ State.reset.msg.hdr = none ∧ State.reset.msg.csum = none ∧
  State.reset.msg.pkt = none ∧ (∀ r, State.reset.adc.shadow r = none) ∧ State.reset.adc.pga = none ∧
  State.reset.adc.running = false ∧ State.reset.adc.cycle = 0 ∧ State.reset.adc.drdyFlag = false ∧
  State.reset.adc.irqEn = false ∧ State.reset.cs = .released ∧ State.reset.Idle

/-- A request with an operation code of no row ends at once with `ERR_BAD_OP`, emits no event and changes no state: a point
of the schedule passes, the request is taken, and the response is the code. The result codes have the values of the table
of R270, `ERR_BAD_OP` 0xF0 and `OK` 0x00 among them (R110, R113, R270; the passed point of the schedule and the host's
requests are the model's own, log entries 7 and 10). -/
def Obligations.UnassignedCodeIsBadOp : Prop :=
  (∀ (s : State) (op : Byte) (rest : List Byte),
    s.Idle → s.env.moveAt 0 ≠ .reset → s.nextRequest = some (op :: rest) →
    op.toNat ∉ [0x01, 0x02, 0x03, 0x04, 0x05, 0x10, 0x11, 0x12, 0x13, 0x14, 0x20, 0x21, 0x22, 0x23, 0x24, 0x25, 0x26,
      0x27, 0x28, 0x29, 0x2A, 0x2B, 0x30, 0x31, 0x32, 0x33, 0x34, 0x35] →
    step s = .next { s.tick.takeRequest with response := some (.err .errBadOp) }) ∧
  (∀ r : Result, (Response.ok r).code = 0x00#8) ∧
  ∀ e : ErrCode, (Response.err e).code =
    match e with
    | .cobsErrZeroInBlock => 0x10#8
    | .cobsErrTruncated => 0x11#8
    | .pktErrTopic => 0x20#8
    | .pktErrCommand => 0x21#8
    | .pktErrLength => 0x22#8
    | .pktErrStampRange => 0x23#8
    | .pktErrClock _ => 0x24#8
    | .pktErrNoStamp => 0x25#8
    | .pktErrNoHeader => 0x26#8
    | .pktErrAssembly => 0x27#8
    | .pktErrShort => 0x30#8
    | .pktErrChecksum => 0x31#8
    | .pktErrDataLength => 0x32#8
    | .pktErrMillistampRange => 0x33#8
    | .adcErrNoShadow => 0x40#8
    | .errBadOp => 0xF0#8

/-- Decoding inverts encoding for every operation and every operand, whatever bytes follow (R110, R111, R112; the operand
form is log entry 1). -/
def Obligations.DecodeInvertsEncode : Prop :=
  ∀ (i : Instr) (rest : List Byte), decode (encode i ++ rest) = .ok (i, rest)

/-- Words of the operation table decode to the operations they stand for (R111): a sanity statement. -/
def Obligations.TableWordsDecode : Prop :=
  decodeTableWord 8 0x01 = some (.cobsEnc []) ∧ decodeTableWord 8 0x03 = some (.crc16 []) ∧
  decodeTableWord 8 0x12 = some .pktEncodeHeader ∧ decodeTableWord 8 0x20 = some .adcInit ∧
  decodeTableWord 8 0x34 = some .adcCycleDiff ∧ decodeTableWord 8 0x36 = none

/-! ## The COBS unit -/

/-- COBS_ENC returns what the streaming framer emits, with status OK, and changes nothing else (R130, R131, R140). -/
def Obligations.CobsEncEqualsStreaming : Prop :=
  ∀ (raw : List Byte) (s : State),
    exec (.cobsEnc raw) s = .next { s with
      response := some (.ok (.frame (EncStream.emitted s.cfg.cobsExtraAfterMax raw EncStream.start))) }

/-- A produced frame ends in its terminator and holds no other zero byte, and at least one byte stands before the
terminator (R132). -/
def Obligations.FrameHasOneZero : Prop :=
  ∀ (extra : Bool) (raw : List Byte), ∃ body, cobsEncode extra raw = body ++ [0x00#8] ∧ 0x00#8 ∉ body ∧ body ≠ []

/-- The length of a produced frame without extra empty runs: 2 for the empty input, else the input's length plus two, plus
at most one more byte for each full 254 bytes before the last (R132). -/
def Obligations.FrameLengthBounds : Prop :=
  ∀ raw : List Byte,
    (raw = [] → (cobsEncode false raw).length = 2) ∧
    (raw ≠ [] → raw.length + 2 ≤ (cobsEncode false raw).length ∧
      (cobsEncode false raw).length ≤ raw.length + 2 + (raw.length - 1) / 254)

/-- Round trip: COBS_DEC of COBS_ENC of any bytes gives the bytes back and has read the whole frame, for either value of
the extra-run parameter; nothing else changes (R135). -/
def Obligations.CobsRoundTrip : Prop :=
  ∀ (extra : Bool) (raw : List Byte) (s : State),
    exec (.cobsDec (cobsEncode extra raw)) s =
      .next { s with response := some (.ok (.raw raw (cobsEncode extra raw).length)) }

/-- COBS_DEC ends as the streaming deframer does, on every operand: the same bytes and count, or the same code; nothing but
the response changes (R133, R134, R141). -/
def Obligations.CobsDecEqualsStreaming : Prop :=
  ∀ (frame : List Byte) (s : State),
    exec (.cobsDec frame) s =
      match DecStream.outcome frame DecStream.start with
      | .ok (raw, n) => .next { s with response := some (.ok (.raw raw n)) }
      | .error e => .next { s with response := some (.err e) }

/-- Bytes after the first terminator are not read: a frame that decodes, decodes alike whatever follows it, and the count
of bytes read ends at a terminator of the frame itself (R136). -/
def Obligations.CobsDecStopsAtTerminator : Prop :=
  ∀ (frame raw tail : List Byte) (n : Nat), cobsDecode frame = .ok (raw, n) →
    cobsDecode (frame ++ tail) = .ok (raw, n) ∧ 1 ≤ n ∧ frame[n - 1]? = some 0x00#8

/-- Malformed frames: without a zero byte a frame is truncated; a zero byte inside the first declared block is reported as
such even when the frame also ends early (R133, R134, R136). -/
def Obligations.CobsDecRejectsMalformed : Prop :=
  (∀ (frame : List Byte) (s : State), 0x00#8 ∉ frame →
    exec (.cobsDec frame) s = .next { s with response := some (.err .cobsErrTruncated) }) ∧
  (∀ (l : Byte) (copied after : List Byte) (s : State), 0x00#8 ∉ copied → copied.length + 1 < l.toNat →
    exec (.cobsDec (l :: copied ++ 0x00#8 :: after)) s = .next { s with response := some (.err .cobsErrZeroInBlock) })

/-- A receiver that starts inside a frame resynchronises: after discarding up to and including the next zero, the frame that
follows decodes to its bytes (R142). -/
def Obligations.StreamResynchronises : Prop :=
  ∀ (extra : Bool) (partialFrame raw tail : List Byte), 0x00#8 ∉ partialFrame →
    cobsDecode (resync (partialFrame ++ 0x00#8 :: cobsEncode extra raw ++ tail)) =
      .ok (raw, (cobsEncode extra raw).length)

/-! ## The CRC unit -/

/-- CRC16 returns the bit-serial register of the configured polynomial and initial value, with status OK, and changes
nothing else (R160, R161). -/
def Obligations.CrcEqualsBitSerial : Prop :=
  ∀ (data : List Byte) (s : State),
    exec (.crc16 data) s = .next { s with
      response := some (.ok (.crc (crcSerial s.cfg.crcPoly s.cfg.crcInit data))) }

/-- Residue: a sequence with its own checksum appended high byte first has checksum zero, for any polynomial and initial
value (R162). -/
def Obligations.CrcResidueIsZero : Prop :=
  ∀ (cfg : Config) (m : List Byte), crcOf cfg (m ++ bigEndian16 (crcOf cfg m)) = 0#16

/-- Linearity with initial value zero, and leading zeros do not count (R162). -/
def Obligations.CrcIsLinear : Prop :=
  ∀ (cfg : Config) (a b : List Byte), cfg.crcInit = 0#16 →
    (a.length = b.length → crcOf cfg (List.zipWith (· ^^^ ·) a b) = crcOf cfg a ^^^ crcOf cfg b) ∧
    crcOf cfg (0x00#8 :: a) = crcOf cfg a

/-- Two sequences that differ in exactly one bit have different checksums, under the polynomial 0x1021, which the spec takes
from general knowledge (R162; log entry 20). -/
def Obligations.CrcDetectsOneBit : Prop :=
  ∀ (cfg : Config) (before after : List Byte) (x : Byte) (k : Nat), cfg.crcPoly = 0x1021#16 → k < 8 →
    crcOf cfg (before ++ x :: after) ≠ crcOf cfg (before ++ (x ^^^ (1#8 <<< k)) :: after)

/-! ## The packet unit -/

/-- HDR_ENC returns the six bytes whose 48 bits, most significant byte first, are the four fields side by side, and changes
nothing else (R62, R91, R92, R171). -/
def Obligations.HdrEncPacksTheFields : Prop :=
  ∀ (ms : BitVec 27) (topic : BitVec 6) (command : BitVec 4) (dlen : BitVec 11) (s : State),
    ∃ h : Hdr, exec (.hdrEnc ms topic command dlen) s = .next { s with response := some (.ok (.hdr h)) } ∧
      h.b0.toNat * 2 ^ 40 + h.b1.toNat * 2 ^ 32 + h.b2.toNat * 2 ^ 24 + h.b3.toNat * 2 ^ 16 + h.b4.toNat * 2 ^ 8 +
        h.b5.toNat = ms.toNat * 2 ^ 21 + topic.toNat * 2 ^ 15 + command.toNat * 2 ^ 11 + dlen.toNat

/-- HDR_DEC returns the four fields by the shifts and masks of the byte layout, for every six bytes, and changes nothing
else (R92, R172). -/
def Obligations.HdrDecExtractsTheFields : Prop :=
  ∀ (h : Hdr) (s : State), exec (.hdrDec h) s = .next { s with response := some (.ok (.fields
    ((h.b0.setWidth 27 <<< 19) ||| (h.b1.setWidth 27 <<< 11) ||| (h.b2.setWidth 27 <<< 3) ||| (h.b3.setWidth 27 >>> 5))
    (((h.b3.setWidth 6 &&& 0x1F#6) <<< 1) ||| (h.b4 >>> 7).setWidth 6)
    ((h.b4 >>> 3).setWidth 4 &&& 0x0F#4)
    (((h.b4.setWidth 11 &&& 0x07#11) <<< 8) ||| h.b5.setWidth 11))) }

/-- The header encoder and decoder are inverse bijections (R172). -/
def Obligations.HeaderRoundTrips : Prop :=
  (∀ (ms : BitVec 27) (topic : BitVec 6) (command : BitVec 4) (dlen : BitVec 11),
    hdrMs (hdrEncode ms topic command dlen) = ms ∧ hdrTopic (hdrEncode ms topic command dlen) = topic ∧
    hdrCommand (hdrEncode ms topic command dlen) = command ∧ hdrDlen (hdrEncode ms topic command dlen) = dlen) ∧
  ∀ h : Hdr, hdrEncode (hdrMs h) (hdrTopic h) (hdrCommand h) (hdrDlen h) = h

/-- PKT_CONFIGURE with operands in range writes the message and restarts the lifecycle at Configured, from any phase; the
stored fields have the operands' values; nothing but the message and the response changes (R173). -/
def Obligations.ConfigureStoresTheMessage : Prop :=
  ∀ (topic command : Byte) (payload : List Byte) (s : State),
    topic.toNat ≤ 63 → command.toNat ≤ 15 → payload.length ≤ 2047 →
    ∃ m : Msg, exec (.pktConfigure topic command payload) s =
        .next { s with msg := m, response := some (.ok .unit) } ∧
      m.topic.toNat = topic.toNat ∧ m.cmd.toNat = command.toNat ∧ m.payload = payload ∧
      m.dlen.toNat = payload.length ∧ m.ms = none ∧ m.hdr = none ∧ m.csum = none ∧ m.pkt = none ∧
      m.phase = .configured

/-- PKT_CONFIGURE refuses, in operand order, a topic above 63, a command above 15, a payload longer than 2047 bytes; nothing
but the response changes (R173, R284). -/
def Obligations.ConfigureRefusesInOrder : Prop :=
  ∀ (topic command : Byte) (payload : List Byte) (s : State),
    (63 < topic.toNat →
      exec (.pktConfigure topic command payload) s = .next { s with response := some (.err .pktErrTopic) }) ∧
    (topic.toNat ≤ 63 → 15 < command.toNat →
      exec (.pktConfigure topic command payload) s = .next { s with response := some (.err .pktErrCommand) }) ∧
    (topic.toNat ≤ 63 → command.toNat ≤ 15 → 2047 < payload.length →
      exec (.pktConfigure topic command payload) s = .next { s with response := some (.err .pktErrLength) })

/-- PKT_STAMP assigns the sentinel without an event when disabled, and the clock's answer with one `CLOCK()` event when not,
if the value fits 27 bits; later products lose their values; the rest is unchanged (R174). -/
def Obligations.StampAssignsTheTime : Prop :=
  ∀ s : State,
    (s.cfg.stampSentinel < 2 ^ 27 → ∃ m : Msg,
      exec (.pktStamp true) s = .next { s with msg := m, response := some (.ok .unit) } ∧
      m = { s.msg with ms := m.ms, hdr := none, csum := none, pkt := none, phase := .stamped } ∧
      m.ms.map (·.toNat) = some s.cfg.stampSentinel) ∧
    (∀ v : Nat, s.env.clockAnswer = (.ok, v) → v < 2 ^ 27 → ∃ m : Msg,
      exec (.pktStamp false) s = .next { s with
        msg := m, response := some (.ok .unit), trace := s.trace ++ [.clock .ok v], env := s.env.takeClock } ∧
      m = { s.msg with ms := m.ms, hdr := none, csum := none, pkt := none, phase := .stamped } ∧
      m.ms.map (·.toNat) = some v)

/-- PKT_STAMP passes on a clock status other than `CLK_OK`, and refuses a value of 2^27 or more; the `CLOCK()` event stands
on the trace and nothing else but the response changes (R174, R272, R284). -/
def Obligations.StampRefuses : Prop :=
  ∀ s : State,
    (2 ^ 27 ≤ s.cfg.stampSentinel →
      exec (.pktStamp true) s = .next { s with response := some (.err .pktErrStampRange) }) ∧
    (∀ (code v : Nat), s.env.clockAnswer = (.other code, v) →
      exec (.pktStamp false) s = .next { s with
        response := some (.err (.pktErrClock (.other code))), trace := s.trace ++ [.clock (.other code) v]
        env := s.env.takeClock }) ∧
    (∀ v : Nat, s.env.clockAnswer = (.ok, v) → 2 ^ 27 ≤ v →
      exec (.pktStamp false) s = .next { s with
        response := some (.err .pktErrStampRange), trace := s.trace ++ [.clock .ok v], env := s.env.takeClock })

/-- PKT_ENCODE_HEADER: refused while no timestamp has been assigned; else it stores and returns the packed header of the
message's fields, and the checksum and packet lose their values (R175). -/
def Obligations.EncodeHeaderPacks : Prop :=
  ∀ s : State, s.MsgOk →
    (s.msg.phase.num < Phase.stamped.num →
      exec .pktEncodeHeader s = .next { s with response := some (.err .pktErrNoStamp) }) ∧
    (Phase.stamped.num ≤ s.msg.phase.num → ∃ (ms : BitVec 27) (h : Hdr), s.msg.ms = some ms ∧
      hdrMs h = ms ∧ hdrTopic h = s.msg.topic ∧ hdrCommand h = s.msg.cmd ∧ hdrDlen h = s.msg.dlen ∧
      exec .pktEncodeHeader s = .next { s with
        msg := { s.msg with hdr := some h, csum := none, pkt := none, phase := .headerPacked }
        response := some (.ok (.hdr h)) })

/-- PKT_PACKETIZE: refused while the header has not been encoded; else the packet is header, payload and the checksum of
both, high byte first, `8 + DLEN` bytes long; it and the checksum are stored (R63, R93, R176). -/
def Obligations.PacketizeSeals : Prop :=
  ∀ s : State, s.MsgOk →
    (s.msg.phase.num < Phase.headerPacked.num →
      exec .pktPacketize s = .next { s with response := some (.err .pktErrNoHeader) }) ∧
    (Phase.headerPacked.num ≤ s.msg.phase.num → ∃ (h : Hdr) (c : BitVec 16) (p : List Byte), s.msg.hdr = some h ∧
      c = crcOf s.cfg ([h.b0, h.b1, h.b2, h.b3, h.b4, h.b5] ++ s.msg.payload) ∧
      p = [h.b0, h.b1, h.b2, h.b3, h.b4, h.b5] ++ s.msg.payload ++ [(c >>> 8).setWidth 8, c.setWidth 8] ∧
      p.length = 8 + s.msg.dlen.toNat ∧
      exec .pktPacketize s = .next { s with
        msg := { s.msg with csum := some c, pkt := some p, phase := .finalized }, response := some (.ok (.packet p)) })

/-- The lifecycle table: the phase after each successful operation of the send path (R179). -/
def Obligations.LifecycleTable : Prop :=
  ∀ (i : Instr) (s t : State) (r : Result), exec i s = .next t → t.response = some (.ok r) →
    (∀ topic command payload, i = .pktConfigure topic command payload → t.msg.phase = .configured) ∧
    (∀ disable, i = .pktStamp disable → t.msg.phase = .stamped) ∧
    (i = .pktEncodeHeader → Phase.stamped.num ≤ s.msg.phase.num ∧ t.msg.phase = .headerPacked) ∧
    (i = .pktPacketize → Phase.headerPacked.num ≤ s.msg.phase.num ∧ t.msg.phase = .finalized)

/-- PKT_DEPACKETIZE: fewer than eight bytes are short; of eight or more, cut into header, payload and transmitted checksum,
the checksum, the data length and the millistamp are checked in this order, and a message that passes is returned whole;
nothing but the response changes (R177, R178). -/
def Obligations.DepacketizeChecksInOrder : Prop :=
  (∀ (bs : List Byte) (s : State), bs.length < 8 →
    exec (.pktDepacketize bs) s = .next { s with response := some (.err .pktErrShort) }) ∧
  ∀ (h : Hdr) (payload : List Byte) (hi lo : Byte) (s : State),
    exec (.pktDepacketize ([h.b0, h.b1, h.b2, h.b3, h.b4, h.b5] ++ payload ++ [hi, lo])) s = .next { s with
      response := some
        (if crcOf s.cfg ([h.b0, h.b1, h.b2, h.b3, h.b4, h.b5] ++ payload) ≠ hi ++ lo then .err .pktErrChecksum
        else if (hdrDlen h).toNat ≠ payload.length then .err .pktErrDataLength
        else if 86400000 ≤ (hdrMs h).toNat then .err .pktErrMillistampRange
        else .ok (.rxMsg
          { topic := hdrTopic h, command := hdrCommand h, millistamp := hdrMs h, dataLength := hdrDlen h
            payload := payload, checksum := hi ++ lo })) }

/-- Packet round trip: the packet of a finalized message is accepted with the message's own fields when its stamp is below
a day's milliseconds, and refused for its stamp otherwise (R180). -/
def Obligations.FinalizedPacketIsAccepted : Prop :=
  ∀ (s : State) (p : List Byte) (ms : BitVec 27) (c : BitVec 16), s.MsgOk → s.msg.phase = .finalized →
    s.msg.pkt = some p → s.msg.ms = some ms → s.msg.csum = some c →
    exec (.pktDepacketize p) s = .next { s with
      response := some
        (if 86400000 ≤ ms.toNat then .err .pktErrMillistampRange
        else .ok (.rxMsg
          { topic := s.msg.topic, command := s.msg.cmd, millistamp := ms, dataLength := s.msg.dlen
            payload := s.msg.payload, checksum := c })) }

/-- Full round trip: SEND of a message in range, stamped by the clock or, when disabled, with the sentinel, either of them a
time of day, returns a frame, and RECEIVE of that frame, in any state of the same configuration, returns the message sent
(R117, R180). -/
def Obligations.SendThenReceive : Prop :=
  ∀ (s : State) (topic command : Byte) (payload : List Byte) (disable : Bool) (v : Nat),
    topic.toNat ≤ 63 → command.toNat ≤ 15 → payload.length ≤ 2047 →
    (disable = true → v = s.cfg.stampSentinel) → (disable = false → s.env.clockAnswer = (.ok, v)) → v < 86400000 →
    ∃ (t : State) (frame : List Byte), send topic command payload disable s = .next t ∧
      t.response = some (.ok (.frame frame)) ∧ t.msg.phase = .finalized ∧ t.adc = s.adc ∧
      t.trace = s.trace ++ (if disable then [] else [.clock .ok v]) ∧
      ∀ u : State, u.cfg = s.cfg → ∃ (w : State) (m : RxMsg), receive frame u = .next w ∧
        w.response = some (.ok (.rxMsg m)) ∧ m.topic.toNat = topic.toNat ∧ m.command.toNat = command.toNat ∧
        m.millistamp.toNat = v ∧ m.dataLength.toNat = payload.length ∧ m.payload = payload ∧
        w.msg = u.msg ∧ w.adc = u.adc

/-- One flipped bit in a finalized packet is refused as a checksum mismatch, under the polynomial 0x1021, which the spec takes
from general knowledge (R162, R180; log entry 20). -/
def Obligations.OneFlippedBitIsRefused : Prop :=
  ∀ (s : State) (before after : List Byte) (x : Byte) (k : Nat), s.MsgOk → s.cfg.crcPoly = 0x1021#16 →
    s.msg.phase = .finalized → s.msg.pkt = some (before ++ x :: after) → k < 8 →
    exec (.pktDepacketize (before ++ (x ^^^ (1#8 <<< k)) :: after)) s =
      .next { s with response := some (.err .pktErrChecksum) }

/-- Eight zero bytes are a valid packet when the initial value is zero, and more of them fail the length check (R181). -/
def Obligations.AllZeroPacket : Prop :=
  ∀ s : State, s.cfg.crcInit = 0#16 →
    exec (.pktDepacketize (List.replicate 8 0x00#8)) s = .next { s with
      response := some (.ok (.rxMsg
        { topic := 0, command := 0, millistamp := 0, dataLength := 0, payload := [], checksum := 0 })) } ∧
    ∀ n : Nat, 8 < n → exec (.pktDepacketize (List.replicate n 0x00#8)) s =
      .next { s with response := some (.err .pktErrDataLength) }

/-! ## Errors and frames over all operations -/

/-- An operation that ends with an error code leaves every register as it was; the only event before an error is the
`CLOCK()` of PKT_STAMP (R273). -/
def Obligations.ErrorsLeaveTheRegisters : Prop :=
  ∀ (i : Instr) (s t : State) (e : ErrCode), exec i s = .next t → t.response = some (.err e) →
    t.msg = s.msg ∧ t.adc = s.adc ∧ t.cs = s.cs ∧ t.todo = s.todo ∧ t.rx = s.rx ∧ t.cfg = s.cfg ∧
    t.requests = s.requests ∧ t.laterRequests = s.laterRequests ∧
    (t.trace = s.trace ∨ i = .pktStamp false ∧ ∃ status ms, t.trace = s.trace ++ [.clock status ms])

/-- Which unit's operations write which registers: without a reset, only the four operations of the send path write the TX
message object, and only the operations of the ADC unit, ADC_VCONV apart, write the ADC device state, drive chip-select or
stay in progress (R20, R24, R72, R130, R250). -/
def Obligations.UnitsKeepToTheirState : Prop :=
  ∀ (i : Instr) (s t : State), s.NoReset → exec i s = .next t →
    (i.opcode.toNat ∉ [0x10, 0x11, 0x12, 0x13] → t.msg = s.msg) ∧
    (i.opcode.toNat < 0x20 ∨ i.opcode.toNat = 0x35 →
      t.adc = s.adc ∧ t.cs = s.cs ∧ t.todo = s.todo ∧ t.rx = s.rx)

/-! ## The ADC unit -/

/-- Register writes: with a data-ready edge remembered or coming at the next point and no reset, ADC_WREG, ADC_SET_DRATE,
ADC_SET_MUX and ADC_SET_GPIO end with OK, the shadow of their register at the byte sent, the events of one register write on
the trace, chip-select released, and nothing else changed; the first byte of the exchange is the write command OR'd with the
register's address (R96, R97, R201, R202, R207, R209, R210, R217; the schedule of edges is the model's own, log entry 7). -/
def Obligations.RegisterWritesEnd : Prop :=
  ∀ s : State, s.NoReset → s.EdgeReady →
    (∀ (r : Reg) (address v : Byte),
      (r, address) ∈ [(.status, s.cfg.aStatus), (.mux, s.cfg.aMux), (.adcon, s.cfg.aAdcon), (.drate, s.cfg.aDrate),
        (.io, s.cfg.aIo)] →
      EndsAs (.adcWreg r v) s (s.ended (s.adc.setShadow r v) .released
        [.cs .asserted, s.xferEvent (s.cfg.cmdWreg ||| address) 0, .delayUs s.cfg.tIb, s.xferEvent s.cfg.rsvdByte 1,
          .delayUs s.cfg.tIb, s.xferEvent v 2, .cs .released] 3 .unit)) ∧
    (∀ code : Byte, EndsAs (.adcSetDrate code) s
      (s.ended { s.adc with shDrate := some code } .released (s.regwriteEvents .drate code 0) 3 .unit)) ∧
    (∀ sel : Byte, EndsAs (.adcSetMux sel) s
      (s.ended { s.adc with shMux := some sel } .released (s.regwriteEvents .mux sel 0) 3 .unit)) ∧
    (∀ dir val v : Byte, v = ins (ins (s.adc.shIo.getD 0x00#8) s.cfg.mDir dir) s.cfg.mDio val →
      EndsAs (.adcSetGpio dir val) s
        (s.ended { s.adc with shIo := some v } .released (s.regwriteEvents .io v 0) 3 .unit))

/-- The setters of one field: with a value in the shadow, an edge remembered or coming at the next point and no reset, each
replaces its field in the shadow's byte, writes the whole byte through, and changes nothing else, ADC_SET_PGA writing the
exponent register beside it (R203, R211, R212, R213, R214, R215, R216; the schedule of edges is the model's own, log entry
7). -/
def Obligations.FieldSettersEnd : Prop :=
  ∀ (s : State) (old : Byte), s.NoReset → s.EdgeReady →
    (s.adc.shAdcon = some old → ∀ v : Byte,
      EndsAs (.adcSetClkout v) s (s.ended { s.adc with shAdcon := some (ins old s.cfg.mClk v) } .released
        (s.regwriteEvents .adcon (ins old s.cfg.mClk v) 0) 3 .unit) ∧
      EndsAs (.adcSetSdcs v) s (s.ended { s.adc with shAdcon := some (ins old s.cfg.mSdcs v) } .released
        (s.regwriteEvents .adcon (ins old s.cfg.mSdcs v) 0) 3 .unit) ∧
      EndsAs (.adcSetPga v) s (s.ended
        { s.adc with shAdcon := some (ins old s.cfg.mPga v), pga := some v.toNat } .released
        (s.regwriteEvents .adcon (ins old s.cfg.mPga v) 0) 3 .unit)) ∧
    (s.adc.shStatus = some old → ∀ (b : Bool) (v : Byte), v = (if b then 1#8 else 0#8) →
      EndsAs (.adcSetOrder b) s (s.ended { s.adc with shStatus := some (ins old s.cfg.mOrder v) } .released
        (s.regwriteEvents .status (ins old s.cfg.mOrder v) 0) 3 .unit) ∧
      EndsAs (.adcSetAcal b) s (s.ended { s.adc with shStatus := some (ins old s.cfg.mAcal v) } .released
        (s.regwriteEvents .status (ins old s.cfg.mAcal v) 0) 3 .unit) ∧
      EndsAs (.adcSetBufen b) s (s.ended { s.adc with shStatus := some (ins old s.cfg.mBufen v) } .released
        (s.regwriteEvents .status (ins old s.cfg.mBufen v) 0) 3 .unit))

/-- An operation that must read a shadow or the gain exponent holding no value ends with `ADC_ERR_NO_SHADOW` before any event
or state change (R40, R205). -/
def Obligations.NoShadowIsRefused : Prop :=
  ∀ s : State,
    (s.adc.shAdcon = none → ∀ v : Byte,
      exec (.adcSetPga v) s = .next { s with response := some (.err .adcErrNoShadow) } ∧
      exec (.adcSetClkout v) s = .next { s with response := some (.err .adcErrNoShadow) } ∧
      exec (.adcSetSdcs v) s = .next { s with response := some (.err .adcErrNoShadow) }) ∧
    (s.adc.shStatus = none → ∀ b : Bool,
      exec (.adcSetOrder b) s = .next { s with response := some (.err .adcErrNoShadow) } ∧
      exec (.adcSetAcal b) s = .next { s with response := some (.err .adcErrNoShadow) } ∧
      exec (.adcSetBufen b) s = .next { s with response := some (.err .adcErrNoShadow) }) ∧
    (s.adc.pga = none → ∀ raw24 : BitVec 24,
      exec (.adcVconv raw24) s = .next { s with response := some (.err .adcErrNoShadow) })

/-- The field insertion of the setters: with a contiguous mask and a value of its field, the field reads back the value and
every bit outside the mask is the old byte's (R99, R203). -/
def Obligations.InsertionChangesOnlyTheField : Prop :=
  ∀ old m v : Byte, contiguous m = true → fitsField m v = true →
    fieldOf m (ins old m v) = v ∧ ins old m v &&& ~~~m = old &&& ~~~m

/-- ADC_RREG, with an edge remembered or coming at the next point and no reset, returns the answer to its third transfer and
changes no shadow and no other register; the first byte of the exchange is the read command OR'd with the register's address
(R96, R97, R208; the schedule of edges is the model's own, log entry 7). -/
def Obligations.RegisterReadEnds : Prop :=
  ∀ (s : State) (r : Reg) (address : Byte), s.NoReset → s.EdgeReady →
    (r, address) ∈ [(.status, s.cfg.aStatus), (.mux, s.cfg.aMux), (.adcon, s.cfg.aAdcon), (.drate, s.cfg.aDrate),
      (.io, s.cfg.aIo)] →
    EndsAs (.adcRreg r) s (s.ended s.adc .released
      [.cs .asserted, s.xferEvent (s.cfg.cmdRreg ||| address) 0, .delayUs s.cfg.tIb, s.xferEvent s.cfg.rsvdByte 1,
        .delayUs s.cfg.tIb, s.xferEvent s.cfg.dummyTx 2, .cs .released] 3 (.value (s.env.busAnswerAt 2)))

/-- ADC_INIT, whenever it ends, ends with OK, having pulsed the pins that are present, installed the handler, written the four
defaults and sent the self-calibration command; the exponent register holds the default's gain field, RUNNING is 0, and the
GPIO shadow and CYCLE are untouched. It ends at once with an edge at each of its at most 53 actions; on a schedule that brings
no edge, the flag clear, it is held five times, and one edge to each hold lifts it and brings the end (R200, R206, R218, R314;
the schedule of edges and what a step of a hold is are the model's own, log entries 7 and 8). -/
def Obligations.InitEnds : Prop :=
  ∀ s u : State,
    u = s.ended
      { s.adc with
        shStatus := some s.cfg.defStatus, shMux := some s.cfg.defMux, shAdcon := some s.cfg.defAdcon
        shDrate := some s.cfg.defDrate, pga := some (fieldOf s.cfg.mPga s.cfg.defAdcon).toNat, running := false
        irqEn := true } .released
      ([.cs .asserted] ++ pulseEvents s.cfg.hasReset .reset s.cfg.tResetLow s.cfg.tResetSettle
        ++ pulseEvents s.cfg.hasSync .sync s.cfg.tSyncpinLow s.cfg.tSyncpinSettle ++ [.attachDrdy]
        ++ s.regwriteEvents .status s.cfg.defStatus 0 ++ s.regwriteEvents .mux s.cfg.defMux 3
        ++ s.regwriteEvents .adcon s.cfg.defAdcon 6 ++ s.regwriteEvents .drate s.cfg.defDrate 9
        ++ [.cs .asserted, s.xferEvent s.cfg.cmdSelfcal 12, .cs .released]) 13 .unit →
    (∀ t, Ends .adcInit s t → t.untimed = u.untimed) ∧
    (s.NoReset → (∀ k < 53, s.env.moveAt k = .edge) → EndsAs .adcInit s u) ∧
    (s.adc.drdyFlag = false → (∀ k, s.env.moveAt k = .quiet) → ∃ f : Nat → State, exec .adcInit s = .next (f 0) ∧
      (∀ k < 5, (f k).Held ∧ step (f k).givenEdge = .next (f (k + 1))) ∧ (f 5).untimed = u.untimed)

/-- ADC_READ_SINGLE, with an edge remembered or coming at the next point and no reset, returns the sample of the three answers
after the read command, most significant byte first, in a chip-select bracket, and changes no register of the device state
(R64, R240, R241; the schedule of edges is the model's own, log entry 7). -/
def Obligations.ReadSingleEnds : Prop :=
  ∀ s : State, s.NoReset → s.EdgeReady →
    ∃ raw24 : BitVec 24,
      raw24.toNat = (s.env.busAnswerAt 1).toNat * 2 ^ 16 + (s.env.busAnswerAt 2).toNat * 2 ^ 8 + (s.env.busAnswerAt 3).toNat ∧
      EndsAs .adcReadSingle s (s.ended s.adc .released
        ([.cs .asserted, s.xferEvent s.cfg.cmdRdata 0] ++ s.read3Events 1 ++ [.cs .released]) 4 (.sample raw24))

/-- ADC_READ_CONT: the first call opens the session, leaves chip-select asserted and sends the command once; a later call
only reads a sample (R240, R242; the schedule of edges is the model's own, log entry 7). -/
def Obligations.ReadContEnds : Prop :=
  ∀ s : State, s.NoReset → s.EdgeReady →
    (s.adc.running = false → EndsAs .adcReadCont s (s.ended { s.adc with running := true } .asserted
      ([.cs .asserted, s.xferEvent s.cfg.cmdRdatac 0] ++ s.read3Events 1) 4 (.sample (s.sampleAt 1)))) ∧
    (s.adc.running = true → EndsAs .adcReadCont s (s.ended s.adc s.cs (s.read3Events 0) 3 (.sample (s.sampleAt 0))))

/-- ADC_STOP sends the stop command, releases chip-select and clears RUNNING; CYCLE and the shadows stay (R243; the schedule
of edges is the model's own, log entry 7). -/
def Obligations.StopEnds : Prop :=
  ∀ s : State, s.NoReset → s.EdgeReady →
    EndsAs .adcStop s (s.ended { s.adc with running := false } .released
      [s.xferEvent s.cfg.cmdSdatac 0, .cs .released] 1 .unit)

/-- ADC_CYCLE_SE and ADC_CYCLE_DIFF inside a session: from index c the step writes table entry (c + 1) mod N, sends
synchronize, the settle delay, wake and read data, returns the sample, and leaves CYCLE and the multiplexer shadow at that
entry; chip-select stays (R245, R246, R247, R248; the schedule of edges is the model's own, log entry 7). -/
def Obligations.CycleStepEnds : Prop :=
  ∀ s : State, s.NoReset → s.EdgeReady → s.adc.running = true →
    (∀ (k : Fin 8), k.val = (s.adc.cycle.toNat + 1) % 8 →
      EndsAs .adcCycleSe s (s.ended { s.adc with shMux := some s.cfg.muxSe[k], cycle := BitVec.ofNat 3 k.val } s.cs
        (s.exchEvents (wregByte s.cfg .mux) s.cfg.rsvdByte s.cfg.muxSe[k] 0
          ++ [s.xferEvent s.cfg.cmdSync 3, .delayUs s.cfg.tSyncWake, s.xferEvent s.cfg.cmdWakeup 4,
            s.xferEvent s.cfg.cmdRdata 5] ++ s.read3Events 6) 9 (.sample (s.sampleAt 6)))) ∧
    (∀ (k : Fin 4), k.val = (s.adc.cycle.toNat + 1) % 4 →
      EndsAs .adcCycleDiff s (s.ended { s.adc with shMux := some s.cfg.muxDiff[k], cycle := BitVec.ofNat 3 k.val } s.cs
        (s.exchEvents (wregByte s.cfg .mux) s.cfg.rsvdByte s.cfg.muxDiff[k] 0
          ++ [s.xferEvent s.cfg.cmdSync 3, .delayUs s.cfg.tSyncWake, s.xferEvent s.cfg.cmdWakeup 4,
            s.xferEvent s.cfg.cmdRdata 5] ++ s.read3Events 6) 9 (.sample (s.sampleAt 6))))

/-- The first invocation of a cycling machine: it opens the session, asserts chip-select, preloads entry 0 without a wait,
then performs the same steps towards entry 1 (R246, R248; the schedule of edges is the model's own, log entry 7). -/
def Obligations.CycleFirstEnds : Prop :=
  ∀ s : State, s.NoReset → s.EdgeReady → s.adc.running = false →
    EndsAs .adcCycleSe s (s.ended { s.adc with running := true, shMux := some s.cfg.muxSe[1], cycle := 1 } .asserted
      (.cs .asserted :: s.exchEvents (wregByte s.cfg .mux) s.cfg.rsvdByte s.cfg.muxSe[0] 0
        ++ s.exchEvents (wregByte s.cfg .mux) s.cfg.rsvdByte s.cfg.muxSe[1] 3
        ++ [s.xferEvent s.cfg.cmdSync 6, .delayUs s.cfg.tSyncWake, s.xferEvent s.cfg.cmdWakeup 7,
          s.xferEvent s.cfg.cmdRdata 8] ++ s.read3Events 9) 12 (.sample (s.sampleAt 9))) ∧
    EndsAs .adcCycleDiff s (s.ended { s.adc with running := true, shMux := some s.cfg.muxDiff[1], cycle := 1 } .asserted
      (.cs .asserted :: s.exchEvents (wregByte s.cfg .mux) s.cfg.rsvdByte s.cfg.muxDiff[0] 0
        ++ s.exchEvents (wregByte s.cfg .mux) s.cfg.rsvdByte s.cfg.muxDiff[1] 3
        ++ [s.xferEvent s.cfg.cmdSync 6, .delayUs s.cfg.tSyncWake, s.xferEvent s.cfg.cmdWakeup 7,
          s.xferEvent s.cfg.cmdRdata 8] ++ s.read3Events 9) 12 (.sample (s.sampleAt 9)))

/-- The cycle property: after eight invocations of ADC_CYCLE_SE that all end, held on their way or not, the index is back
where it started (0 when the first opened the session); likewise four of ADC_CYCLE_DIFF from an index below 4 (R251). -/
def Obligations.CyclesReturnToTheirStart : Prop :=
  (∀ f : Nat → State, (∀ k < 8, Ends .adcCycleSe (f k) (f (k + 1))) →
    (f 8).adc.cycle = if (f 0).adc.running then (f 0).adc.cycle else 0) ∧
  (∀ f : Nat → State, (∀ k < 4, Ends .adcCycleDiff (f k) (f (k + 1))) →
    (f 0).adc.cycle.toNat < 4 → (f 4).adc.cycle = if (f 0).adc.running then (f 0).adc.cycle else 0)

/-- ADC_VCONV returns the exact rational VREF times the two's-complement value over 2^(22 + PGA), within two references of
zero, and changes nothing else (R98, R250; log entry 21). -/
def Obligations.VconvIsExact : Prop :=
  ∀ (s : State) (pga : Nat) (raw24 : BitVec 24), s.adc.pga = some pga → ∃ v : Rat,
    exec (.adcVconv raw24) s = .next { s with response := some (.ok (.voltage v)) } ∧
    v * 2 ^ (22 + pga) = s.cfg.vref * raw24.toInt ∧
    (0 < s.cfg.vref → -(2 * s.cfg.vref) ≤ v * 2 ^ pga ∧ v * 2 ^ pga < 2 * s.cfg.vref)

/-! ## The data-ready interrupt and the hold -/

/-- The interrupt agent: an edge while the block is idle and the host issues no request sets the flag exactly when the handler
is installed, and changes nothing else (R280, R281; the schedule of edges and the host's requests are the model's own, log
entries 7 and 10). -/
def Obligations.EdgeSetsTheFlag : Prop :=
  ∀ s : State, s.Idle → s.nextRequest = none → s.env.moveAt 0 = .edge →
    step s = .next { s.takeRequest with
      adc := { s.adc with drdyFlag := s.adc.drdyFlag || s.adc.irqEn }, env := s.env.dropMove }

/-- One remembered edge serves one wait. With the flag set and no edge to come every operation with one wait ends with OK and
the flag clear, and every operation that waits, started after it, is held; ADC_INIT passes its first wait and is held at its
second, the first default written. With an edge at every point the flag is set again when the operation ends; an edge right
after a stop's clear is not lost (R75, R200, R281, R282; how a hold is kept is log entry 8). -/
def Obligations.OneEdgeServesOneWait : Prop :=
  ∀ s : State, s.adc.drdyFlag = true →
    (∀ i : Instr, Waits i → i ≠ .adcInit → s.HasShadow i → (∀ k, s.env.moveAt k = .quiet) →
      ∃ (t : State) (r : Result), exec i s = .next t ∧ t.Idle ∧ t.response = some (.ok r) ∧ t.adc.drdyFlag = false ∧
        ∀ j : Instr, Waits j → t.HasShadow j → ∃ u, exec j t = .next u ∧ u.Held ∧ u.response = none) ∧
    ((∀ k, s.env.moveAt k = .quiet) → ∃ t, exec .adcInit s = .next t ∧ t.Held ∧ t.response = none ∧
      t.adc.drdyFlag = false ∧ t.adc.shStatus = some s.cfg.defStatus ∧ t.adc.shMux = some s.cfg.defMux ∧
      t.adc.shAdcon = s.adc.shAdcon) ∧
    (∀ i : Instr, Waits i → i ≠ .adcInit → s.HasShadow i → s.adc.irqEn = true → (∀ k, s.env.moveAt k = .edge) →
      ∃ (t : State) (r : Result), exec i s = .next t ∧ t.Idle ∧ t.response = some (.ok r) ∧ t.adc.drdyFlag = true) ∧
    (s.NoReset → s.adc.irqEn = true → s.env.moveAt 1 = .edge → ∃ t, exec .adcStop s = .next t ∧
      t.response = some (.ok .unit) ∧ t.adc.drdyFlag = true)

/-- The wait that never ends: with the flag clear, no edge ever to come (or, but for ADC_INIT, the handler not installed) and
no reset, every operation that waits gives no response and is held, and no number of further steps changes anything but the
place in the schedule (R200, R274, R314; that a held block goes on stepping is log entry 8). -/
def Obligations.WaitWithoutEdgeNeverEnds : Prop :=
  ∀ (i : Instr) (s : State), s.NoReset → s.adc.drdyFlag = false → Waits i → s.HasShadow i →
    ((∀ k, s.env.moveAt k ≠ .edge) ∨ (i ≠ .adcInit ∧ s.adc.irqEn = false)) →
    ∃ t, exec i s = .next t ∧ t.Held ∧ t.response = none ∧
      ∀ n, ∃ u : State, Host.Core.run Sys2Proof.core n t = Host.Outcome.next u ∧ u.Held ∧ u.response = none ∧
        u.adc.drdyFlag = false ∧ u.untimed = t.untimed

/-- A hold lasts until an edge, and then the operation goes on to its end. Any operation but ADC_INIT that was held, the
handler installed, ends in the step that meets an edge. In whichever step an operation with at most one wait ends, it leaves
what it leaves when an edge was remembered before it started, but for when edges came. Without a reset every operation ends
when edges keep coming, the premise of fairness (R200, R274, R280, R314; the schedule and what a step of a hold is are the
model's own, log entries 7 and 8). -/
def Obligations.EdgeLiftsTheHold : Prop :=
  ∀ (i : Instr) (s : State), s.Idle → s.NoReset →
    (∀ t, i ≠ .adcInit → exec i s = .next t → t.Held → s.adc.irqEn = true →
      ∃ v, step t.givenEdge = .next v ∧ v.Idle ∧ v.response ≠ none ∧
        EndsAs i { s with adc := { s.adc with drdyFlag := true } } v) ∧
    (∀ t, i ≠ .adcInit → Ends i s t → EndsAs i { s with adc := { s.adc with drdyFlag := true } } t) ∧
    ((Waits i → s.adc.irqEn = true ∨ i = .adcInit) → (∀ k, ∃ j ≥ k, s.env.moveAt j = .edge) → ∃ t, Ends i s t)

/-! ## Invariants -/

/-- Every step keeps the invariants of the TX message object: the length register, the values that come with each phase, and
what they hold (R22, R23). -/
def Obligations.StepKeepsTheMessage : Prop := ∀ s t : State, s.MsgOk → step s = .next t → t.MsgOk

/-- Every step keeps the main agent's position well-formed: in progress only at a hold, without a response, with its results
still to give (R45; how the position is held is log entry 8). -/
def Obligations.StepKeepsThePosition : Prop := ∀ s t : State, s.PositionOk → step s = .next t → t.PositionOk

/-- Every step keeps the flag clear while the handler is not installed (R37, R282). -/
def Obligations.StepKeepsTheFlag : Prop := ∀ s t : State, s.FlagOk → step s = .next t → t.FlagOk

/-- Every step keeps the gain exponent a value 0 to 7, on a well-formed profile (R38, R204). -/
def Obligations.StepKeepsTheExponent : Prop :=
  ∀ s t : State, s.cfg.wf = true → s.PgaOk → step s = .next t → t.PgaOk

/-- The invariants hold at reset (R25, R40, R313). -/
def Obligations.ResetMeetsTheInvariants : Prop :=
  State.reset.MsgOk ∧ State.reset.PositionOk ∧ State.reset.FlagOk ∧ State.reset.PgaOk

/-- No step changes the configuration, and without a reset no step uninstalls the handler (R33, R282, R311). -/
def Obligations.StepKeepsConfigurationAndHandler : Prop :=
  ∀ s t : State, step s = .next t → t.cfg = s.cfg ∧ (s.NoReset → s.adc.irqEn = true → t.adc.irqEn = true)

/-- RUNNING is set only by the three session reads and, without a reset, cleared only by ADC_STOP and ADC_INIT: in the step
that starts the operation, and in every later step that goes on with it. A step of an operation in progress writes RUNNING
only by an action that it still had to run, and none that sets it is left to run once an operation is held (R35; the position
of an operation in progress is log entry 8). -/
def Obligations.OnlySessionsTouchRunning : Prop :=
  (∀ (i : Instr) (s t : State), s.NoReset → exec i s = .next t →
    (s.adc.running = false → t.adc.running = true → i = .adcReadCont ∨ i = .adcCycleSe ∨ i = .adcCycleDiff) ∧
    (s.adc.running = true → t.adc.running = false → i = .adcStop ∨ i = .adcInit)) ∧
  (∀ (i : Instr) (s t u : State), s.NoReset → s.Idle → exec i s = .next t → GoesOn t u →
    (s.adc.running = false → u.adc.running = true → i = .adcReadCont ∨ i = .adcCycleSe ∨ i = .adcCycleDiff) ∧
    (s.adc.running = true → u.adc.running = false → i = .adcStop ∨ i = .adcInit) ∧
    Action.setRunning true ∉ u.todo ∧ (Action.setRunning false ∈ u.todo → i = .adcStop ∨ i = .adcInit)) ∧
  (∀ s t : State, s.NoReset → ¬ s.Idle → step s = .next t → t.todo <:+ s.todo ∧
    (s.adc.running = false → t.adc.running = true → Action.setRunning true ∈ s.todo) ∧
    (s.adc.running = true → t.adc.running = false → Action.setRunning false ∈ s.todo))
end

