-- ==== Sys2Proof/Laws/State.lean ====
section
/-! SUPPORT. The small lemmas of the state: one per field of each update, so that no later proof unfolds a record update. -/

namespace Sys2Proof.Machine

/-! Ending an operation (R270 to R273) -/

@[simp] theorem State.reply_cfg (r : Result) (s : State) : (s.reply r).cfg = s.cfg := rfl
@[simp] theorem State.reply_msg (r : Result) (s : State) : (s.reply r).msg = s.msg := rfl
@[simp] theorem State.reply_adc (r : Result) (s : State) : (s.reply r).adc = s.adc := rfl
@[simp] theorem State.reply_cs (r : Result) (s : State) : (s.reply r).cs = s.cs := rfl
@[simp] theorem State.reply_todo (r : Result) (s : State) : (s.reply r).todo = s.todo := rfl
@[simp] theorem State.reply_rx (r : Result) (s : State) : (s.reply r).rx = s.rx := rfl
@[simp] theorem State.reply_response (r : Result) (s : State) : (s.reply r).response = some (.ok r) := rfl
@[simp] theorem State.reply_trace (r : Result) (s : State) : (s.reply r).trace = s.trace := rfl
@[simp] theorem State.reply_requests (r : Result) (s : State) : (s.reply r).requests = s.requests := rfl
@[simp] theorem State.reply_laterRequests (r : Result) (s : State) : (s.reply r).laterRequests = s.laterRequests := rfl
@[simp] theorem State.reply_env (r : Result) (s : State) : (s.reply r).env = s.env := rfl
@[simp] theorem State.raise_cfg (e : ErrCode) (s : State) : (s.raise e).cfg = s.cfg := rfl
@[simp] theorem State.raise_msg (e : ErrCode) (s : State) : (s.raise e).msg = s.msg := rfl
@[simp] theorem State.raise_adc (e : ErrCode) (s : State) : (s.raise e).adc = s.adc := rfl
@[simp] theorem State.raise_cs (e : ErrCode) (s : State) : (s.raise e).cs = s.cs := rfl
@[simp] theorem State.raise_todo (e : ErrCode) (s : State) : (s.raise e).todo = s.todo := rfl
@[simp] theorem State.raise_rx (e : ErrCode) (s : State) : (s.raise e).rx = s.rx := rfl
@[simp] theorem State.raise_response (e : ErrCode) (s : State) : (s.raise e).response = some (.err e) := rfl
@[simp] theorem State.raise_trace (e : ErrCode) (s : State) : (s.raise e).trace = s.trace := rfl
@[simp] theorem State.raise_requests (e : ErrCode) (s : State) : (s.raise e).requests = s.requests := rfl
@[simp] theorem State.raise_laterRequests (e : ErrCode) (s : State) : (s.raise e).laterRequests = s.laterRequests := rfl
@[simp] theorem State.raise_env (e : ErrCode) (s : State) : (s.raise e).env = s.env := rfl

/-! Events (R66) -/

@[simp] theorem State.emit_cfg (e : Event) (s : State) : (s.emit e).cfg = s.cfg := rfl
@[simp] theorem State.emit_msg (e : Event) (s : State) : (s.emit e).msg = s.msg := rfl
@[simp] theorem State.emit_adc (e : Event) (s : State) : (s.emit e).adc = s.adc := rfl
@[simp] theorem State.emit_cs (e : Event) (s : State) : (s.emit e).cs = s.cs := rfl
@[simp] theorem State.emit_todo (e : Event) (s : State) : (s.emit e).todo = s.todo := rfl
@[simp] theorem State.emit_rx (e : Event) (s : State) : (s.emit e).rx = s.rx := rfl
@[simp] theorem State.emit_response (e : Event) (s : State) : (s.emit e).response = s.response := rfl
@[simp] theorem State.emit_trace (e : Event) (s : State) : (s.emit e).trace = s.trace ++ [e] := rfl
@[simp] theorem State.emit_requests (e : Event) (s : State) : (s.emit e).requests = s.requests := rfl
@[simp] theorem State.emit_laterRequests (e : Event) (s : State) : (s.emit e).laterRequests = s.laterRequests := rfl
@[simp] theorem State.emit_env (e : Event) (s : State) : (s.emit e).env = s.env := rfl
@[simp] theorem State.readClock_cfg (s : State) : (s.readClock).cfg = s.cfg := rfl
@[simp] theorem State.readClock_msg (s : State) : (s.readClock).msg = s.msg := rfl
@[simp] theorem State.readClock_adc (s : State) : (s.readClock).adc = s.adc := rfl
@[simp] theorem State.readClock_cs (s : State) : (s.readClock).cs = s.cs := rfl
@[simp] theorem State.readClock_todo (s : State) : (s.readClock).todo = s.todo := rfl
@[simp] theorem State.readClock_rx (s : State) : (s.readClock).rx = s.rx := rfl
@[simp] theorem State.readClock_response (s : State) : (s.readClock).response = s.response := rfl
@[simp] theorem State.readClock_trace (s : State) : (s.readClock).trace = s.trace ++ [.clock s.env.clockAnswer.1 s.env.clockAnswer.2] := rfl
@[simp] theorem State.readClock_requests (s : State) : (s.readClock).requests = s.requests := rfl
@[simp] theorem State.readClock_laterRequests (s : State) : (s.readClock).laterRequests = s.laterRequests := rfl
@[simp] theorem State.readClock_env (s : State) : (s.readClock).env = s.env.takeClock := rfl
@[simp] theorem State.xfer_cfg (tx : Byte) (keep : Bool) (s : State) : (s.xfer tx keep).cfg = s.cfg := rfl
@[simp] theorem State.xfer_msg (tx : Byte) (keep : Bool) (s : State) : (s.xfer tx keep).msg = s.msg := rfl
@[simp] theorem State.xfer_adc (tx : Byte) (keep : Bool) (s : State) : (s.xfer tx keep).adc = s.adc := rfl
@[simp] theorem State.xfer_cs (tx : Byte) (keep : Bool) (s : State) : (s.xfer tx keep).cs = s.cs := rfl
@[simp] theorem State.xfer_todo (tx : Byte) (keep : Bool) (s : State) : (s.xfer tx keep).todo = s.todo := rfl
@[simp] theorem State.xfer_rx (tx : Byte) (keep : Bool) (s : State) : (s.xfer tx keep).rx = (if keep then s.rx ++ [s.env.busAnswerAt 0] else s.rx) := rfl
@[simp] theorem State.xfer_response (tx : Byte) (keep : Bool) (s : State) : (s.xfer tx keep).response = s.response := rfl
@[simp] theorem State.xfer_trace (tx : Byte) (keep : Bool) (s : State) : (s.xfer tx keep).trace = s.trace ++ [.xfer tx (s.env.busAnswerAt 0)] := rfl
@[simp] theorem State.xfer_requests (tx : Byte) (keep : Bool) (s : State) : (s.xfer tx keep).requests = s.requests := rfl
@[simp] theorem State.xfer_laterRequests (tx : Byte) (keep : Bool) (s : State) : (s.xfer tx keep).laterRequests = s.laterRequests := rfl
@[simp] theorem State.xfer_env (tx : Byte) (keep : Bool) (s : State) : (s.xfer tx keep).env = s.env.takeBus := rfl

/-! Reset (R310, R311) -/

@[simp] theorem State.applyReset_cfg (s : State) : (s.applyReset).cfg = s.cfg := rfl
@[simp] theorem State.applyReset_msg (s : State) : (s.applyReset).msg = Msg.reset := rfl
@[simp] theorem State.applyReset_adc (s : State) : (s.applyReset).adc = Adc.reset := rfl
@[simp] theorem State.applyReset_cs (s : State) : (s.applyReset).cs = s.cs := rfl
@[simp] theorem State.applyReset_todo (s : State) : (s.applyReset).todo = [] := rfl
@[simp] theorem State.applyReset_rx (s : State) : (s.applyReset).rx = [] := rfl
@[simp] theorem State.applyReset_response (s : State) : (s.applyReset).response = none := rfl
@[simp] theorem State.applyReset_trace (s : State) : (s.applyReset).trace = s.trace := rfl
@[simp] theorem State.applyReset_requests (s : State) : (s.applyReset).requests = s.requests := rfl
@[simp] theorem State.applyReset_laterRequests (s : State) : (s.applyReset).laterRequests = s.laterRequests := rfl
@[simp] theorem State.applyReset_env (s : State) : (s.applyReset).env = s.env := rfl

/-! The schedule and the requests (R72, R73) -/

@[simp] theorem State.tick_cfg (s : State) : (s.tick).cfg = s.cfg := rfl
@[simp] theorem State.tick_msg (s : State) : (s.tick).msg = s.msg := rfl
@[simp] theorem State.tick_adc (s : State) : (s.tick).adc = (if s.env.moveAt 0 = .edge then s.adc.drdyEdge else s.adc) := rfl
@[simp] theorem State.tick_cs (s : State) : (s.tick).cs = s.cs := rfl
@[simp] theorem State.tick_todo (s : State) : (s.tick).todo = s.todo := rfl
@[simp] theorem State.tick_rx (s : State) : (s.tick).rx = s.rx := rfl
@[simp] theorem State.tick_response (s : State) : (s.tick).response = s.response := rfl
@[simp] theorem State.tick_trace (s : State) : (s.tick).trace = s.trace := rfl
@[simp] theorem State.tick_requests (s : State) : (s.tick).requests = s.requests := rfl
@[simp] theorem State.tick_laterRequests (s : State) : (s.tick).laterRequests = s.laterRequests := rfl
@[simp] theorem State.tick_env (s : State) : (s.tick).env = s.env.dropMove := rfl
@[simp] theorem State.takeRequest_cfg (s : State) : s.takeRequest.cfg = s.cfg := by unfold State.takeRequest; split <;> rfl
@[simp] theorem State.takeRequest_msg (s : State) : s.takeRequest.msg = s.msg := by unfold State.takeRequest; split <;> rfl
@[simp] theorem State.takeRequest_adc (s : State) : s.takeRequest.adc = s.adc := by unfold State.takeRequest; split <;> rfl
@[simp] theorem State.takeRequest_cs (s : State) : s.takeRequest.cs = s.cs := by unfold State.takeRequest; split <;> rfl
@[simp] theorem State.takeRequest_todo (s : State) : s.takeRequest.todo = s.todo := by unfold State.takeRequest; split <;> rfl
@[simp] theorem State.takeRequest_rx (s : State) : s.takeRequest.rx = s.rx := by unfold State.takeRequest; split <;> rfl
@[simp] theorem State.takeRequest_response (s : State) : s.takeRequest.response = s.response := by unfold State.takeRequest; split <;> rfl
@[simp] theorem State.takeRequest_trace (s : State) : s.takeRequest.trace = s.trace := by unfold State.takeRequest; split <;> rfl
@[simp] theorem State.takeRequest_env (s : State) : s.takeRequest.env = s.env := by unfold State.takeRequest; split <;> rfl
@[simp] theorem Env.dropMove_busIn (e : Env) : e.dropMove.busIn = e.busIn := by unfold Env.dropMove; split <;> rfl
@[simp] theorem Env.dropMove_busDraws (e : Env) : e.dropMove.busDraws = e.busDraws := by unfold Env.dropMove; split <;> rfl
@[simp] theorem Env.dropMove_clockIn (e : Env) : e.dropMove.clockIn = e.clockIn := by unfold Env.dropMove; split <;> rfl
@[simp] theorem Env.dropMove_clockDraws (e : Env) : e.dropMove.clockDraws = e.clockDraws := by unfold Env.dropMove; split <;> rfl


theorem Later.nth_drop {α : Type} (free : Nat → α) (l : Later α) (k : Nat) : l.drop.nth free k = l.nth free (k + 1) := by
  cases l with
  | always a => rfl
  | free n => exact congrArg free (by omega)

/-- Past a point of the schedule every later one is a place nearer. -/
@[simp] theorem Env.moveAt_dropMove (e : Env) (k : Nat) : e.dropMove.moveAt k = e.moveAt (k + 1) := by
  obtain ⟨sched, later, busIn, busDraws, clockIn, clockDraws⟩ := e
  cases sched with
  | nil => exact Later.nth_drop _ _ _
  | cons m ms => simp [Env.dropMove, Env.moveAt]

/-- The point put in front of a schedule is the next. -/
@[simp] theorem Env.moveAt_cons_zero (e : Env) (m : Move) (ms : List Move) :
    Env.moveAt { e with sched := m :: ms } 0 = m := rfl

/-- A point put in front of a schedule passes and leaves it as it was. -/
@[simp] theorem Env.dropMove_cons (e : Env) (m : Move) (ms : List Move) :
    Env.dropMove { e with sched := m :: ms } = { e with sched := ms } := rfl

/-- The requests the host lists are issued before any other. -/
theorem State.nextRequest_cons {s : State} {bytes : List Byte} {rs : List (List Byte)} (h : s.requests = bytes :: rs) :
    s.nextRequest = some bytes := by
  simp [State.nextRequest, h]

theorem State.takeRequest_cons {s : State} {bytes : List Byte} {rs : List (List Byte)} (h : s.requests = bytes :: rs) :
    s.takeRequest = { s with requests := rs } := by
  simp [State.takeRequest, h]

/-- With none listed, the host's next move is the first of those after the list. -/
theorem State.nextRequest_nil {s : State} (h : s.requests = []) :
    s.nextRequest = s.laterRequests.nth Config.request 0 := by
  simp [State.nextRequest, h]

theorem State.takeRequest_nil {s : State} (h : s.requests = []) :
    s.takeRequest = { s with laterRequests := s.laterRequests.drop } := by
  simp [State.takeRequest, h]

/-! The TX message object (R21) -/

@[simp] theorem Msg.configure_topic (topic command : Byte) (payload : List Byte) (m : Msg) : (m.configure topic command payload).topic = topic.setWidth 6 := rfl
@[simp] theorem Msg.configure_cmd (topic command : Byte) (payload : List Byte) (m : Msg) : (m.configure topic command payload).cmd = command.setWidth 4 := rfl
@[simp] theorem Msg.configure_dlen (topic command : Byte) (payload : List Byte) (m : Msg) : (m.configure topic command payload).dlen = BitVec.ofNat 11 payload.length := rfl
@[simp] theorem Msg.configure_payload (topic command : Byte) (payload : List Byte) (m : Msg) : (m.configure topic command payload).payload = payload := rfl
@[simp] theorem Msg.configure_ms (topic command : Byte) (payload : List Byte) (m : Msg) : (m.configure topic command payload).ms = none := rfl
@[simp] theorem Msg.configure_hdr (topic command : Byte) (payload : List Byte) (m : Msg) : (m.configure topic command payload).hdr = none := rfl
@[simp] theorem Msg.configure_csum (topic command : Byte) (payload : List Byte) (m : Msg) : (m.configure topic command payload).csum = none := rfl
@[simp] theorem Msg.configure_pkt (topic command : Byte) (payload : List Byte) (m : Msg) : (m.configure topic command payload).pkt = none := rfl
@[simp] theorem Msg.configure_phase (topic command : Byte) (payload : List Byte) (m : Msg) : (m.configure topic command payload).phase = .configured := rfl
@[simp] theorem Msg.stamp_topic (v : Nat) (m : Msg) : (m.stamp v).topic = m.topic := rfl
@[simp] theorem Msg.stamp_cmd (v : Nat) (m : Msg) : (m.stamp v).cmd = m.cmd := rfl
@[simp] theorem Msg.stamp_dlen (v : Nat) (m : Msg) : (m.stamp v).dlen = m.dlen := rfl
@[simp] theorem Msg.stamp_payload (v : Nat) (m : Msg) : (m.stamp v).payload = m.payload := rfl
@[simp] theorem Msg.stamp_ms (v : Nat) (m : Msg) : (m.stamp v).ms = some (BitVec.ofNat 27 v) := rfl
@[simp] theorem Msg.stamp_hdr (v : Nat) (m : Msg) : (m.stamp v).hdr = none := rfl
@[simp] theorem Msg.stamp_csum (v : Nat) (m : Msg) : (m.stamp v).csum = none := rfl
@[simp] theorem Msg.stamp_pkt (v : Nat) (m : Msg) : (m.stamp v).pkt = none := rfl
@[simp] theorem Msg.stamp_phase (v : Nat) (m : Msg) : (m.stamp v).phase = .stamped := rfl
@[simp] theorem Msg.packHeader_topic (h : Hdr) (m : Msg) : (m.packHeader h).topic = m.topic := rfl
@[simp] theorem Msg.packHeader_cmd (h : Hdr) (m : Msg) : (m.packHeader h).cmd = m.cmd := rfl
@[simp] theorem Msg.packHeader_dlen (h : Hdr) (m : Msg) : (m.packHeader h).dlen = m.dlen := rfl
@[simp] theorem Msg.packHeader_payload (h : Hdr) (m : Msg) : (m.packHeader h).payload = m.payload := rfl
@[simp] theorem Msg.packHeader_ms (h : Hdr) (m : Msg) : (m.packHeader h).ms = m.ms := rfl
@[simp] theorem Msg.packHeader_hdr (h : Hdr) (m : Msg) : (m.packHeader h).hdr = some h := rfl
@[simp] theorem Msg.packHeader_csum (h : Hdr) (m : Msg) : (m.packHeader h).csum = none := rfl
@[simp] theorem Msg.packHeader_pkt (h : Hdr) (m : Msg) : (m.packHeader h).pkt = none := rfl
@[simp] theorem Msg.packHeader_phase (h : Hdr) (m : Msg) : (m.packHeader h).phase = .headerPacked := rfl
@[simp] theorem Msg.finalize_topic (c : BitVec 16) (p : List Byte) (m : Msg) : (m.finalize c p).topic = m.topic := rfl
@[simp] theorem Msg.finalize_cmd (c : BitVec 16) (p : List Byte) (m : Msg) : (m.finalize c p).cmd = m.cmd := rfl
@[simp] theorem Msg.finalize_dlen (c : BitVec 16) (p : List Byte) (m : Msg) : (m.finalize c p).dlen = m.dlen := rfl
@[simp] theorem Msg.finalize_payload (c : BitVec 16) (p : List Byte) (m : Msg) : (m.finalize c p).payload = m.payload := rfl
@[simp] theorem Msg.finalize_ms (c : BitVec 16) (p : List Byte) (m : Msg) : (m.finalize c p).ms = m.ms := rfl
@[simp] theorem Msg.finalize_hdr (c : BitVec 16) (p : List Byte) (m : Msg) : (m.finalize c p).hdr = m.hdr := rfl
@[simp] theorem Msg.finalize_csum (c : BitVec 16) (p : List Byte) (m : Msg) : (m.finalize c p).csum = some c := rfl
@[simp] theorem Msg.finalize_pkt (c : BitVec 16) (p : List Byte) (m : Msg) : (m.finalize c p).pkt = some p := rfl
@[simp] theorem Msg.finalize_phase (c : BitVec 16) (p : List Byte) (m : Msg) : (m.finalize c p).phase = .finalized := rfl

/-! The ADC device state (R32) -/

@[simp] theorem Adc.clearDrdy_shStatus (a : Adc) : (a.clearDrdy).shStatus = a.shStatus := rfl
@[simp] theorem Adc.clearDrdy_shMux (a : Adc) : (a.clearDrdy).shMux = a.shMux := rfl
@[simp] theorem Adc.clearDrdy_shAdcon (a : Adc) : (a.clearDrdy).shAdcon = a.shAdcon := rfl
@[simp] theorem Adc.clearDrdy_shDrate (a : Adc) : (a.clearDrdy).shDrate = a.shDrate := rfl
@[simp] theorem Adc.clearDrdy_shIo (a : Adc) : (a.clearDrdy).shIo = a.shIo := rfl
@[simp] theorem Adc.clearDrdy_pga (a : Adc) : (a.clearDrdy).pga = a.pga := rfl
@[simp] theorem Adc.clearDrdy_running (a : Adc) : (a.clearDrdy).running = a.running := rfl
@[simp] theorem Adc.clearDrdy_cycle (a : Adc) : (a.clearDrdy).cycle = a.cycle := rfl
@[simp] theorem Adc.clearDrdy_drdyFlag (a : Adc) : (a.clearDrdy).drdyFlag = false := rfl
@[simp] theorem Adc.clearDrdy_irqEn (a : Adc) : (a.clearDrdy).irqEn = a.irqEn := rfl
@[simp] theorem Adc.drdyEdge_shStatus (a : Adc) : a.drdyEdge.shStatus = a.shStatus := by unfold Adc.drdyEdge; split <;> rfl
@[simp] theorem Adc.drdyEdge_shMux (a : Adc) : a.drdyEdge.shMux = a.shMux := by unfold Adc.drdyEdge; split <;> rfl
@[simp] theorem Adc.drdyEdge_shAdcon (a : Adc) : a.drdyEdge.shAdcon = a.shAdcon := by unfold Adc.drdyEdge; split <;> rfl
@[simp] theorem Adc.drdyEdge_shDrate (a : Adc) : a.drdyEdge.shDrate = a.shDrate := by unfold Adc.drdyEdge; split <;> rfl
@[simp] theorem Adc.drdyEdge_shIo (a : Adc) : a.drdyEdge.shIo = a.shIo := by unfold Adc.drdyEdge; split <;> rfl
@[simp] theorem Adc.drdyEdge_pga (a : Adc) : a.drdyEdge.pga = a.pga := by unfold Adc.drdyEdge; split <;> rfl
@[simp] theorem Adc.drdyEdge_running (a : Adc) : a.drdyEdge.running = a.running := by unfold Adc.drdyEdge; split <;> rfl
@[simp] theorem Adc.drdyEdge_cycle (a : Adc) : a.drdyEdge.cycle = a.cycle := by unfold Adc.drdyEdge; split <;> rfl
@[simp] theorem Adc.drdyEdge_irqEn (a : Adc) : a.drdyEdge.irqEn = a.irqEn := by unfold Adc.drdyEdge; split <;> rfl
@[simp] theorem Adc.drdyEdge_drdyFlag (a : Adc) : a.drdyEdge.drdyFlag = (a.drdyFlag || a.irqEn) := by
  unfold Adc.drdyEdge; split <;> simp_all
/-- An edge leaves no trace behind the clear that consumes it (R281). -/
@[simp] theorem Adc.drdyEdge_clearDrdy (a : Adc) : a.drdyEdge.clearDrdy = a.clearDrdy := by
  unfold Adc.drdyEdge; split <;> rfl
/-- Without the handler an edge leaves no trace (R282). -/
theorem Adc.drdyEdge_of_disabled {a : Adc} (h : a.irqEn = false) : a.drdyEdge = a := by simp [Adc.drdyEdge, h]
/-- An edge while the flag is set leaves it set, and nothing else happens (R281). -/
theorem Adc.drdyEdge_of_set {a : Adc} (h : a.drdyFlag = true) : a.drdyEdge = a := by
  unfold Adc.drdyEdge
  split
  · rw [← h]
  · rfl
@[simp] theorem Adc.setShadow_pga (a : Adc) (r : Reg) (v : Byte) : (a.setShadow r v).pga = a.pga := by cases r <;> rfl
@[simp] theorem Adc.setShadow_running (a : Adc) (r : Reg) (v : Byte) : (a.setShadow r v).running = a.running := by cases r <;> rfl
@[simp] theorem Adc.setShadow_cycle (a : Adc) (r : Reg) (v : Byte) : (a.setShadow r v).cycle = a.cycle := by cases r <;> rfl
@[simp] theorem Adc.setShadow_drdyFlag (a : Adc) (r : Reg) (v : Byte) : (a.setShadow r v).drdyFlag = a.drdyFlag := by cases r <;> rfl
@[simp] theorem Adc.setShadow_irqEn (a : Adc) (r : Reg) (v : Byte) : (a.setShadow r v).irqEn = a.irqEn := by cases r <;> rfl
@[simp] theorem Adc.setShadow_shadow_self (a : Adc) (r : Reg) (v : Byte) : (a.setShadow r v).shadow r = some v := by
  cases r <;> rfl
theorem Adc.setShadow_shadow_ne (a : Adc) {r q : Reg} (v : Byte) (h : q ≠ r) : (a.setShadow r v).shadow q = a.shadow q := by
  cases r <;> cases q <;> first | rfl | exact absurd rfl h

/-! Draws (R67) -/

@[simp] theorem Env.takeBus_sched (e : Env) : e.takeBus.sched = e.sched := by unfold Env.takeBus; split <;> rfl
@[simp] theorem Env.takeBus_later (e : Env) : e.takeBus.later = e.later := by unfold Env.takeBus; split <;> rfl
@[simp] theorem Env.takeBus_clockIn (e : Env) : e.takeBus.clockIn = e.clockIn := by unfold Env.takeBus; split <;> rfl
@[simp] theorem Env.takeBus_clockDraws (e : Env) : e.takeBus.clockDraws = e.clockDraws := by
  unfold Env.takeBus; split <;> rfl
@[simp] theorem Env.takeClock_sched (e : Env) : e.takeClock.sched = e.sched := by unfold Env.takeClock; split <;> rfl
@[simp] theorem Env.takeClock_later (e : Env) : e.takeClock.later = e.later := by unfold Env.takeClock; split <;> rfl
@[simp] theorem Env.takeClock_busIn (e : Env) : e.takeClock.busIn = e.busIn := by unfold Env.takeClock; split <;> rfl
@[simp] theorem Env.takeClock_busDraws (e : Env) : e.takeClock.busDraws = e.busDraws := by
  unfold Env.takeClock; split <;> rfl

@[simp] theorem Env.moveAt_takeBus (e : Env) (k : Nat) : e.takeBus.moveAt k = e.moveAt k := by
  simp [Env.moveAt]
@[simp] theorem Env.moveAt_takeClock (e : Env) (k : Nat) : e.takeClock.moveAt k = e.moveAt k := by
  simp [Env.moveAt]

/-- Taking one bus answer moves every later one a place forward. -/
@[simp] theorem Env.takeBus_busAnswerAt (e : Env) (k : Nat) : e.takeBus.busAnswerAt k = e.busAnswerAt (k + 1) := by
  obtain ⟨sched, later, busIn, busDraws, clockIn, clockDraws⟩ := e
  cases busIn with
  | nil => simp [Env.takeBus, Env.busAnswerAt]; congr 1; omega
  | cons b bs =>
    simp only [Env.takeBus, Env.busAnswerAt, List.getElem?_cons_succ, List.length_cons]
    split <;> simp_all

end Sys2Proof.Machine
end

