-- ==== Sys2Proof/Laws/Run.lean ====
section
/-! SUPPORT. What running an action list can do, said once: what it keeps, when it ends, and that its effect, timing apart, is
the effect of its actions in order. -/

namespace Sys2Proof.Machine

/-! The points of the schedule -/

@[simp] theorem State.givenEdge_cfg (s : State) : s.givenEdge.cfg = s.cfg := rfl
@[simp] theorem State.givenEdge_msg (s : State) : s.givenEdge.msg = s.msg := rfl
@[simp] theorem State.givenEdge_adc (s : State) : s.givenEdge.adc = s.adc := rfl
@[simp] theorem State.givenEdge_cs (s : State) : s.givenEdge.cs = s.cs := rfl
@[simp] theorem State.givenEdge_todo (s : State) : s.givenEdge.todo = s.todo := rfl
@[simp] theorem State.givenEdge_rx (s : State) : s.givenEdge.rx = s.rx := rfl
@[simp] theorem State.givenEdge_response (s : State) : s.givenEdge.response = s.response := rfl
@[simp] theorem State.givenEdge_trace (s : State) : s.givenEdge.trace = s.trace := rfl
@[simp] theorem State.givenEdge_requests (s : State) : s.givenEdge.requests = s.requests := rfl
@[simp] theorem State.givenEdge_laterRequests (s : State) : s.givenEdge.laterRequests = s.laterRequests := rfl
@[simp] theorem givenEdge_moveAt_zero (s : State) : s.givenEdge.env.moveAt 0 = .edge := rfl
@[simp] theorem givenEdge_dropMove (s : State) : s.givenEdge.env.dropMove = s.env := rfl

@[simp] theorem run_nil (s : State) : run [] s = { s with todo := [], rx := [] } := rfl

theorem run_cons (a : Action) (as : List Action) (s : State) :
    run (a :: as) s =
      if s.env.moveAt 0 = .reset then s.tick.applyReset
      else if a = .waitDrdy ∧ s.tick.adc.drdyFlag = false then { s.tick with todo := a :: as }
      else run as (s.tick.act a) := rfl

@[simp] theorem tick_moveAt (s : State) (k : Nat) : s.tick.env.moveAt k = s.env.moveAt (k + 1) := by simp

/-- After a point of the schedule the flag is set when it was, or when an edge came there and the handler is installed
(R280). -/
theorem tick_drdyFlag (s : State) :
    s.tick.adc.drdyFlag = true ↔ s.adc.drdyFlag = true ∨ s.adc.irqEn = true ∧ s.env.moveAt 0 = .edge := by
  simp only [State.tick_adc]
  split <;> simp [*]

/-- A point of the schedule that sets no flag leaves the device state alone. -/
theorem tick_adc_of_clear {s : State} (h : s.tick.adc.drdyFlag = false) : s.tick.adc = s.adc := by
  simp only [State.tick_adc] at h ⊢
  split at h
  · rename_i hm
    rw [if_pos hm]
    exact Adc.drdyEdge_of_disabled (by simp_all)
  · rename_i hm
    rw [if_neg hm]

/-- The clear that ends a hold leaves the device state as before it, the flag clear. -/
theorem tick_clearDrdy (s : State) : s.tick.adc.clearDrdy = s.adc.clearDrdy := by
  simp only [State.tick_adc]
  split <;> simp

theorem noReset_tick {s : State} (h : s.NoReset) : s.tick.NoReset := fun k => by
  rw [tick_moveAt]
  exact h _

/-! What every run keeps -/

@[simp] theorem act_cfg (a : Action) (s : State) : (s.act a).cfg = s.cfg := by cases a <;> rfl
@[simp] theorem act_msg (a : Action) (s : State) : (s.act a).msg = s.msg := by cases a <;> rfl
@[simp] theorem act_requests (a : Action) (s : State) : (s.act a).requests = s.requests := by cases a <;> rfl
@[simp] theorem act_laterRequests (a : Action) (s : State) : (s.act a).laterRequests = s.laterRequests := by
  cases a <;> rfl
@[simp] theorem act_todo (a : Action) (s : State) : (s.act a).todo = s.todo := by cases a <;> rfl
@[simp] theorem act_moveAt (a : Action) (s : State) (k : Nat) : (s.act a).env.moveAt k = s.env.moveAt k := by
  cases a <;> first | rfl | exact Env.moveAt_takeBus _ _
theorem act_drdyFlag {a : Action} (ha : a ≠ .waitDrdy) (s : State) : (s.act a).adc.drdyFlag = s.adc.drdyFlag := by
  cases a <;> first | rfl | exact Adc.setShadow_drdyFlag _ _ _ | exact absurd rfl ha
theorem act_irqEn (a : Action) (s : State) (h : s.adc.irqEn = true) : (s.act a).adc.irqEn = true := by
  cases a <;> first | exact h | rfl | exact (Adc.setShadow_irqEn _ _ _).trans h
theorem act_response {a : Action} (ha : ∀ e, a ≠ .finish e) (s : State) : (s.act a).response = s.response := by
  cases a <;> first | rfl | exact absurd rfl (ha _)

theorem noReset_act {s : State} (a : Action) (h : s.NoReset) : (s.act a).NoReset := fun k => by
  rw [act_moveAt]
  exact h k

/-- A property that every part of a run keeps is kept by the run. -/
theorem run_preserves {P : State → Prop} (acts : List Action)
    (tick : ∀ s, P s → P s.tick) (act : ∀ a s, a ∈ acts → P s → P (s.act a))
    (held : ∀ as s, Action.waitDrdy :: as <:+ acts → P s → P { s with todo := .waitDrdy :: as })
    (idle : ∀ s, P s → P { s with todo := [], rx := [] }) (reset : ∀ s, P s → P s.applyReset) :
    ∀ s, P s → P (run acts s) := by
  induction acts with
  | nil => exact idle
  | cons a as ih =>
    intro s hs
    rw [run_cons]
    split
    · exact reset _ (tick _ hs)
    · split
      · rename_i ha
        rw [ha.1]
        exact held _ _ (ha.1 ▸ List.suffix_refl _) (tick _ hs)
      · exact ih (fun b s hb => act b s (List.mem_cons_of_mem _ hb))
          (fun bs s hb => held bs s (hb.trans (List.suffix_cons _ _))) _ (act _ _ List.mem_cons_self (tick _ hs))

/-- A property that every part of a run keeps is kept by a run without a reset, and so is the absence of resets. -/
theorem run_preserves_noReset {P : State → Prop} (acts : List Action)
    (tick : ∀ s, P s → P s.tick) (act : ∀ a s, a ∈ acts → P s → P (s.act a))
    (held : ∀ as s, Action.waitDrdy :: as <:+ acts → P s → P { s with todo := .waitDrdy :: as })
    (idle : ∀ s, P s → P { s with todo := [], rx := [] }) :
    ∀ s : State, s.NoReset → P s → P (run acts s) ∧ (run acts s).NoReset := by
  induction acts with
  | nil => exact fun s hr hs => ⟨idle s hs, hr⟩
  | cons a as ih =>
    intro s hr hs
    rw [run_cons, if_neg (hr 0)]
    split
    · rename_i ha
      rw [ha.1]
      exact ⟨held _ _ (ha.1 ▸ List.suffix_refl _) (tick _ hs), noReset_tick hr⟩
    · exact ih (fun b s hb => act b s (List.mem_cons_of_mem _ hb))
        (fun bs s hb => held bs s (hb.trans (List.suffix_cons _ _))) _ (noReset_act _ (noReset_tick hr))
        (act _ _ List.mem_cons_self (tick _ hs))

/-- No operation changes the configuration record (R33, R311). -/
theorem run_cfg (acts : List Action) (s : State) : (run acts s).cfg = s.cfg :=
  run_preserves (P := fun t => t.cfg = s.cfg) acts (fun _ h => h) (fun _ _ _ h => (act_cfg _ _).trans h)
    (fun _ _ _ h => h) (fun _ h => h) (fun _ h => h) s rfl

/-- An operation in progress leaves the host's later requests alone (R72). -/
theorem run_requests (acts : List Action) (s : State) :
    (run acts s).requests = s.requests ∧ (run acts s).laterRequests = s.laterRequests :=
  run_preserves (P := fun t => t.requests = s.requests ∧ t.laterRequests = s.laterRequests) acts (fun _ h => h)
    (fun _ _ _ h => by simpa using h) (fun _ _ _ h => h) (fun _ h => h) (fun _ h => h) s ⟨rfl, rfl⟩

/-- A run leaves the TX message object alone, unless a reset abandons it (R72, R310). -/
theorem run_msg (acts : List Action) (s : State) : (run acts s).msg = s.msg ∨ (run acts s).msg = Msg.reset :=
  run_preserves (P := fun t => t.msg = s.msg ∨ t.msg = Msg.reset) acts (fun _ h => h)
    (fun _ _ _ h => by simpa using h) (fun _ _ _ h => h) (fun _ h => h) (fun _ _ => .inr rfl) s (.inl rfl)

/-- Without a reset a run leaves the TX message object alone (R72). -/
theorem run_msg_noReset (acts : List Action) {s : State} (hr : s.NoReset) : (run acts s).msg = s.msg :=
  (run_preserves_noReset (P := fun t => t.msg = s.msg) acts (fun _ h => h) (fun _ _ _ h => (act_msg _ _).trans h)
    (fun _ _ _ h => h) (fun _ h => h) s hr rfl).1

/-- A run brings no reset on. -/
theorem run_noReset (acts : List Action) {s : State} (hr : s.NoReset) : (run acts s).NoReset :=
  (run_preserves_noReset (P := fun _ => True) acts (fun _ h => h) (fun _ _ _ h => h) (fun _ _ _ h => h) (fun _ h => h) s hr
    trivial).2

/-- Without a reset a run leaves the handler installed (R282). -/
theorem run_irqEn (acts : List Action) {s : State} (hr : s.NoReset) (hi : s.adc.irqEn = true) :
    (run acts s).adc.irqEn = true :=
  (run_preserves_noReset (P := fun t => t.adc.irqEn = true) acts
    (fun _ h => by simp only [State.tick_adc]; split <;> simpa using h) (fun a _ _ h => act_irqEn a _ h) (fun _ _ _ h => h)
    (fun _ h => h) s hr hi).1

/-- Where a schedule has one move at every point, it has it at every point after a run. -/
theorem run_moveAt {acts : List Action} {m : Move} {s : State} (hm : m ≠ .reset) (h : ∀ k, s.env.moveAt k = m) (k : Nat) :
    (run acts s).env.moveAt k = m :=
  (run_preserves_noReset (P := fun t => ∀ k, t.env.moveAt k = m) acts (fun _ h k => (tick_moveAt _ k).trans (h _))
    (fun a _ _ h k => (act_moveAt a _ k).trans (h k)) (fun _ _ _ h => h) (fun _ h => h) s (fun k => by rwa [h]) h).1 k

/-- Without an edge to come a clear flag stays clear. -/
theorem run_flag_clear {acts : List Action} {s : State} (h : ∀ k, s.env.moveAt k = .quiet) (hf : s.adc.drdyFlag = false) :
    (run acts s).adc.drdyFlag = false := by
  refine ((run_preserves_noReset (P := fun t => (∀ k, t.env.moveAt k = .quiet) ∧ t.adc.drdyFlag = false) acts
    (fun s ⟨h, hf⟩ => ⟨fun k => (tick_moveAt _ k).trans (h _), by simp [h, hf]⟩) (fun a s _ ⟨h, hf⟩ => ?_)
    (fun _ _ _ h => h) (fun _ h => h) s (fun k => by rw [h]; decide) ⟨h, hf⟩).1).2
  refine ⟨fun k => (act_moveAt a s k).trans (h k), ?_⟩
  by_cases ha : a = .waitDrdy
  · subst ha; rfl
  · rwa [act_drdyFlag ha]

/-- A run leaves the main agent idle, or held with a rest of the actions still to run (R45). -/
theorem run_todo (acts : List Action) (s : State) :
    (run acts s).todo = [] ∨ ∃ as, (run acts s).todo = .waitDrdy :: as ∧ .waitDrdy :: as <:+ acts := by
  induction acts generalizing s with
  | nil => exact .inl rfl
  | cons a as ih =>
    rw [run_cons]
    split
    · exact .inl rfl
    · split
      · rename_i ha
        exact .inr ⟨as, by rw [ha.1], ha.1 ▸ List.suffix_refl _⟩
      · exact (ih _).imp id fun ⟨bs, h1, h2⟩ => ⟨bs, h1, h2.trans (List.suffix_cons _ _)⟩

/-- A run that leaves the main agent held leaves the flag clear (R200). -/
theorem run_held_flag {acts : List Action} {s : State} (h : (run acts s).todo ≠ []) :
    (run acts s).adc.drdyFlag = false := by
  induction acts generalizing s with
  | nil => exact absurd rfl h
  | cons a as ih =>
    rw [run_cons] at h ⊢
    split at h
    · exact absurd rfl h
    · split at h
      · rename_i hr ha
        rw [if_neg hr, if_pos ha]
        exact ha.2
      · rename_i hr ha
        rw [if_neg hr, if_neg ha]
        exact ih h

/-! When a run ends, and with what effect -/

/-- The effect of an action list, holds and schedule apart: its actions in order, then idle. -/
def effect (acts : List Action) (s : State) : State :=
  { acts.foldl (fun t a => t.act a) s with todo := [], rx := [] }

theorem effect_cons (a : Action) (as : List Action) (s : State) : effect (a :: as) s = effect as (s.act a) := rfl

theorem untimed_tick (s : State) : s.tick.untimed = s.untimed := by
  obtain ⟨cfg, msg, adc, cs, todo, rx, response, trace, requests, laterRequests, sched, later, busIn, busDraws, clockIn,
    clockDraws⟩ := s
  simp only [State.tick, State.untimed, Env.dropMove, Adc.drdyEdge]
  cases sched <;> split <;> (try split) <;> rfl

/-! What two states have in common that differ in timing alone -/

section
variable {s t : State} (h : s.untimed = t.untimed)
include h

theorem todo_of_untimed : s.todo = t.todo := (congrArg State.todo h :)
theorem response_of_untimed : s.response = t.response := (congrArg State.response h :)
theorem cs_of_untimed : s.cs = t.cs := (congrArg State.cs h :)
theorem running_of_untimed : s.adc.running = t.adc.running := (congrArg (fun u : State => u.adc.running) h :)
theorem cycle_of_untimed : s.adc.cycle = t.adc.cycle := (congrArg (fun u : State => u.adc.cycle) h :)
theorem irqEn_of_untimed : s.adc.irqEn = t.adc.irqEn := (congrArg (fun u : State => u.adc.irqEn) h :)

end

theorem untimed_givenEdge (s : State) : s.givenEdge.untimed = s.untimed := rfl

theorem untimed_act_untimed (a : Action) (s : State) : (s.untimed.act a).untimed = (s.act a).untimed := by
  cases a with
  | setShadow r v => cases r <;> rfl
  | xfer tx keep =>
    obtain ⟨cfg, msg, adc, cs, todo, rx, response, trace, requests, laterRequests, sched, later, busIn, busDraws, clockIn,
      clockDraws⟩ := s
    cases busIn <;> cases keep <;> rfl
  | _ => rfl

theorem untimed_act_congr (a : Action) {s t : State} (h : s.untimed = t.untimed) :
    (s.act a).untimed = (t.act a).untimed := by
  rw [← untimed_act_untimed a s, ← untimed_act_untimed a t, h]

theorem untimed_effect_congr (acts : List Action) {s t : State} (h : s.untimed = t.untimed) :
    (effect acts s).untimed = (effect acts t).untimed := by
  induction acts generalizing s t with
  | nil => exact congrArg (fun u : State => { u with todo := [], rx := [] }) h
  | cons a as ih => exact ih (untimed_act_congr a h)

theorem act_withTodo (a : Action) (as : List Action) (s : State) :
    State.act a { s with todo := as } = { s.act a with todo := as } := by
  cases a <;> rfl

/-- Which actions were still to run does not show in an effect. -/
theorem effect_withTodo (acts as : List Action) (s : State) : effect acts { s with todo := as } = effect acts s := by
  induction acts generalizing s with
  | nil => rfl
  | cons a acts ih => rw [effect_cons, act_withTodo, ih, effect_cons]

/-- One more action in front, which does not hold the main agent, when no reset is due: the run goes on behind it. -/
theorem run_passes {a : Action} {as : List Action} {s : State} (hr : s.NoReset)
    (ha : a ≠ .waitDrdy ∨ s.tick.adc.drdyFlag = true) : run (a :: as) s = run as (s.tick.act a) := by
  rw [run_cons, if_neg (hr 0), if_neg]
  rintro ⟨h1, h2⟩
  exact ha.elim (· h1) fun h => absurd (h.symm.trans h2) (by decide)

/-- A hold in front that does not pass, when no reset is due: one point of the schedule passes, and nothing else happens. -/
theorem run_holds {as : List Action} {s : State} (hr : s.NoReset) (hf : s.tick.adc.drdyFlag = false) :
    run (.waitDrdy :: as) s = { s.tick with todo := .waitDrdy :: as } := by
  rw [run_cons, if_neg (hr 0), if_pos ⟨rfl, hf⟩]

/-- A run that came to its end kept no answer. -/
theorem run_rx {acts : List Action} {s : State} (h : (run acts s).todo = []) : (run acts s).rx = [] := by
  induction acts generalizing s with
  | nil => rfl
  | cons a as ih =>
    rw [run_cons] at h ⊢
    split
    · rfl
    · rename_i hm
      rw [if_neg hm] at h
      split
      · rename_i ha
        rw [if_pos ha] at h
        cases h
      · rename_i ha
        rw [if_neg ha] at h
        exact ih h

/-- However far a run came, what is done and what is still to run make up the effect of its actions in order (R72), so that an
operation that was held goes on to the same end; but for a reset, which leaves nothing to run and no response (R310). -/
theorem run_effect_or_reset (acts : List Action) (s : State) :
    (effect (run acts s).todo (run acts s)).untimed = (effect acts s).untimed ∨
      ((run acts s).todo = [] ∧ (run acts s).response = none) := by
  induction acts generalizing s with
  | nil => exact .inl rfl
  | cons a as ih =>
    rw [run_cons]
    split
    · exact .inr ⟨rfl, rfl⟩
    · split
      · rw [effect_withTodo]
        exact .inl (untimed_effect_congr _ (untimed_tick s))
      · refine (ih _).imp_left fun h => h.trans ?_
        rw [effect_cons]
        exact untimed_effect_congr as (untimed_act_congr a (untimed_tick s))

/-- The same without a reset scheduled. -/
theorem run_effect (acts : List Action) {s : State} (hr : s.NoReset) :
    (effect (run acts s).todo (run acts s)).untimed = (effect acts s).untimed := by
  induction acts generalizing s with
  | nil => rfl
  | cons a as ih =>
    rw [run_cons, if_neg (hr 0)]
    split
    · rw [effect_withTodo]
      exact untimed_effect_congr _ (untimed_tick s)
    · rw [ih (noReset_act a (noReset_tick hr)), effect_cons]
      exact untimed_effect_congr as (untimed_act_congr a (untimed_tick s))

theorem effect_nil {s : State} (h : s.todo = []) (hx : s.rx = []) : effect [] s = s := by
  cases s
  cases h
  cases hx
  rfl

/-- A run that came to its end had the effect of its actions in order, when no reset is scheduled (R72). -/
theorem run_effect_of_idle {acts : List Action} {s : State} (hr : s.NoReset) (h : (run acts s).todo = []) :
    (run acts s).untimed = (effect acts s).untimed := by
  rw [← run_effect acts hr, h, effect_nil h (run_rx h)]

theorem edgeReady_tick {s : State} (h : s.EdgeReady) : s.tick.adc.drdyFlag = true := (tick_drdyFlag s).2 h

theorem edgeReady_act {a : Action} {s : State} (ha : a ≠ .waitDrdy) (h : s.EdgeReady) : (s.tick.act a).EdgeReady :=
  .inl ((act_drdyFlag ha _).trans (edgeReady_tick h))

/-- An action list without a hold always ends, when no reset is scheduled. -/
theorem run_noWait {acts : List Action} {s : State} (hr : s.NoReset) (hw : .waitDrdy ∉ acts) :
    (run acts s).untimed = (effect acts s).untimed ∧ (run acts s).todo = [] := by
  have h : (run acts s).todo = [] := (run_todo acts s).resolve_right fun ⟨_, _, h⟩ => hw (h.subset List.mem_cons_self)
  exact ⟨run_effect_of_idle hr h, h⟩

/-- An action list with one hold ends when the hold will pass and no reset is scheduled, and its effect, timing apart, is
that of its actions in order (R72, R200). -/
theorem run_oneWait {acts : List Action} {s : State} (hr : s.NoReset) (he : s.EdgeReady)
    (hw : acts.count .waitDrdy ≤ 1) :
    (run acts s).untimed = (effect acts s).untimed ∧ (run acts s).todo = [] := by
  suffices h : (run acts s).todo = [] from ⟨run_effect_of_idle hr h, h⟩
  induction acts generalizing s with
  | nil => rfl
  | cons a as ih =>
    have hr' := noReset_act a (noReset_tick hr)
    rw [run_passes hr (.inr (edgeReady_tick he))]
    by_cases ha : a = .waitDrdy
    · subst ha
      rw [List.count_cons_self] at hw
      exact (run_noWait hr' (List.count_eq_zero.1 (by omega))).2
    · exact ih hr' (edgeReady_act ha he) (by rwa [List.count_cons_of_ne ha] at hw)

/-- An action list with any number of holds ends when the handler is installed and an edge comes at each of as many points of
the schedule as the list has actions. -/
theorem run_manyEdges {acts : List Action} {s : State} (hr : s.NoReset) (hi : s.adc.irqEn = true)
    (hc : ∀ k < acts.length, s.env.moveAt k = .edge) :
    (run acts s).untimed = (effect acts s).untimed ∧ (run acts s).todo = [] := by
  suffices h : (run acts s).todo = [] from ⟨run_effect_of_idle hr h, h⟩
  induction acts generalizing s with
  | nil => rfl
  | cons a as ih =>
    have hm : s.env.moveAt 0 = .edge := hc 0 (Nat.succ_pos _)
    rw [run_passes hr (.inr (edgeReady_tick (.inr ⟨hi, hm⟩)))]
    refine ih (noReset_act a (noReset_tick hr)) (act_irqEn a _ (by simp [hm, hi])) fun k hk => ?_
    rw [act_moveAt, tick_moveAt]
    exact hc _ (Nat.succ_lt_succ hk)

/-! Steps of an operation in progress -/

/-- A step of an operation in progress goes on with it. -/
theorem step_of_not_idle {s : State} (h : ¬ s.Idle) : step s = .next s.resume := by
  simp [step, State.fetch, h]

/-- What steps from an operation in progress to its end leave is the effect of the actions it had still to run (R72, R200). -/
theorem goesOn_effect {s t : State} (h : GoesOn s t) (hx : s.todo = [] → s.rx = []) (ht : t.Idle)
    (hp : t.response ≠ none) : t.untimed = (effect s.todo s).untimed := by
  induction h with
  | here s => rw [show s.todo = [] from ht, effect_nil ht (hx ht)]
  | @further s t u held next rest ih =>
    rw [step_of_not_idle held] at next
    cases next
    rcases run_effect_or_reset s.todo s with he | ⟨hi, hn⟩
    · exact (ih run_rx ht hp).trans he
    · cases rest with
      | here => exact absurd hn hp
      | further held' _ _ => exact absurd hi held'

/-- The same without a reset scheduled, and none is scheduled after. -/
theorem goesOn_effect_noReset {s t : State} (h : GoesOn s t) (hx : s.todo = [] → s.rx = []) (hr : s.NoReset)
    (ht : t.Idle) : t.untimed = (effect s.todo s).untimed := by
  induction h with
  | here s => rw [show s.todo = [] from ht, effect_nil ht (hx ht)]
  | @further s t u held next rest ih =>
    rw [step_of_not_idle held] at next
    cases next
    exact (ih run_rx (run_noReset s.todo hr) ht).trans (run_effect s.todo hr)

/-- An operation that ends, in its own step or in a later one, has the effect of its actions in order, timing apart. -/
theorem ends_effect {i : Instr} {acts : List Action} {s t : State} (hx : exec i s = .next (s.startOp acts))
    (h : Ends i s t) : t.untimed = (effect acts { s with response := none, rx := [] }).untimed := by
  obtain ⟨u, hu, hg, ht, hp⟩ := h
  rw [hx] at hu
  cases hu
  rcases run_effect_or_reset acts { s with response := none, rx := [] } with he | ⟨hi, hn⟩
  · exact (goesOn_effect hg run_rx ht hp).trans he
  · cases hg with
    | here => exact absurd hn hp
    | further held _ _ => exact absurd hi held

/-- Without a hold between them steps lead nowhere: an operation that ends at once ends where its own step does. -/
theorem goesOn_of_idle {s t : State} (h : GoesOn s t) (hi : s.Idle) : t = s := by
  cases h with
  | here => rfl
  | further held _ _ => exact absurd hi held

theorem noReset_givenEdge {s : State} (h : s.NoReset) : s.givenEdge.NoReset := fun k => by
  cases k with
  | zero => simp
  | succ k =>
    have := Env.moveAt_dropMove s.givenEdge.env k
    rw [givenEdge_dropMove] at this
    rw [← this]
    exact h k

end Sys2Proof.Machine
end

