-- ==== Sys2Proof/Laws/Adc.lean ====
section
/-! SUPPORT. What the shared procedures of the ADC unit do to a state, holds and schedule apart, one lemma per procedure
(43_adc_regs.md, 44_adc_acq.md). -/

namespace Sys2Proof.Machine

/-! The bus answers of an environment (R67) -/

@[simp] theorem Env.takeBuses_zero (e : Env) : e.takeBuses 0 = e := rfl

theorem Env.takeBuses_takeBus (e : Env) (n : Nat) : (e.takeBuses n).takeBus = e.takeBuses (n + 1) :=
  (Function.iterate_succ_apply' _ _ _).symm

@[simp] theorem Env.takeBuses_add (e : Env) (m n : Nat) : (e.takeBuses m).takeBuses n = e.takeBuses (m + n) := by
  rw [Nat.add_comm]
  exact (Function.iterate_add_apply _ _ _ _).symm

@[simp] theorem Env.busAnswerAt_takeBuses (e : Env) (n k : Nat) :
    (e.takeBuses n).busAnswerAt k = e.busAnswerAt (n + k) := by
  induction n generalizing k with
  | zero => simp
  | succ n ih =>
    rw [← Env.takeBuses_takeBus, Env.takeBus_busAnswerAt, ih]
    congr 1
    omega

/-- The three answers of READ3 make their number, most significant first (R64, R240). -/
theorem sample24_toNat (b0 b1 b2 : Byte) :
    (sample24 b0 b1 b2).toNat = b0.toNat * 2 ^ 16 + b1.toNat * 2 ^ 8 + b2.toNat := by
  simp only [sample24, BitVec.toNat_append]
  rw [← Nat.shiftLeft_add_eq_or_of_lt b1.isLt, ← Nat.shiftLeft_add_eq_or_of_lt b2.isLt]
  simp only [Nat.shiftLeft_eq]
  omega

/-- The sample of the three answers is what the end of an operation makes of them (R240). -/
theorem sampleAt_eq (s : State) (k : Nat) :
    s.sampleAt k = sample24 (s.env.busAnswerAt k) (s.env.busAnswerAt (k + 1)) (s.env.busAnswerAt (k + 2)) := by
  rw [State.sampleAt, ← sample24_toNat, BitVec.ofNat_toNat, BitVec.setWidth_eq]

/-! Action lists in order -/

/-- The actions of a list in order. -/
def actAll (acts : List Action) (s : State) : State := acts.foldl (fun t a => t.act a) s

@[simp] theorem actAll_nil (s : State) : actAll [] s = s := rfl
@[simp] theorem actAll_cons (a : Action) (as : List Action) (s : State) : actAll (a :: as) s = actAll as (s.act a) := rfl
@[simp] theorem actAll_append (as bs : List Action) (s : State) : actAll (as ++ bs) s = actAll bs (actAll as s) :=
  List.foldl_append

theorem effect_eq_actAll (acts : List Action) (s : State) : effect acts s = { actAll acts s with todo := [], rx := [] } :=
  rfl

/-- What actions leave that end no operation: the device state, the line, the events with `n` transfers, the answers
kept. -/
def State.did (s : State) (adc : Adc) (level : ChipSelect) (events : List Event) (n : Nat) (kept : List Byte) : State :=
  { s with adc := adc, cs := level, rx := s.rx ++ kept, trace := s.trace ++ events, env := s.env.takeBuses n }

/-- Nothing done. -/
theorem State.did_nothing (s : State) : s.did s.adc s.cs [] 0 [] = s := by
  simp [State.did]

section
variable (s : State) (adc : Adc) (level : ChipSelect) (es : List Event) (n : Nat) (kept : List Byte)

@[simp] theorem State.did_cfg : (s.did adc level es n kept).cfg = s.cfg := rfl
@[simp] theorem State.did_adc : (s.did adc level es n kept).adc = adc := rfl
@[simp] theorem State.did_cs : (s.did adc level es n kept).cs = level := rfl
@[simp] theorem State.did_rx : (s.did adc level es n kept).rx = s.rx ++ kept := rfl
@[simp] theorem State.did_env : (s.did adc level es n kept).env = s.env.takeBuses n := rfl

/-- One thing done after another. -/
@[simp] theorem State.did_did (adc' : Adc) (level' : ChipSelect) (es' : List Event) (n' : Nat) (kept' : List Byte) :
    (s.did adc level es n kept).did adc' level' es' n' kept' =
      s.did adc' level' (es ++ es') (n + n') (kept ++ kept') := by
  simp [State.did]

@[simp] theorem State.did_xferEvent (tx : Byte) (k : Nat) :
    (s.did adc level es n kept).xferEvent tx k = s.xferEvent tx (n + k) := by
  simp [State.xferEvent]

@[simp] theorem State.did_exchEvents (b0 b1 b2 : Byte) (k : Nat) :
    (s.did adc level es n kept).exchEvents b0 b1 b2 k = s.exchEvents b0 b1 b2 (n + k) := by
  simp [State.exchEvents, Nat.add_assoc]

@[simp] theorem State.did_regwriteEvents (r : Reg) (v : Byte) (k : Nat) :
    (s.did adc level es n kept).regwriteEvents r v k = s.regwriteEvents r v (n + k) := by
  simp [State.regwriteEvents]

@[simp] theorem State.did_read3Events (k : Nat) :
    (s.did adc level es n kept).read3Events k = s.read3Events (n + k) := by
  simp [State.read3Events, Nat.add_assoc]

end

/-! One action, as something done -/

theorem act_did_xfer (tx : Byte) (keep : Bool) (s : State) :
    s.act (.xfer tx keep) = s.did s.adc s.cs [s.xferEvent tx 0] 1 (if keep then [s.env.busAnswerAt 0] else []) := by
  cases keep <;> simp [State.act, State.xfer, State.did, State.emit, State.xferEvent, Env.takeBuses]

theorem act_did_delayUs (m : Nat) (s : State) : s.act (.delayUs m) = s.did s.adc s.cs [.delayUs m] 0 [] := by
  simp [State.act, State.did, State.emit]

theorem act_did_cs (level : ChipSelect) (s : State) : s.act (.cs level) = s.did s.adc level [.cs level] 0 [] := by
  simp [State.act, State.did, State.emit]

theorem act_did_pin (p : Pin) (l : PinLevel) (s : State) : s.act (.pin p l) = s.did s.adc s.cs [.pin p l] 0 [] := by
  simp [State.act, State.did, State.emit]

theorem act_did_attachDrdy (s : State) :
    s.act .attachDrdy = s.did { s.adc with irqEn := true } s.cs [.attachDrdy] 0 [] := by
  simp [State.act, State.did, State.emit]

theorem act_did_setShadow (r : Reg) (v : Byte) (s : State) :
    s.act (.setShadow r v) = s.did (s.adc.setShadow r v) s.cs [] 0 [] := by
  simp [State.act, State.did]

theorem act_did_setPga (e : Nat) (s : State) :
    s.act (.setPga e) = s.did { s.adc with pga := some e } s.cs [] 0 [] := by
  simp [State.act, State.did]

theorem act_did_setRunning (b : Bool) (s : State) :
    s.act (.setRunning b) = s.did { s.adc with running := b } s.cs [] 0 [] := by
  simp [State.act, State.did]

theorem act_did_setCycle (c : BitVec 3) (s : State) :
    s.act (.setCycle c) = s.did { s.adc with cycle := c } s.cs [] 0 [] := by
  simp [State.act, State.did]

theorem act_did_waitDrdy (s : State) : s.act .waitDrdy = s.did s.adc.clearDrdy s.cs [] 0 [] := by
  simp [State.act, State.did]

/-- The flag does not show in a state without timing. -/
@[simp] theorem untimed_ended_clearDrdy (s : State) (adc : Adc) (level : ChipSelect) (es : List Event) (n : Nat)
    (r : Result) : (s.ended adc.clearDrdy level es n r).untimed = (s.ended adc level es n r).untimed := rfl

/-! Runs -/

theorem untimed_actAll_congr (acts : List Action) {s t : State} (h : s.untimed = t.untimed) :
    (actAll acts s).untimed = (actAll acts t).untimed := by
  induction acts generalizing s t with
  | nil => exact h
  | cons a as ih => exact ih (untimed_act_congr a h)

theorem act_irqEn_eq {a : Action} (ha : a ≠ .attachDrdy) (s : State) : (s.act a).adc.irqEn = s.adc.irqEn := by
  cases a <;> first | rfl | exact Adc.setShadow_irqEn _ _ _ | exact absurd rfl ha

/-- Actions that end no operation give no response. -/
theorem actAll_response {acts : List Action} (h : ∀ e, Action.finish e ∉ acts) (s : State) :
    (actAll acts s).response = s.response := by
  induction acts generalizing s with
  | nil => rfl
  | cons a as ih =>
    rw [actAll_cons, ih fun e he => h e (List.mem_cons_of_mem _ he),
      act_response fun e he => h e (he ▸ List.mem_cons_self)]

/-- Actions leave the handler installed. -/
theorem actAll_irqEn (acts : List Action) {s : State} (h : s.adc.irqEn = true) : (actAll acts s).adc.irqEn = true := by
  induction acts generalizing s with
  | nil => exact h
  | cons a as ih => exact ih (act_irqEn a s h)

/-- Actions that do not install the handler leave `IRQ_EN` as it was. -/
theorem actAll_irqEn_eq {acts : List Action} (h : .attachDrdy ∉ acts) (s : State) :
    (actAll acts s).adc.irqEn = s.adc.irqEn := by
  induction acts generalizing s with
  | nil => rfl
  | cons a as ih =>
    rw [actAll_cons, ih fun hm => h (List.mem_cons_of_mem _ hm), act_irqEn_eq fun e => h (e ▸ List.mem_cons_self)]

/-- After the handler's installation `IRQ_EN` is set (R282). -/
theorem actAll_attach {acts : List Action} (h : .attachDrdy ∈ acts) (s : State) : (actAll acts s).adc.irqEn = true := by
  induction acts generalizing s with
  | nil => cases h
  | cons a as ih =>
    rcases List.mem_cons.1 h with rfl | h
    · exact actAll_irqEn as rfl
    · exact ih h _

/-- Actions without a hold, in front of others, when no reset is scheduled: the run goes on behind them with as many points of
the schedule passed (R73). The flag stays set, and stays as it was when none of those points was an edge, or while the handler
is not installed (R282). -/
theorem run_append_noWait {pre as : List Action} {s : State} (hr : s.NoReset) (hw : .waitDrdy ∉ pre) :
    ∃ t, run (pre ++ as) s = run as t ∧ t.untimed = (actAll pre s).untimed ∧
      (∀ k, t.env.moveAt k = s.env.moveAt (k + pre.length)) ∧ (s.adc.drdyFlag = true → t.adc.drdyFlag = true) ∧
      ((∀ k < pre.length, s.env.moveAt k ≠ .edge) ∨ (s.adc.irqEn = false ∧ .attachDrdy ∉ pre) →
        t.adc.drdyFlag = s.adc.drdyFlag) := by
  induction pre generalizing s with
  | nil => exact ⟨s, rfl, rfl, fun _ => rfl, id, fun _ => rfl⟩
  | cons a pre ih =>
    have ha : a ≠ .waitDrdy := fun e => hw (e ▸ List.mem_cons_self)
    obtain ⟨t, h1, h2, h3, h4, h5⟩ := ih (noReset_act a (noReset_tick hr)) fun hm => hw (List.mem_cons_of_mem _ hm)
    rw [act_drdyFlag ha] at h4 h5
    refine ⟨t, ?_, ?_, fun k => ?_, fun hf => h4 ((tick_drdyFlag s).2 (.inl hf)), fun hk => ?_⟩
    · rw [List.cons_append, run_passes hr (.inl ha), h1]
    · rw [h2, actAll_cons]
      exact untimed_actAll_congr _ (untimed_act_congr a (untimed_tick s))
    · rw [h3, act_moveAt, tick_moveAt, List.length_cons, Nat.add_assoc]
    · rcases hk with hk | ⟨hi, hk⟩
      · rw [h5 (.inl fun k hl => ?_), State.tick_adc, if_neg (hk 0 (Nat.succ_pos _))]
        rw [act_moveAt, tick_moveAt]
        exact hk _ (Nat.succ_lt_succ hl)
      · have ht : s.tick.adc = s.adc := by
          rw [State.tick_adc, Adc.drdyEdge_of_disabled hi, ite_self]
        rw [h5 (.inr ⟨?_, fun hm => hk (List.mem_cons_of_mem _ hm)⟩), ht]
        rw [act_irqEn_eq (fun e => hk (e ▸ List.mem_cons_self)), ht, hi]

/-- An operation whose action list has one hold at most ends as the effect of its actions, when a hold will pass and no reset
is scheduled (R200). -/
theorem endsAs_of_effect {i : Instr} {acts : List Action} {s u : State} (hx : exec i s = .next (s.startOp acts))
    (hr : s.NoReset) (he : s.EdgeReady) (hw : acts.count .waitDrdy ≤ 1)
    (h : (effect acts { s with response := none, rx := [] }).untimed = u.untimed) : EndsAs i s u :=
  ⟨_, hx, (run_oneWait (s := { s with response := none, rx := [] }) hr he hw).1.trans h⟩

/-! The shared procedures, over the configuration of the state they run in -/

@[simp] theorem actAll_cfg (acts : List Action) (s : State) : (actAll acts s).cfg = s.cfg := by
  induction acts generalizing s with
  | nil => rfl
  | cons a as ih => exact (ih _).trans (act_cfg a s)

/-- EXCH3 (R201). -/
theorem actAll_exch3 {c : Config} {s : State} (hc : s.cfg = c) (b0 b1 b2 : Byte) (keep : Bool) :
    actAll (exch3 c b0 b1 b2 keep) s =
      s.did s.adc s.cs (s.exchEvents b0 b1 b2 0) 3 (if keep then [s.env.busAnswerAt 2] else []) := by
  subst hc
  simp [exch3, act_did_xfer, act_did_delayUs, State.exchEvents]

/-- REGWRITE (R202). -/
theorem actAll_regwrite {c : Config} {s : State} (hc : s.cfg = c) (r : Reg) (v : Byte) :
    actAll (regwrite c r v) s = s.did (s.adc.setShadow r v).clearDrdy .released (s.regwriteEvents r v 0) 3 [] := by
  subst hc
  simp only [regwrite, actAll_append, actAll_cons, actAll_nil, act_did_setShadow, act_did_waitDrdy, act_did_cs]
  rw [actAll_exch3]
  · simp [State.regwriteEvents]
  · rfl

/-- SELFCAL (R218). -/
theorem actAll_selfcal {c : Config} {s : State} (hc : s.cfg = c) :
    actAll (selfcal c) s =
      s.did s.adc.clearDrdy .released [.cs .asserted, s.xferEvent c.cmdSelfcal 0, .cs .released] 1 [] := by
  subst hc
  simp [selfcal, act_did_waitDrdy, act_did_cs, act_did_xfer]

/-- A pulse on an optional pin (R206). -/
theorem actAll_pulse (present : Bool) (p : Pin) (low settle : Nat) (s : State) :
    actAll (pulse present p low settle) s = s.did s.adc s.cs (pulseEvents present p low settle) 0 [] := by
  cases present <;> simp [pulse, pulseEvents, act_did_pin, act_did_delayUs, State.did_nothing]

/-- READ3 (R240). -/
theorem actAll_read3 {c : Config} {s : State} (hc : s.cfg = c) :
    actAll (read3 c) s =
      s.did s.adc s.cs (s.read3Events 0) 3 [s.env.busAnswerAt 0, s.env.busAnswerAt 1, s.env.busAnswerAt 2] := by
  subst hc
  simp [read3, act_did_xfer, State.read3Events]

/-- MUXWR (R245). -/
theorem actAll_muxwr {c : Config} {s : State} (hc : s.cfg = c) (v : Byte) :
    actAll (muxwr c v) s =
      s.did { s.adc with shMux := some v } s.cs (s.exchEvents (wregByte c .mux) c.rsvdByte v 0) 3 [] := by
  subst hc
  simp only [muxwr, actAll_cons, act_did_setShadow]
  rw [actAll_exch3]
  · simp [Adc.setShadow]
  · rfl

end Sys2Proof.Machine
end

