-- ==== Sys2Proof/Laws/Cobs.lean ====
section
/-! SUPPORT. The small facts of the COBS unit (40_cobs.md): what a length byte is, and what copying a block does. -/

namespace Sys2Proof.Machine

/-- The length byte of a run of at most 254 bytes does not wrap (R131). -/
theorem lenByte_toNat {r : List Byte} (h : r.length ≤ 254) : (lenByte r).toNat = r.length + 1 := by
  simp only [lenByte, BitVec.toNat_ofNat]
  exact Nat.mod_eq_of_lt (by omega)

/-- A length byte is never the delimiter (R132). -/
theorem lenByte_ne_zero {r : List Byte} (h : r.length ≤ 254) : lenByte r ≠ 0#8 := by
  intro e
  have ht := lenByte_toNat h
  rw [e] at ht
  simp at ht

/-- The length byte 0xFF is that of a maximal run (R95). -/
theorem lenByte_max {r : List Byte} (h : r.length ≤ 254) : (lenByte r == 0xFF#8) = decide (r.length = 254) := by
  have ht := lenByte_toNat h
  by_cases h2 : r.length = 254
  · simp [lenByte, h2]
  · have hn : lenByte r ≠ 0xFF#8 := fun e => by
      rw [e] at ht
      simp at ht
      omega
    simp [hn, h2]

/-- A block that was copied has the declared length and no zero byte, and stands in front of what is left (R133). -/
theorem takeBlock_ok {n : Nat} {bs blk rest : List Byte} (h : takeBlock n bs = .ok (blk, rest)) :
    bs = blk ++ rest ∧ blk.length = n ∧ 0x00#8 ∉ blk := by
  induction n generalizing bs blk with
  | zero =>
    simp [takeBlock] at h
    obtain ⟨rfl, rfl⟩ := h
    simp
  | succ n ih =>
    cases bs with
    | nil => simp [takeBlock] at h
    | cons b bs =>
      simp only [takeBlock] at h
      split at h
      · cases h
      · split at h
        · rename_i hb _ _ _ he
          cases h
          obtain ⟨h1, h2, h3⟩ := ih he
          simp only [h1, h2, List.length_cons, List.cons_append, List.mem_cons, not_or, true_and]
          exact ⟨fun e => hb e.symm, h3⟩
        · cases h

/-- A block without a zero byte is copied whole (R133). -/
theorem takeBlock_append (blk rest : List Byte) (h : 0x00#8 ∉ blk) :
    takeBlock blk.length (blk ++ rest) = .ok (blk, rest) := by
  induction blk with
  | nil => rfl
  | cons b bs ih =>
    simp only [List.mem_cons, not_or] at h
    simp only [List.length_cons, List.cons_append, takeBlock]
    rw [if_neg (fun e => h.1 e.symm), ih h.2]

end Sys2Proof.Machine
end

