-- ==== Sys2Proof/Laws/Crc.lean ====
section
/-! SUPPORT. The CRC register (41_crc16.md): it is linear, its shift is injective under the polynomial 0x1021, and a sequence
passes through it piece by piece. -/

namespace Sys2Proof.Machine

/-- The shift of an exclusive-or is the exclusive-or of the shifts (R162). -/
theorem crcShift_xor (p a b : BitVec 16) : crcShift p (a ^^^ b) = crcShift p a ^^^ crcShift p b := by
  simp only [crcShift, BitVec.getLsbD_xor, BitVec.shiftLeft_xor_distrib]
  have hp : p ^^^ p = 0#16 := BitVec.xor_self
  cases a.getLsbD 15 <;> cases b.getLsbD 15
  · simp
  · simp [BitVec.xor_assoc]
  · simp only [Bool.xor_false, if_true, Bool.false_eq_true, if_false]
    ac_rfl
  · simp only [Bool.xor_self, if_true, Bool.false_eq_true, if_false]
    rw [show a <<< 1 ^^^ p ^^^ (b <<< 1 ^^^ p) = a <<< 1 ^^^ b <<< 1 ^^^ (p ^^^ p) by ac_rfl, hp, BitVec.xor_zero]

/-- A register of zero stays zero under shifts. -/
@[simp] theorem crcShift_zero (p : BitVec 16) : crcShift p 0#16 = 0#16 := rfl

theorem crcShift_iterate_xor (p a b : BitVec 16) (n : Nat) :
    (crcShift p)^[n] (a ^^^ b) = (crcShift p)^[n] a ^^^ (crcShift p)^[n] b := by
  induction n generalizing a b with
  | zero => rfl
  | succ n ih => simp only [Function.iterate_succ_apply, crcShift_xor, ih]

/-- One byte of an exclusive-or (R162). -/
theorem crcByte_xor (p c d : BitVec 16) (x y : Byte) :
    crcByte p (c ^^^ d) (x ^^^ y) = crcByte p c x ^^^ crcByte p d y := by
  unfold crcByte
  rw [← crcShift_iterate_xor, BitVec.setWidth_xor, BitVec.shiftLeft_xor_distrib]
  congr 1
  ac_rfl

/-- A zero byte leaves a zero register at zero (R162). -/
@[simp] theorem crcByte_zero (p : BitVec 16) : crcByte p 0#16 0#8 = 0#16 := by
  have h : (0#16 : BitVec 16) ^^^ (0#8).setWidth 16 <<< 8 = 0#16 := rfl
  simp only [crcByte, h, Function.iterate_succ_apply, crcShift_zero, Function.iterate_zero, id]

/-- The register after two sequences is that after the second from the register after the first (R161). -/
theorem crcFrom_append (p c : BitVec 16) (a b : List Byte) : crcFrom p c (a ++ b) = crcFrom p (crcFrom p c a) b :=
  List.foldl_append

theorem crcOf_append (cfg : Config) (a b : List Byte) : crcOf cfg (a ++ b) = crcFrom cfg.crcPoly (crcOf cfg a) b :=
  crcFrom_append _ _ _ _

@[simp] theorem crcFrom_cons (p c : BitVec 16) (b : Byte) (bs : List Byte) :
    crcFrom p c (b :: bs) = crcFrom p (crcByte p c b) bs := rfl

@[simp] theorem crcFrom_nil (p c : BitVec 16) : crcFrom p c [] = c := rfl

/-- A register whose top bit is 0 is shifted only. -/
theorem crcShift_of_top_false (p v : BitVec 16) (h : v.getLsbD 15 = false) : crcShift p v = v <<< 1 := by
  unfold crcShift
  rw [h]
  rfl

/-- A register below 256 passes eight shifts into its high byte. -/
theorem crcShift_iterate_low (p : BitVec 16) (v : Byte) : (crcShift p)^[8] (v.setWidth 16) = v.setWidth 16 <<< 8 := by
  have h : ∀ k, k < 8 → crcShift p (v.setWidth 16 <<< k) = v.setWidth 16 <<< (k + 1) := by
    intro k hk
    rw [crcShift_of_top_false]
    · rw [BitVec.shiftLeft_add]
    · rw [BitVec.getLsbD_shiftLeft, BitVec.getLsbD_setWidth, BitVec.getLsbD_of_ge v (15 - k) (by omega)]
      simp
  have h0 := h 0 (by omega)
  rw [show v.setWidth 16 <<< 0 = v.setWidth 16 from BitVec.shiftLeft_zero _] at h0
  simp only [Function.iterate_succ_apply, Function.iterate_zero, id, h0, Nat.zero_add, Nat.reduceAdd,
    h 1 (by omega), h 2 (by omega), h 3 (by omega), h 4 (by omega), h 5 (by omega), h 6 (by omega), h 7 (by omega)]

/-- The shift of the polynomial 0x1021 loses nothing. -/
theorem crcShift_injective : Function.Injective (crcShift 0x1021#16) := by
  intro c d h
  have low : ∀ v : BitVec 16, (crcShift 0x1021#16 v).getLsbD 0 = v.getLsbD 15 := by
    intro v
    unfold crcShift
    cases hv : v.getLsbD 15 <;> simp
  have h15 : c.getLsbD 15 = d.getLsbD 15 := by rw [← low c, ← low d, h]
  have hs : c <<< 1 = d <<< 1 := by
    unfold crcShift at h
    rw [h15] at h
    split at h
    · exact BitVec.xor_left_inj _ |>.1 h
    · exact h
  refine BitVec.eq_of_getLsbD_eq fun i hi => ?_
  by_cases h' : i = 15
  · rw [h', h15]
  · have hb := congrArg (fun v => v.getLsbD (i + 1)) hs
    simp only [BitVec.getLsbD_shiftLeft] at hb
    simpa [show i + 1 < 16 by omega, BitVec.getLsbD_eq_getElem hi] using hb

theorem crcByte_injective_register (b : Byte) : Function.Injective fun c => crcByte 0x1021#16 c b := by
  intro c d h
  exact (BitVec.xor_left_inj _).1 (crcShift_injective.iterate 8 h)

theorem crcByte_injective_byte (c : BitVec 16) : Function.Injective (crcByte 0x1021#16 c) := by
  intro x y h
  have hx := (BitVec.xor_right_inj _).1 (crcShift_injective.iterate 8 h)
  refine BitVec.eq_of_getLsbD_eq fun i hi => ?_
  have hb := congrArg (fun v => v.getLsbD (i + 8)) hx
  simpa [show i + 8 < 16 by omega, BitVec.getLsbD_eq_getElem hi] using hb

/-- Under the polynomial 0x1021 a sequence takes different registers to different registers. -/
theorem crcFrom_injective (bs : List Byte) : Function.Injective fun c => crcFrom 0x1021#16 c bs := by
  induction bs with
  | nil => exact fun _ _ h => h
  | cons b bs ih => exact fun c d h => crcByte_injective_register b (ih h)

end Sys2Proof.Machine
end

