-- ==== Sys2Proof/Laws/Decode.lean ====
section
/-! SUPPORT. The operand readers and writers of a request undo each other, one lemma per operand type of R112 (log entry 1). -/

namespace Sys2Proof

theorem getNatBE_putNatBE (k n acc : Nat) (rest : List Byte) :
    getNatBE k acc (putNatBE k n ++ rest) = .ok (acc * 256 ^ k + n % 256 ^ k, rest) := by
  induction k generalizing acc with
  | zero => simp [getNatBE, putNatBE, Nat.mod_one]
  | succ k ih =>
    simp only [putNatBE, List.cons_append, getNatBE, ih, BitVec.toNat_ofNat]
    have h : n % 256 ^ (k + 1) = (n / 256 ^ k % 256) * 256 ^ k + n % 256 ^ k := by
      rw [pow_succ, Nat.mod_mul, Nat.mul_comm (256 ^ k)]
      omega
    rw [h, show (2 : Nat) ^ 8 = 256 from rfl, pow_succ]
    congr 2
    ring

/-- A `w`-bit operand that fits `k` bytes. -/
theorem getBits_putNatBE (w k : Nat) (v : BitVec w) (rest : List Byte) (hk : 2 ^ w ≤ 256 ^ k) :
    getBits w k (putNatBE k v.toNat ++ rest) = .ok (v, rest) := by
  have hv := v.isLt
  have : v.toNat % 256 ^ k = v.toNat := Nat.mod_eq_of_lt (by omega)
  simp [getBits, getNatBE_putNatBE, this, hv]

theorem getLen_putLenFuel (fuel n : Nat) (rest : List Byte) (h : n ≤ fuel) :
    getLen (putLenFuel fuel n ++ rest) = .ok (n, rest) := by
  induction fuel generalizing n with
  | zero =>
    obtain rfl : n = 0 := by omega
    rfl
  | succ f ih =>
    simp only [putLenFuel]
    split
    · rename_i hn
      have : n % 256 = n := Nat.mod_eq_of_lt (by omega)
      simp [getLen, this, hn]
    · have h1 : (128 + n % 128) % 256 = 128 + n % 128 := Nat.mod_eq_of_lt (by omega)
      simp only [List.cons_append, getLen, BitVec.toNat_ofNat, show (2 : Nat) ^ 8 = 256 from rfl, h1]
      rw [ih (n / 128) (by omega)]
      simp
      omega

/-- A byte sequence with its length before it. -/
theorem getSeq_putSeq (bs rest : List Byte) : getSeq (putSeq bs ++ rest) = .ok (bs, rest) := by
  simp [getSeq, putSeq, putLen, List.append_assoc, getLen_putLenFuel]

theorem getBool_putBool (b : Bool) (rest : List Byte) : getBool (putBool b ++ rest) = .ok (b, rest) := by
  cases b <;> rfl

theorem getReg_code (r : Reg) (rest : List Byte) : getReg (r.code :: rest) = .ok (r, rest) := by
  cases r <;> rfl

theorem getHdr_putHdr (h : Hdr) (rest : List Byte) : getHdr (putHdr h ++ rest) = .ok (h, rest) := rfl

end Sys2Proof
end

