-- ==== Sys2Proof/Laws/Header.lean ====
section
/-! SUPPORT. The 48 header bits (30_encoding R91, R92): bytes and bits are two views of one value, and so are fields and
bits. -/

namespace Sys2Proof.Machine

/-- Each bit of a header, by the byte that holds it (R91). -/
theorem getLsbD_hdrToBits (h : Hdr) (i : Nat) :
    (hdrToBits h).getLsbD i =
      if i < 8 then h.b5.getLsbD i
      else if i < 16 then h.b4.getLsbD (i - 8)
      else if i < 24 then h.b3.getLsbD (i - 16)
      else if i < 32 then h.b2.getLsbD (i - 24)
      else if i < 40 then h.b1.getLsbD (i - 32)
      else h.b0.getLsbD (i - 40) := by
  simp only [hdrToBits, BitVec.getLsbD_append, Nat.sub_sub]
  split_ifs <;> first | omega | rfl

@[simp] theorem hdrToBits_hdrOfBits (v : BitVec 48) : hdrToBits (hdrOfBits v) = v := by
  refine BitVec.eq_of_getLsbD_eq fun i hi => ?_
  rw [getLsbD_hdrToBits]
  simp only [hdrOfBits, BitVec.getLsbD_extractLsb']
  split_ifs <;> (rw [decide_eq_true (by omega), Bool.true_and]; congr 1; omega)

@[simp] theorem hdrOfBits_hdrToBits (h : Hdr) : hdrOfBits (hdrToBits h) = h := by
  obtain ⟨a, b, c, d, e, f⟩ := h
  simp only [hdrOfBits, Hdr.mk.injEq]
  refine ⟨?_, ?_, ?_, ?_, ?_, ?_⟩ <;>
    (refine BitVec.eq_of_getLsbD_eq fun i hi => ?_
     simp only [BitVec.getLsbD_extractLsb', getLsbD_hdrToBits]
     rw [decide_eq_true hi, Bool.true_and]
     split_ifs <;> first | omega | (congr 1; omega))

/-- A header's number, most significant byte first (R62). -/
theorem toNat_hdrToBits (h : Hdr) :
    (hdrToBits h).toNat =
      h.b0.toNat * 2 ^ 40 + h.b1.toNat * 2 ^ 32 + h.b2.toNat * 2 ^ 24 + h.b3.toNat * 2 ^ 16 + h.b4.toNat * 2 ^ 8
        + h.b5.toNat := by
  have := h.b1.isLt
  have := h.b2.isLt
  have := h.b3.isLt
  have := h.b4.isLt
  have := h.b5.isLt
  simp only [hdrToBits, BitVec.toNat_append]
  rw [← Nat.shiftLeft_add_eq_or_of_lt (by omega), ← Nat.shiftLeft_add_eq_or_of_lt (by omega),
    ← Nat.shiftLeft_add_eq_or_of_lt (by omega), ← Nat.shiftLeft_add_eq_or_of_lt (by omega),
    ← Nat.shiftLeft_add_eq_or_of_lt (by omega)]
  simp only [Nat.shiftLeft_eq]
  ring

/-- The shifted fields of R92 do not overlap: side by side they make the header's bits. -/
theorem hdrBits_eq_append (ms : BitVec 27) (t : BitVec 6) (c : BitVec 4) (d : BitVec 11) :
    hdrBits ms t c d = ms ++ t ++ c ++ d := by
  refine BitVec.eq_of_getLsbD_eq fun i hi => ?_
  have ht : 21 ≤ i → t.getLsbD (i - 15) = false := fun h => BitVec.getLsbD_of_ge _ _ (by omega)
  have hc : 15 ≤ i → c.getLsbD (i - 11) = false := fun h => BitVec.getLsbD_of_ge _ _ (by omega)
  have hd : 11 ≤ i → d.getLsbD i = false := fun h => BitVec.getLsbD_of_ge _ _ (by omega)
  simp only [hdrBits, BitVec.getLsbD_append, BitVec.getLsbD_or, BitVec.getLsbD_shiftLeft, BitVec.getLsbD_setWidth,
    Nat.sub_sub, hi, decide_true, Bool.true_and, show i - 21 < 48 by omega, show i - 15 < 48 by omega,
    show i - 11 < 48 by omega]
  by_cases h1 : i < 11
  · simp [h1, show i < 15 by omega, show i < 21 by omega]
  · by_cases h2 : i < 15
    · simp [h1, h2, show i < 21 by omega, hd (by omega), show i - 11 < 4 by omega]
    · by_cases h3 : i < 21
      · simp [h1, h2, h3, hd (by omega), hc (by omega), show ¬ i - 11 < 4 by omega, show i - 15 < 6 by omega]
      · simp [h1, h2, h3, hd (by omega), hc (by omega), ht (by omega), show ¬ i - 11 < 4 by omega,
          show ¬ i - 15 < 6 by omega]

/-- Any 48 bits are their four fields side by side (R91: no spare bits). -/
theorem append_header_fields (v : BitVec 48) :
    v.extractLsb' 21 27 ++ v.extractLsb' 15 6 ++ v.extractLsb' 11 4 ++ v.extractLsb' 0 11 = v := by
  refine BitVec.eq_of_getLsbD_eq fun i hi => ?_
  simp only [BitVec.getLsbD_append, BitVec.getLsbD_extractLsb', Nat.sub_sub]
  split_ifs <;> (rw [decide_eq_true (by omega), Bool.true_and]; congr 1; omega)

/-- The fields of four values side by side are the values. -/
theorem header_fields_append (ms : BitVec 27) (t : BitVec 6) (c : BitVec 4) (d : BitVec 11) :
    (ms ++ t ++ c ++ d).extractLsb' 21 27 = ms ∧ (ms ++ t ++ c ++ d).extractLsb' 15 6 = t ∧
    (ms ++ t ++ c ++ d).extractLsb' 11 4 = c ∧ (ms ++ t ++ c ++ d).extractLsb' 0 11 = d := by
  refine ⟨?_, ?_, ?_, ?_⟩ <;>
    (refine BitVec.eq_of_getLsbD_eq fun i hi => ?_
     simp only [BitVec.getLsbD_append, BitVec.getLsbD_extractLsb', Nat.sub_sub]
     rw [decide_eq_true hi, Bool.true_and]
     split_ifs <;> first | omega | (congr 1; omega))

end Sys2Proof.Machine
end

