-- ==== Sys2Proof/Laws/PerInstr.lean ====
section
/-! SUPPORT. Per-instruction statements: an operation's request begins with its code, and the code is a row of the table
(30_encoding R110, R111). -/

namespace Sys2Proof.Laws.Opcode

/-- The codes of R111. -/
def assigned : List Nat :=
  [0x01, 0x02, 0x03, 0x04, 0x05, 0x10, 0x11, 0x12, 0x13, 0x14, 0x20, 0x21, 0x22, 0x23, 0x24, 0x25, 0x26, 0x27, 0x28, 0x29,
    0x2A, 0x2B, 0x30, 0x31, 0x32, 0x33, 0x34, 0x35]

/-- A request begins with the operation's code, a code of R111. -/
def Statement (i : Instr) : Prop := (encode i).head? = some i.opcode ∧ i.opcode.toNat ∈ assigned

theorem cobsEnc (raw : List Byte) : Statement (.cobsEnc raw) := ⟨rfl, List.mem_of_elem_eq_true rfl⟩
theorem cobsDec (frame : List Byte) : Statement (.cobsDec frame) := ⟨rfl, List.mem_of_elem_eq_true rfl⟩
theorem crc16 (data : List Byte) : Statement (.crc16 data) := ⟨rfl, List.mem_of_elem_eq_true rfl⟩
theorem hdrEnc (ms : BitVec 27) (topic : BitVec 6) (command : BitVec 4) (dlen : BitVec 11) : Statement (.hdrEnc ms topic command dlen) :=
  ⟨rfl, List.mem_of_elem_eq_true rfl⟩
theorem hdrDec (hdr : Hdr) : Statement (.hdrDec hdr) := ⟨rfl, List.mem_of_elem_eq_true rfl⟩
theorem pktConfigure (topic command : Byte) (payload : List Byte) : Statement (.pktConfigure topic command payload) :=
  ⟨rfl, List.mem_of_elem_eq_true rfl⟩
theorem pktStamp (disable : Bool) : Statement (.pktStamp disable) := ⟨rfl, List.mem_of_elem_eq_true rfl⟩
theorem pktEncodeHeader : Statement (.pktEncodeHeader) := ⟨rfl, List.mem_of_elem_eq_true rfl⟩
theorem pktPacketize : Statement (.pktPacketize) := ⟨rfl, List.mem_of_elem_eq_true rfl⟩
theorem pktDepacketize (rawBytes : List Byte) : Statement (.pktDepacketize rawBytes) :=
  ⟨rfl, List.mem_of_elem_eq_true rfl⟩
theorem adcInit : Statement (.adcInit) := ⟨rfl, List.mem_of_elem_eq_true rfl⟩
theorem adcWreg (reg : Reg) (value : Byte) : Statement (.adcWreg reg value) := ⟨rfl, List.mem_of_elem_eq_true rfl⟩
theorem adcRreg (reg : Reg) : Statement (.adcRreg reg) := ⟨rfl, List.mem_of_elem_eq_true rfl⟩
theorem adcSetDrate (code : Byte) : Statement (.adcSetDrate code) := ⟨rfl, List.mem_of_elem_eq_true rfl⟩
theorem adcSetMux (sel : Byte) : Statement (.adcSetMux sel) := ⟨rfl, List.mem_of_elem_eq_true rfl⟩
theorem adcSetPga (exp : Byte) : Statement (.adcSetPga exp) := ⟨rfl, List.mem_of_elem_eq_true rfl⟩
theorem adcSetClkout (div : Byte) : Statement (.adcSetClkout div) := ⟨rfl, List.mem_of_elem_eq_true rfl⟩
theorem adcSetSdcs (cur : Byte) : Statement (.adcSetSdcs cur) := ⟨rfl, List.mem_of_elem_eq_true rfl⟩
theorem adcSetOrder (b : Bool) : Statement (.adcSetOrder b) := ⟨rfl, List.mem_of_elem_eq_true rfl⟩
theorem adcSetAcal (b : Bool) : Statement (.adcSetAcal b) := ⟨rfl, List.mem_of_elem_eq_true rfl⟩
theorem adcSetBufen (b : Bool) : Statement (.adcSetBufen b) := ⟨rfl, List.mem_of_elem_eq_true rfl⟩
theorem adcSetGpio (dir val : Byte) : Statement (.adcSetGpio dir val) := ⟨rfl, List.mem_of_elem_eq_true rfl⟩
theorem adcReadSingle : Statement (.adcReadSingle) := ⟨rfl, List.mem_of_elem_eq_true rfl⟩
theorem adcReadCont : Statement (.adcReadCont) := ⟨rfl, List.mem_of_elem_eq_true rfl⟩
theorem adcStop : Statement (.adcStop) := ⟨rfl, List.mem_of_elem_eq_true rfl⟩
theorem adcCycleSe : Statement (.adcCycleSe) := ⟨rfl, List.mem_of_elem_eq_true rfl⟩
theorem adcCycleDiff : Statement (.adcCycleDiff) := ⟨rfl, List.mem_of_elem_eq_true rfl⟩
theorem adcVconv (raw24 : BitVec 24) : Statement (.adcVconv raw24) := ⟨rfl, List.mem_of_elem_eq_true rfl⟩

end Sys2Proof.Laws.Opcode
end

