-- ==== Sys2Proof/Laws/Waits.lean ====
section
/-! SUPPORT. What an operation that waits does, said once for all of them: the shape of its actions, where it is held, and how
an edge brings it to its end (43_adc_regs R200, 60_exceptions R274, R280). -/

namespace Sys2Proof.Machine

/-! The shape of the actions -/

/-- The shape of what operation `i` starts (R35, R200, R206): `pre`, a wait, `post`, the end. Only ADC_INIT waits again or
installs the handler; only the session reads set RUNNING, before the wait; only ADC_STOP and ADC_INIT clear it, after it. -/
structure WaitShape (i : Instr) (pre post : List Action) : Prop where
  pre_wait : .waitDrdy ∉ pre
  post_wait : i ≠ .adcInit → .waitDrdy ∉ post
  attach : i ≠ .adcInit → .attachDrdy ∉ pre ∧ .attachDrdy ∉ post
  init_attach : i = .adcInit → .attachDrdy ∈ pre
  pre_finish : ∀ e, Action.finish e ∉ pre
  post_finish : ∀ e, Action.finish e ∉ post
  pre_start : Action.setRunning true ∈ pre → i = .adcReadCont ∨ i = .adcCycleSe ∨ i = .adcCycleDiff
  pre_stop : Action.setRunning false ∉ pre
  post_start : Action.setRunning true ∉ post
  post_stop : Action.setRunning false ∈ post → i = .adcStop ∨ i = .adcInit

/-- The actions of an operation that waits, cut at its first wait. -/
def cutActions (pre post : List Action) (e : Ending) : List Action := pre ++ .waitDrdy :: (post ++ [.finish e])

/-- The state with the flag as given. -/
def State.withFlag (f : Bool) (s : State) : State := { s with adc := { s.adc with drdyFlag := f } }

@[simp] theorem withFlag_self (s : State) : s.withFlag s.adc.drdyFlag = s := rfl
@[simp] theorem withFlag_cfg (f : Bool) (s : State) : (s.withFlag f).cfg = s.cfg := rfl
@[simp] theorem withFlag_env (f : Bool) (s : State) : (s.withFlag f).env = s.env := rfl
@[simp] theorem withFlag_todo (f : Bool) (s : State) : (s.withFlag f).todo = s.todo := rfl
@[simp] theorem withFlag_shStatus (f : Bool) (s : State) : (s.withFlag f).adc.shStatus = s.adc.shStatus := rfl
@[simp] theorem withFlag_shAdcon (f : Bool) (s : State) : (s.withFlag f).adc.shAdcon = s.adc.shAdcon := rfl
@[simp] theorem withFlag_shIo (f : Bool) (s : State) : (s.withFlag f).adc.shIo = s.adc.shIo := rfl
@[simp] theorem withFlag_cycle (f : Bool) (s : State) : (s.withFlag f).adc.cycle = s.adc.cycle := rfl
@[simp] theorem withFlag_running (f : Bool) (s : State) : (s.withFlag f).adc.running = s.adc.running := rfl
@[simp] theorem withFlag_irqEn (f : Bool) (s : State) : (s.withFlag f).adc.irqEn = s.adc.irqEn := rfl
@[simp] theorem withFlag_drdyFlag (f : Bool) (s : State) : (s.withFlag f).adc.drdyFlag = f := rfl
@[simp] theorem withFlag_untimed (f : Bool) (s : State) : (s.withFlag f).untimed = s.untimed := rfl

/-- Operation `i` in state `s`, and in that state with another flag, starts with this list of actions. -/
def Starts (i : Instr) (s : State) (acts : List Action) : Prop :=
  ∀ f, exec i (s.withFlag f) = .next ((s.withFlag f).startOp acts)

theorem Starts.exec_eq {i : Instr} {s : State} {acts : List Action} (h : Starts i s acts) :
    exec i s = .next (s.startOp acts) := h s.adc.drdyFlag

/-- Operation `i` in state `s` runs a list of actions of the shape. -/
def StartsWait (i : Instr) (s : State) : Prop := ∃ pre post e, Starts i s (cutActions pre post e) ∧ WaitShape i pre post

theorem cycleActions_withFlag {n : Nat} (c : Config) (table : Vector Byte n) (f : Bool) (s : State) :
    cycleActions c table (s.withFlag f).adc = cycleActions c table s.adc := by
  simp only [cycleActions, startCycle, withFlag_running, withFlag_cycle]
  rfl

/-- A cycling step has the shape (R246, R248). -/
theorem startsWait_cycle {i : Instr} {s : State} {n : Nat} {table : Vector Byte n}
    (hx : Starts i s (cycleActions s.cfg table s.adc)) (hi : i = .adcCycleSe ∨ i = .adcCycleDiff) :
    StartsWait i s := by
  let c := s.cfg
  let next := nextIndex n (startCycle s.adc).toNat
  refine ⟨if s.adc.running then []
      else [Action.setRunning true, .setCycle 0#3, .cs .asserted] ++ muxwr c (table.toList.getD 0 0#8),
    muxwr c (table.toList.getD next 0#8)
      ++ [Action.xfer c.cmdSync false, .delayUs c.tSyncWake, .xfer c.cmdWakeup false, .xfer c.cmdRdata false] ++ read3 c
      ++ [Action.setCycle (BitVec.ofNat 3 next)], .sample, ?_, ?_⟩
  · intro f
    rw [hx]
    simp [cutActions, cycleActions, c, next]
  · have h : i ≠ .adcInit := by rintro rfl; simp at hi
    cases hr : s.adc.running <;> constructor <;> simp [muxwr, exch3, read3, h, hi]

/-- A register write has the shape (R202). -/
theorem startsWait_wreg {i : Instr} {s : State} {r : Reg} {v : Byte} {first : List Action}
    (hx : Starts i s (first ++ wregActions s.cfg r v)) (hf : first = [] ∨ ∃ e, first = [.setPga e])
    (hi : i ≠ .adcInit) : StartsWait i s := by
  refine ⟨first ++ [Action.setShadow r v],
    [Action.cs .asserted] ++ exch3 s.cfg (wregByte s.cfg r) s.cfg.rsvdByte v false ++ [Action.cs .released], .unit, ?_, ?_⟩
  · intro f
    rw [hx]
    simp [cutActions, wregActions, regwrite]
  · rcases hf with rfl | ⟨e, rfl⟩ <;> constructor <;> simp [exch3, hi]

/-- Every operation that waits, its shadow holding a value, runs a list of actions of this shape (R200, R205). -/
theorem startsWait_of_waits {i : Instr} {s : State} (hw : Waits i) (hs : s.HasShadow i) : StartsWait i s := by
  have adcon (h : 0x25 ≤ i.opcode.toNat ∧ i.opcode.toNat ≤ 0x27) : ∃ old, s.adc.shAdcon = some old :=
    Option.ne_none_iff_exists'.1 (hs.1 h.1 h.2)
  have status (h : 0x28 ≤ i.opcode.toNat ∧ i.opcode.toNat ≤ 0x2A) : ∃ old, s.adc.shStatus = some old :=
    Option.ne_none_iff_exists'.1 (hs.2 h.1 h.2)
  cases i with
  | adcInit =>
    refine ⟨[Action.cs .asserted] ++ pulse s.cfg.hasReset .reset s.cfg.tResetLow s.cfg.tResetSettle
        ++ pulse s.cfg.hasSync .sync s.cfg.tSyncpinLow s.cfg.tSyncpinSettle
        ++ [Action.attachDrdy, .setShadow .status s.cfg.defStatus],
      [Action.cs .asserted] ++ exch3 s.cfg (wregByte s.cfg .status) s.cfg.rsvdByte s.cfg.defStatus false ++ [Action.cs .released]
        ++ regwrite s.cfg .mux s.cfg.defMux ++ [Action.setPga (fieldOf s.cfg.mPga s.cfg.defAdcon).toNat]
        ++ regwrite s.cfg .adcon s.cfg.defAdcon ++ regwrite s.cfg .drate s.cfg.defDrate ++ selfcal s.cfg
        ++ [Action.setRunning false], .unit, ?_, ?_⟩
    · intro f
      simp [exec, execAdcInit, initActions, cutActions, regwrite]
    · cases h1 : s.cfg.hasReset <;> cases h2 : s.cfg.hasSync <;> constructor <;> simp [pulse, exch3, regwrite, selfcal]
  | adcWreg r v =>
    exact startsWait_wreg (first := []) (r := r) (v := v) (fun f => by simp [exec, execAdcWreg]) (.inl rfl) (by simp)
  | adcSetDrate v =>
    exact startsWait_wreg (first := []) (r := .drate) (v := v) (fun f => by simp [exec, execAdcSetDrate]) (.inl rfl)
      (by simp)
  | adcSetMux v =>
    exact startsWait_wreg (first := []) (r := .mux) (v := v) (fun f => by simp [exec, execAdcSetMux]) (.inl rfl) (by simp)
  | adcSetGpio dir val =>
    exact startsWait_wreg (first := []) (r := .io) (v := gpioByte s.cfg s.adc.shIo dir val)
      (fun f => by simp [exec, execAdcSetGpio]) (.inl rfl) (by simp)
  | adcSetClkout v =>
    obtain ⟨old, ho⟩ := adcon (by simp [Instr.opcode])
    exact startsWait_wreg (first := []) (r := .adcon) (v := ins old s.cfg.mClk v)
      (fun f => by simp [exec, execAdcSetClkout, State.setField, Adc.shadow, ho]) (.inl rfl) (by simp)
  | adcSetSdcs v =>
    obtain ⟨old, ho⟩ := adcon (by simp [Instr.opcode])
    exact startsWait_wreg (first := []) (r := .adcon) (v := ins old s.cfg.mSdcs v)
      (fun f => by simp [exec, execAdcSetSdcs, State.setField, Adc.shadow, ho]) (.inl rfl) (by simp)
  | adcSetPga v =>
    obtain ⟨old, ho⟩ := adcon (by simp [Instr.opcode])
    exact startsWait_wreg (first := [.setPga v.toNat]) (r := .adcon) (v := ins old s.cfg.mPga v)
      (fun f => by simp [exec, execAdcSetPga, ho]) (.inr ⟨_, rfl⟩) (by simp)
  | adcSetOrder b =>
    obtain ⟨old, ho⟩ := status (by simp [Instr.opcode])
    exact startsWait_wreg (first := []) (r := .status) (v := ins old s.cfg.mOrder (bitValue b))
      (fun f => by simp [exec, execAdcSetOrder, State.setField, Adc.shadow, ho]) (.inl rfl) (by simp)
  | adcSetAcal b =>
    obtain ⟨old, ho⟩ := status (by simp [Instr.opcode])
    exact startsWait_wreg (first := []) (r := .status) (v := ins old s.cfg.mAcal (bitValue b))
      (fun f => by simp [exec, execAdcSetAcal, State.setField, Adc.shadow, ho]) (.inl rfl) (by simp)
  | adcSetBufen b =>
    obtain ⟨old, ho⟩ := status (by simp [Instr.opcode])
    exact startsWait_wreg (first := []) (r := .status) (v := ins old s.cfg.mBufen (bitValue b))
      (fun f => by simp [exec, execAdcSetBufen, State.setField, Adc.shadow, ho]) (.inl rfl) (by simp)
  | adcRreg r =>
    refine ⟨[], [Action.cs .asserted] ++ exch3 s.cfg (rregByte s.cfg r) s.cfg.rsvdByte s.cfg.dummyTx true ++ [Action.cs .released],
      .value, fun f => by simp [exec, execAdcRreg, rregActions, cutActions], ?_⟩
    constructor <;> simp [exch3]
  | adcReadSingle =>
    refine ⟨[], [Action.cs .asserted, .xfer s.cfg.cmdRdata false] ++ read3 s.cfg ++ [Action.cs .released], .sample,
      fun f => by simp [exec, execAdcReadSingle, readSingleActions, cutActions], ?_⟩
    constructor <;> simp [read3]
  | adcReadCont =>
    refine ⟨if s.adc.running then [] else [Action.setRunning true, .cs .asserted],
      (if s.adc.running then [] else [Action.xfer s.cfg.cmdRdatac false]) ++ read3 s.cfg, .sample, ?_, ?_⟩
    · intro f
      cases h : s.adc.running <;> simp [exec, execAdcReadCont, readContActions, cutActions, h]
    · cases h : s.adc.running <;> constructor <;> simp [read3]
  | adcStop =>
    refine ⟨[], [Action.xfer s.cfg.cmdSdatac false, .cs .released, .setRunning false], .unit,
      fun f => by simp [exec, execAdcStop, stopActions, cutActions], ?_⟩
    constructor <;> simp
  | adcCycleSe =>
    exact startsWait_cycle (table := s.cfg.muxSe)
      (fun f => by simp only [exec, execAdcCycleSe, withFlag_cfg, cycleActions_withFlag]) (.inl rfl)
  | adcCycleDiff =>
    exact startsWait_cycle (table := s.cfg.muxDiff)
      (fun f => by simp only [exec, execAdcCycleDiff, withFlag_cfg, cycleActions_withFlag]) (.inr rfl)
  | _ => exact absurd hw (by simp [Waits, Instr.opcode])

/-! Coming to a wait, and past it -/

/-- The state in which an operation's actions start. -/
def State.started (s : State) : State := { s with response := none, rx := [] }

theorem startOp_eq (acts : List Action) (s : State) : s.startOp acts = run acts s.started := rfl

/-- State `t` is where an operation that started in `s` comes to its first wait, the actions `pre` done. -/
structure AtWait (i : Instr) (pre : List Action) (s t : State) : Prop where
  noReset : t.NoReset
  untimed : t.untimed = (actAll pre s.started).untimed
  response : t.response = none
  moveAt : ∀ k, t.env.moveAt k = s.env.moveAt (k + pre.length)
  flag_set : s.adc.drdyFlag = true → t.adc.drdyFlag = true
  flag_eq : (∀ k < pre.length, s.env.moveAt k ≠ .edge) ∨ (i ≠ .adcInit ∧ s.adc.irqEn = false) →
    t.adc.drdyFlag = s.adc.drdyFlag
  irqEn_eq : i ≠ .adcInit → t.adc.irqEn = s.adc.irqEn
  irqEn : s.adc.irqEn = true ∨ i = .adcInit → t.adc.irqEn = true

/-- An operation of the shape comes to its first wait when no reset is scheduled (R72, R73). -/
theorem startOp_cut {i : Instr} {pre post : List Action} (e : Ending) {s : State} (h : WaitShape i pre post)
    (hr : s.NoReset) :
    ∃ t, s.startOp (cutActions pre post e) = run (.waitDrdy :: (post ++ [.finish e])) t ∧ AtWait i pre s t := by
  obtain ⟨t, h1, h2, h3, h4, h5⟩ :=
    run_append_noWait (as := .waitDrdy :: (post ++ [.finish e])) (s := s.started) hr h.pre_wait
  rw [startOp_eq, cutActions]
  refine ⟨t, h1, fun k => ?_, h2, ?_, h3, h4, fun hk => h5 (hk.imp_right fun ⟨hi, hf⟩ => ⟨hf, (h.attach hi).1⟩),
    fun hi => ?_, fun hi => ?_⟩
  · rw [h3]
    exact hr _
  · rw [response_of_untimed h2, actAll_response h.pre_finish]
    rfl
  · rw [irqEn_of_untimed h2, actAll_irqEn_eq (h.attach hi).1]
    rfl
  · rw [irqEn_of_untimed h2]
    exact hi.elim (fun hi => actAll_irqEn pre hi) fun hi => actAll_attach (h.init_attach hi) _

/-- A wait with the flag clear after the point before it holds the main agent, without a response (R200, R274). -/
theorem run_wait_held {as : List Action} {t : State} (hr : t.NoReset) (hf : t.tick.adc.drdyFlag = false) :
    (run (.waitDrdy :: as) t).Held ∧ (run (.waitDrdy :: as) t).response = t.response ∧
      (run (.waitDrdy :: as) t).untimed = State.untimed { t with todo := .waitDrdy :: as } := by
  rw [run_holds hr hf]
  exact ⟨rfl, rfl, untimed_tick { t with todo := .waitDrdy :: as }⟩

/-- An action list that ends with the end of an operation leaves its response. -/
theorem effect_finish (acts : List Action) (e : Ending) (s : State) :
    ∃ r, (effect (acts ++ [.finish e]) s).response = some (.ok r) := by
  rw [effect_eq_actAll, actAll_append]
  exact ⟨_, rfl⟩

/-- Past its one wait an operation ends with `OK` (R110, R200). -/
theorem run_post_ends {acts : List Action} (e : Ending) {t : State} (hw : .waitDrdy ∉ acts) (hr : t.NoReset) :
    (run (acts ++ [.finish e]) t).Idle ∧ ∃ r, (run (acts ++ [.finish e]) t).response = some (.ok r) := by
  obtain ⟨h1, h2⟩ := run_noWait (acts := acts ++ [.finish e]) hr (by simpa using hw)
  rw [response_of_untimed h1]
  exact ⟨h2, effect_finish acts e t⟩

/-- Edges keep coming: the premise of fairness (R314). -/
def State.Fair (s : State) : Prop := ∀ k, ∃ j ≥ k, s.env.moveAt j = .edge

theorem fair_tick {s : State} (h : s.Fair) : s.tick.Fair := fun k => by
  obtain ⟨j, hk, hj⟩ := h (k + 1)
  exact ⟨j - 1, by omega, by rw [tick_moveAt, Nat.sub_add_cancel (by omega), hj]⟩

theorem fair_act {s : State} (a : Action) (h : s.Fair) : (s.act a).Fair := fun k => by
  simpa only [act_moveAt] using h k

theorem run_fair (acts : List Action) {s : State} (hr : s.NoReset) (h : s.Fair) : (run acts s).Fair :=
  (run_preserves_noReset (P := State.Fair) acts (fun _ => fair_tick) (fun a _ _ => fair_act a) (fun _ _ _ h => h)
    (fun _ h => h) s hr h).1

/-- A step of a held operation in front of which the flag is set goes on behind the wait (R200). -/
theorem step_held_passes {as : List Action} {s : State} (ht : s.todo = .waitDrdy :: as) (hr : s.NoReset)
    (hf : s.tick.adc.drdyFlag = true) : step s = .next (run as (s.tick.act .waitDrdy)) := by
  rw [step_of_not_idle (by simp [State.Idle, ht]), State.resume, ht, run_passes hr (.inr hf)]

/-- A step of a held operation with the flag clear lets one point of the schedule pass and does nothing else (R274). -/
theorem step_held_stays {as : List Action} {s : State} (ht : s.todo = .waitDrdy :: as) (hr : s.NoReset)
    (hf : s.tick.adc.drdyFlag = false) : step s = .next s.tick := by
  rw [step_of_not_idle (by simp [State.Idle, ht]), State.resume, ht, run_holds hr hf, ← ht]
  rfl

/-- With edges coming without end, and the handler installed, steps lead an operation in progress to its end (R200, R314). -/
theorem goesOn_idle_of_fair (n : Nat) {s : State} (hn : s.todo.length ≤ n) (hh : s.Idle ∨ s.Held)
    (hi : s.adc.irqEn = true) (hr : s.NoReset) (hf : s.Fair) : ∃ t, GoesOn s t ∧ t.Idle := by
  induction n generalizing s with
  | zero => exact ⟨s, .here s, List.eq_nil_of_length_eq_zero (Nat.le_zero.1 hn)⟩
  | succ n ih =>
    rcases hh with hh | hh
    · exact ⟨s, .here s, hh⟩
    obtain ⟨as, ht⟩ : ∃ as, s.todo = .waitDrdy :: as := by
      cases hs : s.todo with
      | nil => simp [State.Held, hs] at hh
      | cons a as => exact ⟨as, by simp_all [State.Held]⟩
    obtain ⟨j, -, hj⟩ := hf 0
    clear hh
    induction j generalizing s with
    | zero | succ j ihj =>
      have hit : s.tick.adc.irqEn = true := by simp only [State.tick_adc]; split <;> simpa using hi
      by_cases hz : s.tick.adc.drdyFlag = true
      · have hr' := noReset_act .waitDrdy (noReset_tick hr)
        have hd := run_todo as (s.tick.act .waitDrdy)
        have hl : (run as (s.tick.act .waitDrdy)).todo.length ≤ n := by
          rcases hd with hd | ⟨bs, hd, hs⟩ <;> rw [hd]
          · exact Nat.zero_le _
          · exact hs.length_le.trans (by simpa [ht] using hn)
        obtain ⟨t, h1, h2⟩ := ih hl (hd.imp id fun ⟨bs, hd, _⟩ => by simp [State.Held, hd])
          (run_irqEn as hr' (act_irqEn _ _ hit)) (run_noReset as hr') (run_fair as hr' (fair_act _ (fair_tick hf)))
        exact ⟨t, .further (by simp [State.Idle, ht]) (step_held_passes ht hr hz) h1, h2⟩
      · first
        | exact absurd ((tick_drdyFlag s).2 (.inr ⟨hi, hj⟩)) hz
        | obtain ⟨t, h1, h2⟩ := ihj (s := s.tick) hn hit (noReset_tick hr) (fair_tick hf) ht ((tick_moveAt s j).trans hj)
          exact ⟨t, .further (by simp [State.Idle, ht]) (step_held_stays ht hr (by simpa using hz)) h1, h2⟩

end Sys2Proof.Machine
end

