-- ==== Sys2Proof/Tests/Slice0.lean ====
section
/-! SUPPORT. Tests against the vectors of 95_test_vectors.md, the word-by-word decode tests of 30_encoding R111, the smoke
test of well-formedness, and a witness for the hypotheses of every obligation that has some. -/

namespace Sys2Proof.Tests

open Sys2Proof Sys2Proof.Machine

/-! ## The profile and the states of the vectors -/

/-- Profile `EX1256` of R102 with the defaults of 95_test_vectors, an example and no value of the block. -/
def ex1256 : Config :=
  { crcPoly := 0x1021#16, crcInit := 0x0000#16, cobsExtraAfterMax := false, stampSentinel := 134217727
    cmdWreg := 0x50#8, cmdRreg := 0x10#8, cmdRdata := 0x01#8, cmdRdatac := 0x03#8, cmdSdatac := 0x0F#8
    cmdSync := 0xFC#8, cmdWakeup := 0x00#8, cmdSelfcal := 0xF0#8
    aStatus := 0#8, aMux := 1#8, aAdcon := 2#8, aDrate := 3#8, aIo := 4#8
    mOrder := 0x08#8, mAcal := 0x04#8, mBufen := 0x02#8, mPga := 0x07#8, mClk := 0x60#8, mSdcs := 0x18#8
    mDir := 0xF0#8, mDio := 0x0F#8
    defStatus := 0x06#8, defMux := 0x08#8, defAdcon := 0x20#8, defDrate := 0x82#8
    muxSe := #v[0x08#8, 0x18#8, 0x28#8, 0x38#8, 0x48#8, 0x58#8, 0x68#8, 0x78#8]
    muxDiff := #v[0x01#8, 0x23#8, 0x45#8, 0x67#8]
    rsvdByte := 0x00#8, dummyTx := 0x00#8, hasReset := false, hasSync := false
    tIb := 7, tSyncWake := 4, tResetLow := 5, tResetSettle := 6, tSyncpinLow := 5, tSyncpinSettle := 6
    vref := 5 / 2 }

/-- A world in which no edge and no reset ever comes. -/
def quietly : Env := { Env.reset with later := .always .quiet }

/-- The block after reset, with that profile, in such a world, the host issuing nothing. -/
def base : State := { State.reset with cfg := ex1256, laterRequests := .always none, env := quietly }

/-- The block with the profile, a clock about to answer `(status, ms)`. -/
def clocked (status : ClockStatus) (ms : Nat) : State := { base with env := { quietly with clockIn := [(status, ms)] } }

/-- The block after vector V-A1, a remembered edge waiting, the bus about to answer `answers`. -/
def ready (answers : List Byte) : State :=
  { base with
    adc :=
      { Adc.reset with
        shStatus := some 0x06#8, shMux := some 0x08#8, shAdcon := some 0x20#8, shDrate := some 0x82#8, pga := some 0
        irqEn := true, drdyFlag := true }
    env := { quietly with busIn := answers } }

/-- The same inside a session, at cycle index `c`. -/
def session (c : BitVec 3) (answers : List Byte) : State :=
  { ready answers with adc := { (ready []).adc with running := true, cycle := c }, cs := .asserted }

/-- The message of program P1 with `MS` given, packed up to phase `ph`. -/
def message (ms : BitVec 27) (hdr : Hdr) (csum : BitVec 16) (pkt : List Byte) (ph : Phase) : Msg :=
  { topic := 5, cmd := 3, dlen := 2, payload := [0xAB#8, 0xCD#8]
    ms := if Phase.stamped.reached ph then some ms else none
    hdr := if Phase.headerPacked.reached ph then some hdr else none
    csum := if Phase.finalized.reached ph then some csum else none
    pkt := if Phase.finalized.reached ph then some pkt else none, phase := ph }

/-- The header of vector S2. -/
def hdr1000 : Hdr := ⟨0x00#8, 0x00#8, 0x7D#8, 0x02#8, 0x98#8, 0x02#8⟩

/-- The packet of vector V-P1. -/
def packet1000 : List Byte := [0x00#8, 0x00#8, 0x7D#8, 0x02#8, 0x98#8, 0x02#8, 0xAB#8, 0xCD#8, 0xAB#8, 0x05#8]

/-- The block with the message of program P1 in phase `ph`. -/
def sending (ph : Phase) : State := { base with msg := message 1000 hdr1000 0xAB05#16 packet1000 ph }

/-- The state after an operation that answers a next state. -/
def after (i : Instr) (s : State) : State :=
  match exec i s with
  | .next t => t
  | _ => s

/-- The response to an operation. -/
def answer (i : Instr) (s : State) : Option Response := (after i s).response

/-- The state after a step that answers a next state. -/
def stepped (s : State) : State :=
  match step s with
  | .next t => t
  | _ => s

/-- Does a step refuse? -/
def refusedBy (s : State) : Option Refusal :=
  match step s with
  | .refused r => some r
  | _ => none

/-- The events of one register write with answers 0xFF, as the traces of 95 section 2.6 have them. -/
def writeTrace (b0 v : Byte) : List Event :=
  [.cs .asserted, .xfer b0 0xFF#8, .delayUs 7, .xfer 0x00#8 0xFF#8, .delayUs 7, .xfer v 0xFF#8, .cs .released]

/-- Bus answers nobody looks at. -/
def ffs (n : Nat) : List Byte := List.replicate n 0xFF#8

/-! ## Well-formedness (R112, R204) -/

/-- The example profile is well-formed. -/
theorem test_wf_profile : ex1256.wf = true := by decide +kernel

theorem test_wf_refuses_pga : (Instr.adcSetPga 8#8).wf ex1256 = false := by decide
theorem test_wf_refuses_clkout : (Instr.adcSetClkout 4#8).wf ex1256 = false := by decide
theorem test_wf_refuses_sdcs : (Instr.adcSetSdcs 4#8).wf ex1256 = false := by decide
theorem test_wf_refuses_gpio_dir : (Instr.adcSetGpio 16#8 0#8).wf ex1256 = false := by decide
theorem test_wf_refuses_gpio_val : (Instr.adcSetGpio 0#8 16#8).wf ex1256 = false := by decide
theorem test_wf_accepts_widest : (Instr.adcSetPga 7#8).wf ex1256 = true ∧ (Instr.adcSetGpio 15#8 15#8).wf ex1256 = true := by
  decide

theorem test_wf_mask_order : Config.wf { ex1256 with mOrder := 0#8 } = false := by decide +kernel
theorem test_wf_mask_acal : Config.wf { ex1256 with mAcal := 0x05#8 } = false := by decide +kernel
theorem test_wf_mask_bufen : Config.wf { ex1256 with mBufen := 0x30#8 } = false := by decide +kernel
theorem test_wf_mask_pga : Config.wf { ex1256 with mPga := 0x05#8 } = false := by decide +kernel
theorem test_wf_mask_clk : Config.wf { ex1256 with mClk := 0xA0#8 } = false := by decide +kernel
theorem test_wf_mask_sdcs : Config.wf { ex1256 with mSdcs := 0#8 } = false := by decide +kernel
theorem test_wf_mask_dir : Config.wf { ex1256 with mDir := 0x90#8 } = false := by decide +kernel
theorem test_wf_mask_dio : Config.wf { ex1256 with mDio := 0x05#8 } = false := by decide +kernel
theorem test_wf_status_disjoint : Config.wf { ex1256 with mAcal := 0x08#8 } = false ∧
    Config.wf { ex1256 with mBufen := 0x08#8 } = false ∧ Config.wf { ex1256 with mBufen := 0x04#8 } = false := by
  decide +kernel
theorem test_wf_adcon_disjoint : Config.wf { ex1256 with mClk := 0x0E#8 } = false ∧
    Config.wf { ex1256 with mSdcs := 0x0C#8 } = false ∧ Config.wf { ex1256 with mSdcs := 0x30#8 } = false := by
  decide +kernel
theorem test_wf_io_disjoint : Config.wf { ex1256 with mDio := 0x1F#8 } = false := by decide +kernel
theorem test_wf_pga_width : Config.wf { ex1256 with mPga := 0x0F#8, mSdcs := 0x10#8 } = false := by decide +kernel
theorem test_wf_write_bytes : Config.wf { ex1256 with cmdWreg := 0x51#8 } = false := by decide +kernel
theorem test_wf_read_bytes : Config.wf { ex1256 with cmdRreg := 0x11#8 } = false := by decide +kernel
theorem test_wf_vref : Config.wf { ex1256 with vref := 0 } = false := by decide +kernel
theorem test_wf_settle : Config.wf { ex1256 with tSyncWake := 10 } = false := by decide +kernel

/-! ## Words of R111, one for each operation, written out from the table and the operand form (log entry 1) -/

theorem test_decode_cobsEnc : decode [0x01#8, 0x02#8, 0xAA#8, 0xBB#8] = .ok (.cobsEnc [0xAA#8, 0xBB#8], []) := by decide
theorem test_decode_cobsDec : decode [0x02#8, 0x01#8, 0x00#8] = .ok (.cobsDec [0x00#8], []) := by decide
theorem test_decode_crc16 : decode [0x03#8, 0x01#8, 0x41#8] = .ok (.crc16 [0x41#8], []) := by decide
theorem test_decode_hdrEnc :
    decode [0x04#8, 0x00#8, 0x00#8, 0x03#8, 0xE8#8, 0x05#8, 0x03#8, 0x04#8, 0xD2#8] = .ok (.hdrEnc 1000 5 3 1234, []) := by
  decide
theorem test_decode_hdrDec :
    decode [0x05#8, 0x00#8, 0x00#8, 0x7D#8, 0x02#8, 0x98#8, 0x02#8] = .ok (.hdrDec hdr1000, []) := by decide
theorem test_decode_pktConfigure :
    decode [0x10#8, 0x05#8, 0x03#8, 0x02#8, 0xAB#8, 0xCD#8] = .ok (.pktConfigure 5#8 3#8 [0xAB#8, 0xCD#8], []) := by decide
theorem test_decode_pktStamp : decode [0x11#8, 0x01#8] = .ok (.pktStamp true, []) := by decide
theorem test_decode_pktEncodeHeader : decode [0x12#8] = .ok (.pktEncodeHeader, []) := by decide
theorem test_decode_pktPacketize : decode [0x13#8] = .ok (.pktPacketize, []) := by decide
theorem test_decode_pktDepacketize : decode [0x14#8, 0x01#8, 0x7E#8] = .ok (.pktDepacketize [0x7E#8], []) := by decide
theorem test_decode_adcInit : decode [0x20#8] = .ok (.adcInit, []) := by decide
theorem test_decode_adcWreg : decode [0x21#8, 0x02#8, 0x03#8] = .ok (.adcWreg .adcon 0x03#8, []) := by decide
theorem test_decode_adcRreg : decode [0x22#8, 0x04#8] = .ok (.adcRreg .io, []) := by decide
theorem test_decode_adcSetDrate : decode [0x23#8, 0xF0#8] = .ok (.adcSetDrate 0xF0#8, []) := by decide
theorem test_decode_adcSetMux : decode [0x24#8, 0x08#8] = .ok (.adcSetMux 0x08#8, []) := by decide
theorem test_decode_adcSetPga : decode [0x25#8, 0x03#8] = .ok (.adcSetPga 3#8, []) := by decide
theorem test_decode_adcSetClkout : decode [0x26#8, 0x02#8] = .ok (.adcSetClkout 2#8, []) := by decide
theorem test_decode_adcSetSdcs : decode [0x27#8, 0x01#8] = .ok (.adcSetSdcs 1#8, []) := by decide
theorem test_decode_adcSetOrder : decode [0x28#8, 0x01#8] = .ok (.adcSetOrder true, []) := by decide
theorem test_decode_adcSetAcal : decode [0x29#8, 0x00#8] = .ok (.adcSetAcal false, []) := by decide
theorem test_decode_adcSetBufen : decode [0x2A#8, 0x01#8] = .ok (.adcSetBufen true, []) := by decide
theorem test_decode_adcSetGpio : decode [0x2B#8, 0x0E#8, 0x01#8] = .ok (.adcSetGpio 0x0E#8 0x01#8, []) := by decide
theorem test_decode_adcReadSingle : decode [0x30#8] = .ok (.adcReadSingle, []) := by decide
theorem test_decode_adcReadCont : decode [0x31#8] = .ok (.adcReadCont, []) := by decide
theorem test_decode_adcStop : decode [0x32#8] = .ok (.adcStop, []) := by decide
theorem test_decode_adcCycleSe : decode [0x33#8] = .ok (.adcCycleSe, []) := by decide
theorem test_decode_adcCycleDiff : decode [0x34#8] = .ok (.adcCycleDiff, []) := by decide
theorem test_decode_adcVconv : decode [0x35#8, 0xC0#8, 0x00#8, 0x01#8] = .ok (.adcVconv 0xC00001#24, []) := by decide

/-- The unassigned codes of 95 section 2.8 (R113). -/
theorem test_decode_unassigned :
    ∀ op ∈ [0x00#8, 0x06#8, 0x15#8, 0x2C#8, 0x36#8, 0xFF#8], decode [op] = .error (.unassignedOp op) := by
  decide

/-- Operands the decoder turns away by name: out of type, or cut short (R112). -/
theorem test_decode_rejects :
    (∀ bs ∈ [[0x11#8, 0x02#8], [0x22#8, 0x05#8], [0x04#8, 0x08#8, 0#8, 0#8, 0#8, 0#8, 0#8, 0#8, 0#8]],
      decode bs = .error .operandRange) ∧
    ∀ bs ∈ [[0x01#8, 0x02#8, 0xAA#8], [0x35#8, 0x00#8], []], decode bs = .error .truncated := by
  decide

/-! ## The COBS and CRC units (95 sections 2.1 to 2.3) -/

/-- Vectors V-C1, V-C4, V-C8. -/
theorem test_cobsEnc_small :
    answer (.cobsEnc []) base = some (.ok (.frame [0x01#8, 0x00#8])) ∧
    answer (.cobsEnc [0x11#8, 0x00#8]) base = some (.ok (.frame [0x02#8, 0x11#8, 0x01#8, 0x00#8])) ∧
    answer (.cobsEnc [0x11#8, 0x22#8, 0x00#8, 0x33#8]) base =
      some (.ok (.frame [0x03#8, 0x11#8, 0x22#8, 0x02#8, 0x33#8, 0x00#8])) := by
  decide

/-- A maximal run at the end of the input, without and with the extra group, and one followed by a zero (V-C10, V-C11,
V-C13, over a run of 0x01). -/
theorem test_cobsEnc_maximal :
    cobsEncode false (List.replicate 254 1#8) = 0xFF#8 :: List.replicate 254 1#8 ++ [0x00#8] ∧
    cobsEncode true (List.replicate 254 1#8) = 0xFF#8 :: List.replicate 254 1#8 ++ [0x01#8, 0x00#8] ∧
    cobsEncode false (List.replicate 254 1#8 ++ [0x00#8]) =
      0xFF#8 :: List.replicate 254 1#8 ++ [0x01#8, 0x01#8, 0x00#8] := by
  decide +kernel

/-- Vectors V-D1, V-D4, V-D6, V-D8, V-D10, V-D11. -/
theorem test_cobsDec_small :
    answer (.cobsDec [0x00#8]) base = some (.ok (.raw [] 1)) ∧
    answer (.cobsDec [0x02#8, 0x11#8]) base = some (.err .cobsErrTruncated) ∧
    answer (.cobsDec [0x02#8, 0x11#8, 0x00#8, 0x05#8, 0x05#8]) base = some (.ok (.raw [0x11#8] 3)) ∧
    answer (.cobsDec [0x02#8, 0x01#8, 0x02#8, 0x00#8]) base = some (.err .cobsErrZeroInBlock) ∧
    answer (.cobsDec [0x05#8, 0x01#8, 0x02#8, 0x00#8, 0x04#8, 0x00#8]) base = some (.err .cobsErrZeroInBlock) ∧
    answer (.cobsDec [0x02#8, 0x11#8, 0x02#8, 0x22#8, 0x00#8]) base = some (.ok (.raw [0x11#8, 0x00#8, 0x22#8] 5)) := by
  decide

/-- Vectors V-D12, V-D13, V-D14, V-D15: no zero is put back after a maximal block. -/
theorem test_cobsDec_maximal :
    cobsDecode (0xFF#8 :: List.replicate 254 7#8) = .error .cobsErrTruncated ∧
    cobsDecode (0xFF#8 :: List.replicate 254 7#8 ++ [0x00#8]) = .ok (List.replicate 254 7#8, 256) ∧
    cobsDecode (0xFF#8 :: List.replicate 254 7#8 ++ [0x01#8, 0x00#8]) = .ok (List.replicate 254 7#8, 257) ∧
    cobsDecode (0xFF#8 :: List.replicate 254 7#8 ++ [0x02#8, 0x09#8, 0x00#8]) =
      .ok (List.replicate 254 7#8 ++ [0x09#8], 258) := by
  decide +kernel

/-- Vectors V-K1 and V-K2. -/
theorem test_crc16_check :
    answer (.crc16 [0x31#8, 0x32#8, 0x33#8, 0x34#8, 0x35#8, 0x36#8, 0x37#8, 0x38#8, 0x39#8]) base =
      some (.ok (.crc 0x31C3#16)) ∧ answer (.crc16 []) base = some (.ok (.crc 0x0000#16)) := by
  decide +kernel

/-- Vectors V-K4, V-K5, V-K11, V-K12. -/
theorem test_crc16_values :
    crcOf ex1256 [0x01#8] = 0x1021#16 ∧ crcOf ex1256 [0x80#8] = 0x9188#16 ∧ crcOf ex1256 [0xFF#8, 0xFF#8] = 0x1D0F#16 ∧
    crcOf ex1256 (hdrBytes hdr1000) = 0xA493#16 := by
  decide +kernel

/-! ## The packet unit (95 sections 2.4 and 2.5, programs P1 and P2) -/

/-- Vectors V-H1, V-H10, V-H9. -/
theorem test_hdrEnc :
    answer (.hdrEnc 1000 5 3 2) base = some (.ok (.hdr hdr1000)) ∧
    answer (.hdrEnc 43200000 42 9 1234) base = some (.ok (.hdr ⟨0x52#8, 0x65#8, 0xC0#8, 0x15#8, 0x4C#8, 0xD2#8⟩)) ∧
    answer (.hdrEnc 86400000 0 0 0) base = some (.ok (.hdr ⟨0xA4#8, 0xCB#8, 0x80#8, 0x00#8, 0x00#8, 0x00#8⟩)) := by
  decide

/-- Vectors V-H3, V-H5, V-H11, right to left. -/
theorem test_hdrDec :
    answer (.hdrDec ⟨0xA4#8, 0xCB#8, 0x7F#8, 0xFF#8, 0xFF#8, 0xFF#8⟩) base = some (.ok (.fields 86399999 63 15 2047)) ∧
    answer (.hdrDec ⟨0x00#8, 0x00#8, 0x00#8, 0x1F#8, 0x80#8, 0x00#8⟩) base = some (.ok (.fields 0 63 0 0)) ∧
    answer (.hdrDec ⟨0x00#8, 0x00#8, 0x00#8, 0x20#8, 0x88#8, 0x01#8⟩) base = some (.ok (.fields 1 1 1 1)) := by
  decide

/-- Program P1, line 1: the message is stored. -/
theorem test_pktConfigure_stores :
    (after (.pktConfigure 5#8 3#8 [0xAB#8, 0xCD#8]) (sending .finalized)).msg = (sending .configured).msg := by decide

/-- Vectors V-P16, V-P17, V-P20: refused, the message as it was. -/
theorem test_pktConfigure_refuses :
    answer (.pktConfigure 64#8 0#8 []) base = some (.err .pktErrTopic) ∧
    answer (.pktConfigure 0#8 16#8 []) base = some (.err .pktErrCommand) ∧
    answer (.pktConfigure 255#8 255#8 []) base = some (.err .pktErrTopic) ∧
    (after (.pktConfigure 64#8 0#8 []) (sending .finalized)).msg = (sending .finalized).msg := by
  decide

/-- Vectors V-P22 and V-P25: the largest clock value that fits, and the sentinel without a `CLOCK()` event. -/
theorem test_pktStamp_assigns :
    (after (.pktStamp false) (clocked .ok 134217727)).msg.ms = some 134217727 ∧
    (after (.pktStamp false) (clocked .ok 134217727)).trace = [.clock .ok 134217727] ∧
    (after (.pktStamp true) base).msg.ms = some 134217727 ∧ (after (.pktStamp true) base).trace = [] := by
  decide

/-- Vectors V-P23 and V-P24. -/
theorem test_pktStamp_refuses :
    answer (.pktStamp false) (clocked .ok 134217728) = some (.err .pktErrStampRange) ∧
    answer (.pktStamp false) (clocked (.other 7) 1000) = some (.err (.pktErrClock (.other 7))) ∧
    (after (.pktStamp false) (clocked (.other 7) 1000)).msg = Msg.reset := by
  decide

/-- Program P1, line 3, and program P2, line 1. -/
theorem test_pktEncodeHeader :
    answer .pktEncodeHeader (sending .stamped) = some (.ok (.hdr hdr1000)) ∧
    (after .pktEncodeHeader (sending .finalized)).msg = (sending .headerPacked).msg ∧
    answer .pktEncodeHeader base = some (.err .pktErrNoStamp) := by
  decide

/-- Program P1, line 4, and program P2, line 9. -/
theorem test_pktPacketize :
    answer .pktPacketize (sending .headerPacked) = some (.ok (.packet packet1000)) ∧
    (after .pktPacketize (sending .headerPacked)).msg = (sending .finalized).msg ∧
    answer .pktPacketize (sending .stamped) = some (.err .pktErrNoHeader) := by
  decide +kernel

/-- Program P1, last line. -/
theorem test_pktDepacketize_accepts :
    answer (.pktDepacketize packet1000) base =
      some (.ok (.rxMsg
        { topic := 5, command := 3, millistamp := 1000, dataLength := 2, payload := [0xAB#8, 0xCD#8]
          checksum := 0xAB05#16 })) := by
  decide +kernel

/-- Vectors V-P6, V-P7, V-P8, V-P10, V-P13. -/
theorem test_pktDepacketize_refuses :
    answer (.pktDepacketize [0x00#8, 0x00#8, 0x7D#8, 0x02#8, 0x98#8, 0x02#8, 0xAA#8, 0xCD#8, 0xAB#8, 0x05#8]) base =
      some (.err .pktErrChecksum) ∧
    answer (.pktDepacketize [0x00#8, 0x00#8, 0x7D#8, 0x02#8, 0x98#8, 0x02#8, 0xAB#8, 0xCD#8, 0xAB#8, 0x85#8]) base =
      some (.err .pktErrChecksum) ∧
    answer (.pktDepacketize [0x00#8, 0x00#8, 0x7D#8, 0x02#8, 0x98#8, 0x02#8, 0xAB#8]) base = some (.err .pktErrShort) ∧
    answer (.pktDepacketize [0x00#8, 0x00#8, 0x7D#8, 0x02#8, 0x98#8, 0x03#8, 0xAB#8, 0xCD#8, 0x9C#8, 0x35#8]) base =
      some (.err .pktErrDataLength) ∧
    answer (.pktDepacketize [0xFF#8, 0xFF#8, 0xFF#8, 0xE0#8, 0x00#8, 0x00#8, 0xE5#8, 0x82#8]) base =
      some (.err .pktErrMillistampRange) := by
  decide +kernel

/-! ## ADC register operations (95 section 2.6) -/

/-- Vector V-A1: the trace of initialisation, an edge at every point of the schedule. -/
theorem test_adcInit_trace :
    (after .adcInit { base with env := { quietly with sched := List.replicate 53 .edge, busIn := ffs 13 } }).trace =
      [.cs .asserted, .attachDrdy] ++ writeTrace 0x50#8 0x06#8 ++ writeTrace 0x51#8 0x08#8 ++ writeTrace 0x52#8 0x20#8
        ++ writeTrace 0x53#8 0x82#8 ++ [.cs .asserted, .xfer 0xF0#8 0xFF#8, .cs .released] := by
  decide +kernel

/-- Both pins present: two pulses stand between the first chip-select event and the handler's installation (R206). -/
theorem test_adcInit_pulses :
    (after .adcInit
        { base with
          cfg := { ex1256 with hasReset := true, hasSync := true }
          env := { quietly with busIn := ffs 13 } }).trace =
      [.cs .asserted, .pin .reset .active, .delayUs 5, .pin .reset .inactive, .delayUs 6,
        .pin .sync .active, .delayUs 5, .pin .sync .inactive, .delayUs 6, .attachDrdy] := by
  decide

/-- Vector V-A6: a raw write to the gain register leaves `PGA` as it was (R321). -/
theorem test_adcWreg :
    (after (.adcWreg .adcon 0x03#8) (ready (ffs 3))).trace = writeTrace 0x52#8 0x03#8 ∧
    (after (.adcWreg .adcon 0x03#8) (ready (ffs 3))).adc.shAdcon = some 0x03#8 ∧
    (after (.adcWreg .adcon 0x03#8) (ready (ffs 3))).adc.pga = some 0 := by
  decide

/-- Vector V-A5: the third answer is the result, and the shadow stays. -/
theorem test_adcRreg :
    answer (.adcRreg .adcon) (ready [0xFF#8, 0xFF#8, 0x99#8]) = some (.ok (.value 0x99#8)) ∧
    (after (.adcRreg .adcon) (ready [0xFF#8, 0xFF#8, 0x99#8])).adc.shAdcon = some 0x20#8 ∧
    (after (.adcRreg .adcon) (ready [0xFF#8, 0xFF#8, 0x99#8])).trace =
      [.cs .asserted, .xfer 0x12#8 0xFF#8, .delayUs 7, .xfer 0x00#8 0xFF#8, .delayUs 7, .xfer 0x00#8 0x99#8,
        .cs .released] := by
  decide

/-- Vector V-A14. -/
theorem test_adcSetDrate : (after (.adcSetDrate 0xF0#8) (ready (ffs 3))).trace = writeTrace 0x53#8 0xF0#8 := by decide

/-- Vector V-A17. -/
theorem test_adcSetMux :
    (after (.adcSetMux 0x23#8) (ready (ffs 3))).trace = writeTrace 0x51#8 0x23#8 ∧
    (after (.adcSetMux 0x23#8) (ready (ffs 3))).adc.shMux = some 0x23#8 := by
  decide

/-- Before ADC_INIT the multiplexer write is held for ever, its shadow set and no event emitted (95 section 2.6). -/
theorem test_adcSetMux_held :
    (after (.adcSetMux 0x08#8) base).adc.shMux = some 0x08#8 ∧ (after (.adcSetMux 0x08#8) base).trace = [] ∧
    answer (.adcSetMux 0x08#8) base = none ∧ stepped (after (.adcSetMux 0x08#8) base) = after (.adcSetMux 0x08#8) base := by
  refine ⟨rfl, rfl, rfl, rfl⟩

/-- Vector V-A2 and the refusal before ADC_INIT. -/
theorem test_adcSetPga :
    (after (.adcSetPga 1#8) (ready (ffs 3))).trace = writeTrace 0x52#8 0x21#8 ∧
    (after (.adcSetPga 1#8) (ready (ffs 3))).adc.pga = some 1 ∧
    answer (.adcSetPga 1#8) base = some (.err .adcErrNoShadow) ∧ (after (.adcSetPga 1#8) base).trace = [] := by
  decide

/-- The example of R212. -/
theorem test_adcSetClkout :
    (after (.adcSetClkout 0#8) { ready (ffs 3) with adc := { (ready []).adc with shAdcon := some 0x23#8 } }).trace =
      writeTrace 0x52#8 0x03#8 := by
  decide

/-- Vector V-A7. -/
theorem test_adcSetSdcs :
    (after (.adcSetSdcs 2#8) { ready (ffs 3) with adc := { (ready []).adc with shAdcon := some 0x03#8 } }).trace =
      writeTrace 0x52#8 0x13#8 := by
  decide

/-- Vector V-A8. -/
theorem test_adcSetOrder :
    (after (.adcSetOrder true) { ready (ffs 3) with adc := { (ready []).adc with shStatus := some 0x04#8 } }).trace =
      writeTrace 0x50#8 0x0C#8 := by
  decide

/-- The example of R215. -/
theorem test_adcSetAcal : (after (.adcSetAcal false) (ready (ffs 3))).trace = writeTrace 0x50#8 0x02#8 := by decide

/-- Vector V-A3. -/
theorem test_adcSetBufen : (after (.adcSetBufen false) (ready (ffs 3))).trace = writeTrace 0x50#8 0x04#8 := by decide

/-- Vector V-A4: the shadow had no value. -/
theorem test_adcSetGpio :
    (after (.adcSetGpio 0x0E#8 0x00#8) (ready (ffs 3))).trace = writeTrace 0x54#8 0xE0#8 ∧
    (after (.adcSetGpio 0x0E#8 0x00#8) (ready (ffs 3))).adc.shIo = some 0xE0#8 := by
  decide

/-! ## ADC acquisition (95 section 2.7) -/

/-- Vector V-A12. -/
theorem test_adcReadSingle :
    answer .adcReadSingle (ready [0xFF#8, 0xC0#8, 0x00#8, 0x00#8]) = some (.ok (.sample 0xC00000#24)) ∧
    (after .adcReadSingle (ready [0xFF#8, 0xC0#8, 0x00#8, 0x00#8])).trace =
      [.cs .asserted, .xfer 0x01#8 0xFF#8, .xfer 0x00#8 0xC0#8, .xfer 0x00#8 0x00#8, .xfer 0x00#8 0x00#8,
        .cs .released] := by
  decide

/-- Vector V-A11, first and later calls. -/
theorem test_adcReadCont :
    (after .adcReadCont (ready [0xFF#8, 0x7F#8, 0xFF#8, 0xFF#8])).trace =
      [.cs .asserted, .xfer 0x03#8 0xFF#8, .xfer 0x00#8 0x7F#8, .xfer 0x00#8 0xFF#8, .xfer 0x00#8 0xFF#8] ∧
    (after .adcReadCont (ready [0xFF#8, 0x7F#8, 0xFF#8, 0xFF#8])).adc.running = true ∧
    answer .adcReadCont (session 0 [0x80#8, 0x00#8, 0x01#8]) = some (.ok (.sample 0x800001#24)) ∧
    (after .adcReadCont (session 0 [0x80#8, 0x00#8, 0x01#8])).trace =
      [.xfer 0x00#8 0x80#8, .xfer 0x00#8 0x00#8, .xfer 0x00#8 0x01#8] := by
  decide

/-- The stop of vector V-A9: `RUNNING` 0, `CYCLE` unchanged. -/
theorem test_adcStop :
    (after .adcStop (session 5 [0xFF#8])).trace = [.xfer 0x0F#8 0xFF#8, .cs .released] ∧
    (after .adcStop (session 5 [0xFF#8])).adc.running = false ∧ (after .adcStop (session 5 [0xFF#8])).adc.cycle = 5 := by
  decide

/-- Vector V-A9, invocation 1: its trace, and the edge consumed after the preload. -/
theorem test_adcCycleSe_first :
    (after .adcCycleSe (ready (ffs 9 ++ [0x00#8, 0x00#8, 0x01#8]))).trace =
      [.cs .asserted, .xfer 0x51#8 0xFF#8, .delayUs 7, .xfer 0x00#8 0xFF#8, .delayUs 7, .xfer 0x08#8 0xFF#8,
        .xfer 0x51#8 0xFF#8, .delayUs 7, .xfer 0x00#8 0xFF#8, .delayUs 7, .xfer 0x18#8 0xFF#8, .xfer 0xFC#8 0xFF#8,
        .delayUs 4, .xfer 0x00#8 0xFF#8, .xfer 0x01#8 0xFF#8, .xfer 0x00#8 0x00#8, .xfer 0x00#8 0x00#8,
        .xfer 0x00#8 0x01#8] ∧
    (after .adcCycleSe (ready (ffs 9 ++ [0x00#8, 0x00#8, 0x01#8]))).adc.cycle = 1 := by
  decide

/-- Vector V-A9, invocation 8: the index wraps. -/
theorem test_adcCycleSe_wraps :
    answer .adcCycleSe (session 7 (ffs 6 ++ [0x00#8, 0x00#8, 0x08#8])) = some (.ok (.sample 0x000008#24)) ∧
    (after .adcCycleSe (session 7 (ffs 6 ++ [0x00#8, 0x00#8, 0x08#8]))).adc.cycle = 0 ∧
    (after .adcCycleSe (session 7 (ffs 6 ++ [0x00#8, 0x00#8, 0x08#8]))).adc.shMux = some 0x08#8 := by
  decide

/-- Vector V-A10, invocation 4, and the step from a single-ended index (R248). -/
theorem test_adcCycleDiff :
    (after .adcCycleDiff (session 3 (ffs 9))).adc.shMux = some 0x01#8 ∧
    (after .adcCycleDiff (session 3 (ffs 9))).adc.cycle = 0 ∧
    (after .adcCycleDiff (session 5 (ffs 9))).adc.shMux = some 0x45#8 ∧
    (after .adcCycleDiff (session 5 (ffs 9))).adc.cycle = 2 := by
  decide

/-- Vector V-A13, `PGA` 0, and the refusal before ADC_INIT. -/
theorem test_adcVconv :
    answer (.adcVconv 0x800000#24) (ready []) = some (.ok (.voltage (-5))) ∧
    answer (.adcVconv 0x7FFFFF#24) (ready []) = some (.ok (.voltage (41943035 / 8388608))) ∧
    answer (.adcVconv 0x000001#24) base = some (.err .adcErrNoShadow) := by
  decide +kernel

/-- Vector V-A13, `PGA` 1 and 7. -/
theorem test_adcVconv_gain :
    voltageOf (5 / 2) 1 0xC00000#24 = -(5 / 4) ∧ voltageOf (5 / 2) 7 0x800000#24 = -(5 / 128) := by decide +kernel

/-! ## Requests, reset and the hold -/

/-- 95 section 2.8: an unassigned code from the request port. -/
theorem test_step_badOp :
    stepped (base.withRequest [0x36#8]) = { base with response := some (.err .errBadOp) } ∧
    Response.code (.err .errBadOp) = 0xF0#8 := ⟨rfl, rfl⟩

/-- Requests the spec cannot express are refused by name (R112, log entry 2). -/
theorem test_step_refuses :
    refusedBy (base.withRequest [0x25#8, 0x08#8]) = some .operandWiderThanField ∧
    refusedBy (base.withRequest [0x25#8]) = some .malformedRequest ∧
    refusedBy (base.withRequest [0x11#8, 0x02#8]) = some .malformedRequest := by
  decide

/-- A table word placed by the host runs as the first operation after reset. -/
theorem test_withFetchWord :
    stepped (State.reset.withFetchWord 8 0x12) = { State.reset with response := some (.err .pktErrNoStamp) } ∧
    stepped (State.reset.withFetchWord 8 0x25) = { State.reset with response := some (.err .adcErrNoShadow) } := ⟨rfl, rfl⟩

/-- Program P5: a single read before ADC_INIT is held whatever edges come, and a reset frees the block (R310). -/
theorem test_hold_and_reset :
    let held := after .adcReadSingle { base with env := { quietly with sched := [.edge, .edge, .reset, .edge] } }
    held.Held ∧ (stepped held).Held ∧ (stepped held).env.sched = [.reset, .edge] ∧
      (stepped (stepped held)).Idle ∧ (stepped (stepped held)).response = none := by
  decide

/-- After the requests that are listed the host issues what comes later, and none when that is none (R15). -/
theorem test_laterRequests :
    stepped { base with laterRequests := .always (some [0x13#8]) } =
      { base with laterRequests := .always (some [0x13#8]), response := some (.err .pktErrNoHeader) } ∧
    stepped base = base := ⟨rfl, rfl⟩

/-! ## Witnesses: states and operands that meet the hypotheses of each obligation that has some -/

/-- No reset comes where none is listed and another move goes on for ever. -/
theorem noReset_of {s : State} {m : Move} (hs : Move.reset ∉ s.env.sched) (hl : s.env.later = .always m)
    (hm : m ≠ .reset) : s.NoReset := by
  intro k
  unfold Env.moveAt
  split
  · rename_i h
    exact fun e => hs (e ▸ List.mem_of_getElem? h)
  · rw [hl]
    exact hm

/-- A schedule that lists nothing is at every point what goes on for ever. -/
theorem moveAt_of {s : State} {m : Move} (hs : s.env.sched = []) (hl : s.env.later = .always m) (k : Nat) :
    s.env.moveAt k = m := by
  simp [Env.moveAt, hs, hl, Later.nth]

/-- The block with an edge to come at the next point instead of a remembered one. -/
def waiting : State :=
  { ready [] with adc := { (ready []).adc with drdyFlag := false }, env := { quietly with sched := [.edge] } }

/-- The block after reset with an edge at every point of the schedule. -/
def edges : State := { base with env := { quietly with later := .always .edge } }

theorem ready_noReset : (ready []).NoReset := noReset_of (m := .quiet) (by decide) rfl (by decide)
theorem waiting_noReset : waiting.NoReset := noReset_of (m := .quiet) (by decide) rfl (by decide)
theorem session_noReset : (session 0 []).NoReset := noReset_of (m := .quiet) (by decide) rfl (by decide)
theorem base_noReset : base.NoReset := noReset_of (m := .quiet) (by decide) rfl (by decide)

/-- `StepRunsTheDecodedRequest`, both clauses. -/
theorem witness_stepRuns :
    (base.withRequest [0x12#8]).Idle ∧ (base.withRequest [0x12#8]).env.moveAt 0 ≠ .reset ∧
    (base.withRequest [0x12#8]).nextRequest = some [0x12#8] ∧ decode [0x12#8] = .ok (.pktEncodeHeader, []) ∧
    Instr.pktEncodeHeader.wf (base.withRequest [0x12#8]).cfg = true ∧
    (base.withRequest [0x12#8]).requests = [0x12#8] :: [] ∧ (base.withRequest [0x12#8]).env.sched = .quiet :: [] := by
  decide

/-- `StepWithoutARequest`, each clause: idle, in progress, and held. -/
theorem witness_stepWithout :
    (base.Idle ∧ base.env.moveAt 0 ≠ .reset ∧ base.nextRequest = none) ∧
    (¬ (after .adcStop base).Idle ∧ (after .adcStop base).NoReset) ∧
    ((after .adcStop base).todo =
        .waitDrdy :: [.xfer 0x0F#8 false, .cs .released, .setRunning false, .finish .unit] ∧
      (after .adcStop base).env.moveAt 0 ≠ .reset) :=
  ⟨by decide, ⟨by decide, noReset_of (m := .quiet) (by decide) rfl (by decide)⟩, by decide⟩

/-- `ResetTakesOneStep`, idle and held. -/
theorem witness_reset :
    { base with env := { quietly with sched := [.reset] } }.env.moveAt 0 = .reset ∧
    { after .adcStop base with env := { quietly with sched := [.reset] } }.env.moveAt 0 = .reset := by
  decide

/-- `UnassignedCodeIsBadOp`, at the codes beside assigned ones and at both ends. -/
theorem witness_badOp :
    ∀ op ∈ [0x00#8, 0x06#8, 0x0F#8, 0x15#8, 0x2C#8, 0x36#8, 0xFF#8],
      (base.withRequest [op]).Idle ∧ (base.withRequest [op]).env.moveAt 0 ≠ .reset ∧
      (base.withRequest [op]).nextRequest = some (op :: []) ∧
      op.toNat ∉ [0x01, 0x02, 0x03, 0x04, 0x05, 0x10, 0x11, 0x12, 0x13, 0x14, 0x20, 0x21, 0x22, 0x23, 0x24, 0x25, 0x26,
        0x27, 0x28, 0x29, 0x2A, 0x2B, 0x30, 0x31, 0x32, 0x33, 0x34, 0x35] := by
  decide

/-- `FrameLengthBounds`, second clause: the bounds at 254 and 255 bytes. -/
theorem witness_frameLength :
    (cobsEncode false (List.replicate 254 1#8)).length = 256 ∧ (cobsEncode false (List.replicate 255 1#8)).length = 258 ∧
    List.replicate 254 1#8 ≠ [] ∧ List.replicate 255 1#8 ≠ [] := by
  decide +kernel

/-- `CobsDecStopsAtTerminator`. -/
theorem witness_cobsDecStops : cobsDecode [0x02#8, 0x11#8, 0x00#8] = .ok ([0x11#8], 3) := by decide

/-- `CobsDecRejectsMalformed`, both clauses, the second at its shortest block and where the zero is the last declared
byte. -/
theorem witness_cobsDecRejects :
    0x00#8 ∉ [0x03#8, 0x11#8] ∧ (0x00#8 ∉ ([] : List Byte) ∧ ([] : List Byte).length + 1 < (0x02#8).toNat) ∧
    (0x00#8 ∉ [0x11#8, 0x22#8] ∧ [0x11#8, 0x22#8].length + 1 < (0x04#8).toNat) := by
  decide

/-- `StreamResynchronises`: the bytes of program P6. -/
theorem witness_resync : 0x00#8 ∉ [0x33#8, 0x4F#8, 0xEE#8] := by decide

/-- `CrcIsLinear`. -/
theorem witness_crcLinear : ex1256.crcInit = 0#16 ∧ [0x12#8, 0x34#8].length = [0xFF#8, 0x01#8].length := by decide

/-- `CrcDetectsOneBit`, lowest and highest bit. -/
theorem witness_crcOneBit : ex1256.crcPoly = 0x1021#16 ∧ 0 < 8 ∧ 7 < 8 := by decide

/-- `ConfigureStoresTheMessage`, every operand at its greatest and its least. -/
theorem witness_configureStores :
    ((63#8).toNat ≤ 63 ∧ (15#8).toNat ≤ 15 ∧ (List.replicate 2047 0x00#8).length ≤ 2047) ∧
    ((0#8).toNat ≤ 63 ∧ (0#8).toNat ≤ 15 ∧ ([] : List Byte).length ≤ 2047) :=
  ⟨⟨by decide, by decide, List.length_replicate.le⟩, by decide⟩

/-- `ConfigureRefusesInOrder`, each clause at its boundary. -/
theorem witness_configureRefuses :
    63 < (64#8).toNat ∧ ((63#8).toNat ≤ 63 ∧ 15 < (16#8).toNat) ∧
    ((63#8).toNat ≤ 63 ∧ (15#8).toNat ≤ 15 ∧ 2047 < (List.replicate 2048 0x00#8).length) :=
  ⟨by decide, by decide, by decide, by decide, List.length_replicate.ge⟩

/-- `StampAssignsTheTime`, both clauses, at the greatest value that fits. -/
theorem witness_stampAssigns :
    ex1256.stampSentinel < 2 ^ 27 ∧ (clocked .ok 134217727).env.clockAnswer = (.ok, 134217727) ∧ 134217727 < 2 ^ 27 := by
  decide

/-- `StampRefuses`, each clause at its boundary. -/
theorem witness_stampRefuses :
    2 ^ 27 ≤ { ex1256 with stampSentinel := 134217728 }.stampSentinel ∧
    (clocked (.other 7) 1000).env.clockAnswer = (.other 7, 1000) ∧
    ((clocked .ok 134217728).env.clockAnswer = (.ok, 134217728) ∧ 2 ^ 27 ≤ 134217728) := by
  decide

/-- The message invariant holds of the message of program P1 in every phase. -/
theorem sending_msgOk (ph : Phase) : (sending ph).MsgOk where
  dlen_eq := rfl
  ms_iff := by cases ph <;> rfl
  hdr_iff := by cases ph <;> rfl
  csum_iff := by cases ph <;> rfl
  pkt_iff := by cases ph <;> rfl
  hdr_eq := by
    intro h ms h1 h2
    cases ph <;> simp only [sending, message, Phase.reached, Phase.num] at h1 h2 <;> cases h1 <;> cases h2 <;>
      decide
  csum_eq := by
    intro c h h1 h2
    cases ph <;> simp only [sending, message, Phase.reached, Phase.num] at h1 h2 <;> cases h1
    cases h2
    decide +kernel
  pkt_eq := by
    intro p h h1 h2
    cases ph <;> simp only [sending, message, Phase.reached, Phase.num] at h1 h2 <;> cases h1
    cases h2
    decide +kernel

/-- `EncodeHeaderPacks`, both clauses at the phases where they meet. -/
theorem witness_encodeHeader :
    ((sending .configured).MsgOk ∧ (sending .configured).msg.phase.num < Phase.stamped.num) ∧
    (sending .stamped).MsgOk ∧ Phase.stamped.num ≤ (sending .stamped).msg.phase.num :=
  ⟨⟨sending_msgOk _, by decide⟩, sending_msgOk _, by decide⟩

/-- `PacketizeSeals`, both clauses at the phases where they meet. -/
theorem witness_packetize :
    ((sending .stamped).MsgOk ∧ (sending .stamped).msg.phase.num < Phase.headerPacked.num) ∧
    (sending .headerPacked).MsgOk ∧ Phase.headerPacked.num ≤ (sending .headerPacked).msg.phase.num :=
  ⟨⟨sending_msgOk _, by decide⟩, sending_msgOk _, by decide⟩

/-- `LifecycleTable`: each operation of the send path ends with `OK` somewhere. -/
theorem witness_lifecycle :
    (exec (.pktConfigure 5#8 3#8 []) base = .next (after (.pktConfigure 5#8 3#8 []) base) ∧
      answer (.pktConfigure 5#8 3#8 []) base = some (.ok .unit)) ∧
    (exec (.pktStamp true) base = .next (after (.pktStamp true) base) ∧ answer (.pktStamp true) base = some (.ok .unit)) ∧
    (exec .pktEncodeHeader (sending .stamped) = .next (after .pktEncodeHeader (sending .stamped)) ∧
      answer .pktEncodeHeader (sending .stamped) = some (.ok (.hdr hdr1000))) ∧
    (exec .pktPacketize (sending .headerPacked) = .next (after .pktPacketize (sending .headerPacked)) ∧
      answer .pktPacketize (sending .headerPacked) = some (.ok (.packet packet1000))) :=
  ⟨⟨rfl, rfl⟩, ⟨rfl, by decide⟩, ⟨rfl, test_pktEncodeHeader.1⟩, rfl, test_pktPacketize.1⟩

/-- `DepacketizeChecksInOrder`, first clause at its boundary. -/
theorem witness_depacketizeShort : (List.replicate 7 0x00#8).length < 8 := by decide

/-- `FinalizedPacketIsAccepted`. -/
theorem witness_finalized :
    (sending .finalized).MsgOk ∧ (sending .finalized).msg.phase = .finalized ∧
    (sending .finalized).msg.pkt = some packet1000 ∧ (sending .finalized).msg.ms = some 1000 ∧
    (sending .finalized).msg.csum = some 0xAB05#16 :=
  ⟨sending_msgOk _, rfl, rfl, rfl, rfl⟩

/-- `SendThenReceive`, every operand at its greatest, with the clock and with the sentinel. -/
theorem witness_send :
    (63#8).toNat ≤ 63 ∧ (15#8).toNat ≤ 15 ∧ (List.replicate 2047 0x00#8).length ≤ 2047 ∧
    (clocked .ok 86399999).env.clockAnswer = (.ok, 86399999) ∧
    86399999 = { base with cfg := { ex1256 with stampSentinel := 86399999 } }.cfg.stampSentinel ∧ 86399999 < 86400000 ∧
    base.cfg = (clocked .ok 86399999).cfg :=
  ⟨by decide, by decide, List.length_replicate.le, rfl, rfl, by decide, rfl⟩

/-- `OneFlippedBitIsRefused`: the first byte of the packet and the last. -/
theorem witness_flip :
    (sending .finalized).MsgOk ∧ (sending .finalized).cfg.crcPoly = 0x1021#16 ∧
    (sending .finalized).msg.phase = .finalized ∧
    (sending .finalized).msg.pkt = some ([] ++ 0x00#8 :: packet1000.tail) ∧
    (sending .finalized).msg.pkt = some (packet1000.take 9 ++ 0x05#8 :: []) ∧ 0 < 8 ∧ 7 < 8 :=
  ⟨sending_msgOk _, rfl, rfl, rfl, rfl, by decide, by decide⟩

/-- `AllZeroPacket`, at the first length past eight. -/
theorem witness_allZero : base.cfg.crcInit = 0#16 ∧ 8 < 9 := by decide

/-- `ErrorsLeaveTheRegisters`: an error without an event, and one after the `CLOCK()` event. -/
theorem witness_errors :
    (exec .pktPacketize base = .next (after .pktPacketize base) ∧
      answer .pktPacketize base = some (.err .pktErrNoHeader)) ∧
    (exec (.pktStamp false) (clocked (.other 7) 1000) = .next (after (.pktStamp false) (clocked (.other 7) 1000)) ∧
      answer (.pktStamp false) (clocked (.other 7) 1000) = some (.err (.pktErrClock (.other 7)))) :=
  ⟨⟨rfl, rfl⟩, rfl, rfl⟩

/-- `UnitsKeepToTheirState`: an ADC operation for the first clause, a packet operation and ADC_VCONV for the second. -/
theorem witness_units :
    (ready (ffs 3)).NoReset ∧
    (exec (.adcSetMux 1#8) (ready (ffs 3)) = .next (after (.adcSetMux 1#8) (ready (ffs 3))) ∧
      (Instr.adcSetMux 1#8).opcode.toNat ∉ [0x10, 0x11, 0x12, 0x13]) ∧
    (exec (.pktStamp true) (ready []) = .next (after (.pktStamp true) (ready [])) ∧
      (Instr.pktStamp true).opcode.toNat < 0x20) ∧
    (exec (.adcVconv 1#24) (ready []) = .next (after (.adcVconv 1#24) (ready [])) ∧
      (Instr.adcVconv 1#24).opcode.toNat = 0x35) :=
  ⟨noReset_of (m := .quiet) (by decide) rfl (by decide), ⟨rfl, by decide⟩, ⟨rfl, by decide⟩, rfl, by decide⟩

/-- `RegisterWritesEnd`, `RegisterReadEnds`, `ReadSingleEnds`, `StopEnds`: an edge remembered, and an edge to come; the
first register of the list and the last. -/
theorem witness_edgeReady :
    ((ready []).NoReset ∧ (ready []).EdgeReady) ∧ (waiting.NoReset ∧ waiting.EdgeReady ∧ waiting.adc.drdyFlag = false) ∧
    ∀ p ∈ [(Reg.status, 0#8), (Reg.io, 4#8)],
      p ∈ [(.status, ex1256.aStatus), (.mux, ex1256.aMux), (.adcon, ex1256.aAdcon), (.drate, ex1256.aDrate),
        (.io, ex1256.aIo)] :=
  ⟨⟨ready_noReset, by decide⟩, ⟨waiting_noReset, by decide⟩, by decide⟩

/-- `FieldSettersEnd`, both clauses. -/
theorem witness_fieldSetters :
    (ready []).NoReset ∧ (ready []).EdgeReady ∧ (ready []).adc.shAdcon = some 0x20#8 ∧
    { ready [] with adc := { (ready []).adc with shStatus := some 0x20#8 } }.adc.shStatus = some 0x20#8 :=
  ⟨ready_noReset, by decide⟩

/-- `NoShadowIsRefused`, each clause. -/
theorem witness_noShadow : base.adc.shAdcon = none ∧ base.adc.shStatus = none ∧ base.adc.pga = none := by decide

/-- `InsertionChangesOnlyTheField`, at the greatest value of a field, of one bit and of the whole byte. -/
theorem witness_insertion :
    (contiguous 0x60#8 = true ∧ fitsField 0x60#8 3#8 = true) ∧ (contiguous 0x80#8 = true ∧ fitsField 0x80#8 1#8 = true) ∧
    (contiguous 0xFF#8 = true ∧ fitsField 0xFF#8 0xFF#8 = true) := by
  decide

/-- `InitEnds`: an edge at every point, and none at any; the first of these ends, and so does the second, an edge given to
each of its five holds. -/
theorem witness_init :
    (edges.NoReset ∧ (∀ k < 53, edges.env.moveAt k = .edge) ∧ Ends .adcInit edges (after .adcInit edges)) ∧
    (base.adc.drdyFlag = false ∧ (∀ k, base.env.moveAt k = .quiet)) ∧
    ((fun s : State => stepped s.givenEdge)^[5] (after .adcInit base)).response = some (.ok .unit) :=
  ⟨⟨noReset_of (m := .edge) (by decide) rfl (by decide), fun k _ => moveAt_of rfl rfl k,
    ⟨_, rfl, .here _, by decide +kernel, by decide +kernel⟩⟩, ⟨rfl, moveAt_of rfl rfl⟩, by decide +kernel⟩

/-- `ReadContEnds` and `CycleFirstEnds`: outside a session and inside one. -/
theorem witness_sessions :
    ((ready []).NoReset ∧ (ready []).EdgeReady ∧ (ready []).adc.running = false) ∧
    ((session 0 []).NoReset ∧ (session 0 []).EdgeReady ∧ (session 0 []).adc.running = true) :=
  ⟨⟨ready_noReset, by decide⟩, session_noReset, by decide⟩

/-- `CycleStepEnds`, where the index wraps and where it does not. -/
theorem witness_cycleStep :
    (session 7 []).NoReset ∧ (session 7 []).EdgeReady ∧ (session 7 []).adc.running = true ∧
    (0 : Fin 8).val = ((session 7 []).adc.cycle.toNat + 1) % 8 ∧ (7 : Fin 8).val = ((session 6 []).adc.cycle.toNat + 1) % 8 ∧
    (0 : Fin 4).val = ((session 3 []).adc.cycle.toNat + 1) % 4 ∧ (1 : Fin 4).val = ((session 4 []).adc.cycle.toNat + 1) % 4 :=
  ⟨noReset_of (m := .quiet) (by decide) rfl (by decide), by decide⟩

/-- The states of consecutive invocations of an operation. -/
def invocations (i : Instr) (s : State) : Nat → State
  | 0 => s
  | k + 1 => after i (invocations i s k)

/-- A session at index `c` with an edge at every point of its schedule. -/
def edged (c : BitVec 3) : State :=
  { session c (ffs 80) with env := { (session c (ffs 80)).env with later := .always .edge } }

/-- `CyclesReturnToTheirStart`, both clauses; and an invocation that ends after it was held. -/
theorem witness_cycles :
    (∀ k < 8, Ends .adcCycleSe (invocations .adcCycleSe (edged 3) k) (invocations .adcCycleSe (edged 3) (k + 1))) ∧
    (∀ k < 4, Ends .adcCycleDiff (invocations .adcCycleDiff (edged 3) k)
      (invocations .adcCycleDiff (edged 3) (k + 1))) ∧
    (edged 3).adc.cycle.toNat < 4 ∧
    ∃ t, Ends .adcCycleSe { waiting with env := { quietly with sched := [.quiet, .quiet, .quiet, .quiet, .quiet, .quiet,
      .quiet, .quiet, .quiet, .quiet, .edge] } } t ∧ t.adc.cycle = 1 := by
  have h1 : ∀ k < 8, (invocations .adcCycleSe (edged 3) (k + 1)).Idle ∧
      (invocations .adcCycleSe (edged 3) (k + 1)).response ≠ none := by decide +kernel
  have h2 : ∀ k < 4, (invocations .adcCycleDiff (edged 3) (k + 1)).Idle ∧
      (invocations .adcCycleDiff (edged 3) (k + 1)).response ≠ none := by decide +kernel
  exact ⟨fun k hk => ⟨_, rfl, .here _, h1 k hk⟩, fun k hk => ⟨_, rfl, .here _, h2 k hk⟩, by decide,
    _, ⟨_, rfl, .further (by decide) rfl (.here _), by decide, by decide⟩, by decide⟩

/-- `VconvIsExact`. -/
theorem witness_vconv : (ready []).adc.pga = some 0 ∧ 0 < (ready []).cfg.vref := by decide +kernel

/-- `EdgeSetsTheFlag`, with the handler installed and without. -/
theorem witness_edge :
    (waiting.Idle ∧ waiting.nextRequest = none ∧ waiting.env.moveAt 0 = .edge ∧ waiting.adc.irqEn = true) ∧
    (edges.Idle ∧ edges.nextRequest = none ∧ edges.env.moveAt 0 = .edge ∧ edges.adc.irqEn = false) := by
  decide

/-- `OneEdgeServesOneWait`, each clause. -/
theorem witness_oneEdge :
    ((ready []).adc.drdyFlag = true ∧ (∀ k, (ready []).env.moveAt k = .quiet)) ∧
    ((∀ i ∈ [Instr.adcSetPga 7#8, .adcSetAcal true, .adcCycleDiff], Waits i ∧ i ≠ .adcInit ∧ (ready []).HasShadow i ∧
      (after i (ready [])).HasShadow .adcInit) ∧ Waits .adcInit) ∧
    ((edged 3).adc.drdyFlag = true ∧ (edged 3).adc.irqEn = true ∧ ∀ k, (edged 3).env.moveAt k = .edge) ∧
    (let s := { ready [] with env := { quietly with sched := [.quiet, .edge] } }
     s.adc.drdyFlag = true ∧ s.NoReset ∧ s.adc.irqEn = true ∧ s.env.moveAt 1 = .edge) :=
  ⟨⟨rfl, moveAt_of rfl rfl⟩, ⟨by decide, by decide⟩, ⟨rfl, rfl, moveAt_of rfl rfl⟩,
    rfl, noReset_of (m := .quiet) (by decide) rfl (by decide), rfl, rfl⟩

/-- `WaitWithoutEdgeNeverEnds`, no edge to come, and edges without a handler. -/
theorem witness_noEdge :
    (base.NoReset ∧ base.adc.drdyFlag = false ∧ Waits .adcInit ∧ base.HasShadow .adcInit ∧
      ∀ k, base.env.moveAt k ≠ .edge) ∧
    (edges.NoReset ∧ edges.adc.irqEn = false ∧ Waits .adcStop ∧ edges.HasShadow .adcStop ∧ Instr.adcStop ≠ .adcInit) ∧
    (Waits (.adcSetSdcs 3#8) ∧ waiting.HasShadow (.adcSetSdcs 3#8) ∧ waiting.HasShadow (.adcSetOrder true)) :=
  ⟨⟨base_noReset, rfl, by decide, by decide, fun k => by rw [moveAt_of (m := .quiet) rfl rfl]; decide⟩,
    ⟨noReset_of (m := .edge) (by decide) rfl (by decide), rfl, by decide, by decide, by decide⟩, by decide⟩

/-- `EdgeLiftsTheHold`: a stop that is held, one that ends after a hold, and a schedule of edges without end. -/
theorem witness_lift :
    (let s := { ready [] with adc := { (ready []).adc with drdyFlag := false } }
     s.Idle ∧ s.NoReset ∧ exec .adcStop s = .next (after .adcStop s) ∧ (after .adcStop s).Held ∧ s.adc.irqEn = true) ∧
    (let s := { waiting with env := { quietly with sched := [.quiet, .edge] } }
     s.Idle ∧ s.NoReset ∧ Ends .adcStop s (stepped (after .adcStop s))) ∧
    (edges.Idle ∧ edges.NoReset ∧ (Waits .adcInit → edges.adc.irqEn = true ∨ Instr.adcInit = .adcInit) ∧
      ∀ k, ∃ j ≥ k, edges.env.moveAt j = .edge) :=
  ⟨⟨rfl, noReset_of (m := .quiet) (by decide) rfl (by decide), rfl, rfl, rfl⟩,
    ⟨rfl, noReset_of (m := .quiet) (by decide) rfl (by decide), _, rfl, .further (by decide) rfl (.here _), by decide,
      by decide⟩,
    rfl, noReset_of (m := .edge) (by decide) rfl (by decide), fun _ => .inr rfl, fun k => ⟨k, le_rfl, moveAt_of rfl rfl k⟩⟩

/-- `StepKeepsTheMessage`: the packet's completion by a step. -/
theorem witness_keepsMessage :
    ((sending .headerPacked).withRequest [0x13#8]).MsgOk ∧
    step ((sending .headerPacked).withRequest [0x13#8]) = .next (after .pktPacketize (sending .headerPacked)) :=
  have h := sending_msgOk .headerPacked
  ⟨⟨h.1, h.2, h.3, h.4, h.5, h.6, h.7, h.8⟩, rfl⟩

/-- `StepKeepsThePosition` and `StepKeepsTheFlag`: a held operation that an edge lifts. -/
theorem witness_keepsPosition :
    (after .adcStop base).PositionOk ∧ (after .adcStop base).FlagOk ∧
    step (after .adcStop base) = .next (after .adcStop base) :=
  ⟨⟨fun _ => rfl, fun _ => ⟨[.waitDrdy, .xfer 0x0F#8 false, .cs .released, .setRunning false], .unit, rfl, by simp⟩,
    fun _ => rfl, fun h => absurd h (by decide)⟩, fun h => absurd h (by decide), rfl⟩

/-- `StepKeepsTheExponent`: a gain setter taken by a step. -/
theorem witness_keepsExponent :
    ((ready []).withRequest [0x25#8, 0x07#8]).cfg.wf = true ∧ ((ready []).withRequest [0x25#8, 0x07#8]).PgaOk ∧
    step ((ready []).withRequest [0x25#8, 0x07#8]) = .next (after (.adcSetPga 7#8) (ready [])) :=
  ⟨test_wf_profile, ⟨by rintro e ⟨⟩; decide, by simp [State.withRequest]⟩, rfl⟩

/-- `StepKeepsConfigurationAndHandler`. -/
theorem witness_keepsHandler :
    step (ready []) = .next (stepped (ready [])) ∧ (ready []).NoReset ∧ (ready []).adc.irqEn = true :=
  ⟨rfl, ready_noReset, rfl⟩

/-- `OnlySessionsTouchRunning`: a session opened and one closed, in the operation's own step and in a later one. -/
theorem witness_running :
    ((ready []).NoReset ∧ (ready []).Idle ∧ exec .adcReadCont (ready []) = .next (after .adcReadCont (ready [])) ∧
      (ready []).adc.running = false ∧ (after .adcReadCont (ready [])).adc.running = true) ∧
    (exec .adcStop (session 0 []) = .next (after .adcStop (session 0 [])) ∧ (session 0 []).adc.running = true ∧
      (after .adcStop (session 0 [])).adc.running = false) ∧
    (let s := { waiting with adc := { waiting.adc with running := true }, env := { quietly with sched := [.quiet, .edge] } }
     let t := after .adcStop s
     s.NoReset ∧ s.Idle ∧ exec .adcStop s = .next t ∧ GoesOn t (stepped t) ∧
       t.NoReset ∧ ¬ t.Idle ∧ step t = .next (stepped t) ∧ t.adc.running = true ∧ (stepped t).adc.running = false) :=
  ⟨⟨ready_noReset, rfl, rfl, rfl, rfl⟩, ⟨rfl, rfl, rfl⟩,
    noReset_of (m := .quiet) (by decide) rfl (by decide), rfl, rfl, .further (by decide) rfl (.here _),
    noReset_of (m := .quiet) (by decide) rfl (by decide), by decide, rfl, rfl, rfl⟩

end Sys2Proof.Tests
end

section
/-! SUPPORT. What a step and an operation can do, said once, one case for each (20_memory R72, 60_exceptions R270, R296), and
what a run does to the registers that the invariants of the state speak of. -/

namespace Sys2Proof.Machine

/-! The cases of a step -/

/-- What a step that answers a next state did, and when (R72, R296, R310). -/
inductive StepCase (s : State) : State → Prop
  | goesOn (hi : ¬ s.Idle) : StepCase s (run s.todo s)
  | resets (hi : s.Idle) (hm : s.env.moveAt 0 = .reset) : StepCase s s.tick.applyReset
  | passes (hi : s.Idle) (hm : s.env.moveAt 0 ≠ .reset) (hq : s.nextRequest = none) : StepCase s s.tick.takeRequest
  | badOp (hi : s.Idle) (hm : s.env.moveAt 0 ≠ .reset) {bytes : List Byte} (hq : s.nextRequest = some bytes) {op : Byte}
      (hd : decode bytes = .error (.unassignedOp op)) : StepCase s (s.tick.takeRequest.raise .errBadOp)
  | starts (hi : s.Idle) (hm : s.env.moveAt 0 ≠ .reset) {bytes : List Byte} (hq : s.nextRequest = some bytes) {i : Instr}
      {rest : List Byte} (hd : decode bytes = .ok (i, rest)) (hw : i.wf s.cfg = true) {t : State}
      (hx : exec i s.tick.takeRequest = .next t) : StepCase s t

theorem step_cases {s t : State} (h : step s = .next t) : StepCase s t := by
  by_cases hi : s.Idle
  swap
  · rw [step_of_not_idle hi] at h
    cases h
    exact .goesOn hi
  by_cases hm : s.env.moveAt 0 = .reset
  · simp only [step, State.fetch, hi, hm] at h
    cases h
    exact .resets hi hm
  cases hq : s.nextRequest with
  | none =>
    simp only [step, State.fetch, hi, hm, hq] at h
    cases h
    exact .passes hi hm hq
  | some bytes =>
    simp only [step, State.fetch, State.accept, hi, hm, hq, ne_eq, not_true, if_false] at h
    rcases hd : decode bytes with (⟨op⟩ | _ | _) | ⟨i, rest⟩
    case ok =>
      rw [hd] at h
      by_cases hw : i.wf s.cfg = true
      · exact .starts hi hm hq hd hw (by simpa [hw] using h)
      · simp [hw] at h
    case error.unassignedOp =>
      rw [hd] at h
      cases h
      exact .badOp hi hm hq hd
    all_goals simp [hd] at h

/-! The cases of an operation -/

/-- The operations that write no register: of the COBS and CRC units, the header codec, the receive path, and ADC_VCONV (R24,
R130, R250). -/
abbrev Stateless (i : Instr) : Prop := i.opcode.toNat < 0x10 ∨ i.opcode.toNat = 0x14 ∨ i.opcode.toNat = 0x35

/-- The message that a successful operation of the send path makes of a message, and from which (R173 to R176, R179). -/
inductive MsgWrite (c : Config) (m : Msg) : Instr → Msg → Prop
  | configure {topic command : Byte} {payload : List Byte} (ht : topic.toNat ≤ 63) (hc : command.toNat ≤ 15)
      (hl : payload.length ≤ 2047) :
      MsgWrite c m (.pktConfigure topic command payload) (m.configure topic command payload)
  | stamp (disable : Bool) {v : Nat} (hv : v < 2 ^ 27) : MsgWrite c m (.pktStamp disable) (m.stamp v)
  | packHeader (ms : BitVec 27) (hp : Phase.stamped.reached m.phase = true) (hm : m.ms = some ms) :
      MsgWrite c m .pktEncodeHeader (m.packHeader (hdrEncode ms m.topic m.cmd m.dlen))
  | finalize (h : Hdr) (hp : Phase.headerPacked.reached m.phase = true) (hh : m.hdr = some h) :
      MsgWrite c m .pktPacketize
        (m.finalize (crcOf c (hdrBytes h ++ m.payload)) (sealPacket c (hdrBytes h ++ m.payload)))

/-- What operation `i` from state `s` did, by the state it left: a result from a stateless operation, an error, a result of
the send path with the message it wrote, or the start of an operation that waits. Before an error or a result of PKT_STAMP the
clock may have been read (R174). -/
inductive ExecCase (i : Instr) (s : State) : State → Prop
  | answers (r : Result) (hi : Stateless i) : ExecCase i s (s.reply r)
  | refuses (e : ErrCode) {u : State} (hu : u = s ∨ i = .pktStamp false ∧ u = s.readClock) : ExecCase i s (u.raise e)
  | sends (r : Result) {u : State} (hu : u = s ∨ i = .pktStamp false ∧ u = s.readClock) {m : Msg}
      (hm : MsgWrite s.cfg s.msg i m) : ExecCase i s (State.reply r { u with msg := m })
  | starts {pre post : List Action} (e : Ending) (hi : Waits i) (hs : WaitShape i pre post) :
      ExecCase i s (s.startOp (cutActions pre post e))

theorem exec_of_shAdcon_none {s : State} (h : s.adc.shAdcon = none) (v : Byte) :
    exec (.adcSetPga v) s = .next (s.raise .adcErrNoShadow) ∧
    exec (.adcSetClkout v) s = .next (s.raise .adcErrNoShadow) ∧
    exec (.adcSetSdcs v) s = .next (s.raise .adcErrNoShadow) := by
  simp [exec, execAdcSetPga, execAdcSetClkout, execAdcSetSdcs, State.setField, Adc.shadow, h]

theorem exec_of_shStatus_none {s : State} (h : s.adc.shStatus = none) (b : Bool) :
    exec (.adcSetOrder b) s = .next (s.raise .adcErrNoShadow) ∧
    exec (.adcSetAcal b) s = .next (s.raise .adcErrNoShadow) ∧
    exec (.adcSetBufen b) s = .next (s.raise .adcErrNoShadow) := by
  simp [exec, execAdcSetOrder, execAdcSetAcal, execAdcSetBufen, State.setField, Adc.shadow, h]

/-- An operation whose shadow holds no value is refused (R205). -/
theorem exec_of_not_hasShadow {i : Instr} {s : State} (h : ¬ s.HasShadow i) :
    exec i s = .next (s.raise .adcErrNoShadow) := by
  cases i with
  | adcSetPga v | adcSetClkout v | adcSetSdcs v =>
    have ha : s.adc.shAdcon = none := by simpa [State.HasShadow, Instr.opcode] using h
    simp only [exec_of_shAdcon_none ha]
  | adcSetOrder b | adcSetAcal b | adcSetBufen b =>
    have ha : s.adc.shStatus = none := by simpa [State.HasShadow, Instr.opcode] using h
    simp only [exec_of_shStatus_none ha]
  | _ => exact absurd (by simp [State.HasShadow, Instr.opcode]) h

theorem execCase_of_waits {i : Instr} {s t : State} (hw : Waits i) (hx : exec i s = .next t) : ExecCase i s t := by
  by_cases hs : s.HasShadow i
  · obtain ⟨pre, post, e, hst, hsh⟩ := startsWait_of_waits hw hs
    rw [hst.exec_eq] at hx
    cases hx
    exact .starts e hw hsh
  · rw [exec_of_not_hasShadow hs] at hx
    cases hx
    exact .refuses _ (.inl rfl)

theorem execCase_pktConfigure (topic command : Byte) (payload : List Byte) (s t : State)
    (hx : exec (.pktConfigure topic command payload) s = .next t) : ExecCase (.pktConfigure topic command payload) s t := by
  simp only [exec, execPktConfigure] at hx
  cases hx
  split_ifs with h1 h2 h3
  · exact .refuses _ (.inl rfl)
  · exact .refuses _ (.inl rfl)
  · exact .refuses _ (.inl rfl)
  · exact .sends .unit (.inl rfl) (.configure (by omega) (by omega) (by omega))

theorem execCase_stampWith {disable : Bool} {s u : State}
    (hu : u = s ∨ Instr.pktStamp disable = .pktStamp false ∧ u = s.readClock) (v : Nat) :
    ExecCase (.pktStamp disable) s (u.stampWith v) := by
  have hm : u.msg = s.msg := by rcases hu with rfl | ⟨-, rfl⟩ <;> rfl
  unfold State.stampWith
  split
  · exact .refuses _ hu
  · rename_i hv
    rw [hm]
    exact .sends .unit hu (.stamp disable (by omega))

theorem execCase_pktStamp (disable : Bool) (s t : State) (hx : exec (.pktStamp disable) s = .next t) :
    ExecCase (.pktStamp disable) s t := by
  simp only [exec, execPktStamp] at hx
  cases hx
  cases disable with
  | true => exact execCase_stampWith (.inl rfl) _
  | false =>
    rw [if_neg (by decide)]
    split
    · exact .refuses _ (.inr ⟨rfl, rfl⟩)
    · exact execCase_stampWith (.inr ⟨rfl, rfl⟩) _

theorem execCase_pktEncodeHeader (s t : State) (hx : exec .pktEncodeHeader s = .next t) :
    ExecCase .pktEncodeHeader s t := by
  simp only [exec, execPktEncodeHeader] at hx
  cases hx
  split
  · rename_i hp hm
    exact .sends _ (.inl rfl) (.packHeader _ hp hm)
  · exact .refuses _ (.inl rfl)

theorem execCase_pktPacketize (s t : State) (hx : exec .pktPacketize s = .next t) : ExecCase .pktPacketize s t := by
  simp only [exec, execPktPacketize] at hx
  cases hx
  split
  · rename_i hp hh
    split
    · exact .refuses _ (.inl rfl)
    · exact .sends _ (.inl rfl) (.finalize _ hp hh)
  · exact .refuses _ (.inl rfl)

/-- A stateless operation ends at once, with a result or an error code. -/
theorem execCase_of_stateless {i : Instr} {s t : State} (hi : Stateless i) (hx : exec i s = .next t) : ExecCase i s t := by
  cases i with
  | cobsEnc raw | crc16 data | hdrEnc ms topic command dlen | hdrDec h =>
    cases hx
    exact .answers _ hi
  | cobsDec frame =>
    simp only [exec, execCobsDec] at hx
    cases hx
    split
    · exact .answers _ hi
    · exact .refuses _ (.inl rfl)
  | pktDepacketize bs =>
    simp only [exec, execPktDepacketize] at hx
    cases hx
    split
    · exact .answers _ hi
    · exact .refuses _ (.inl rfl)
  | adcVconv raw24 =>
    simp only [exec, execAdcVconv] at hx
    cases hx
    split
    · exact .refuses _ (.inl rfl)
    · exact .answers _ hi
  | _ => exact absurd hi (by simp [Stateless, Instr.opcode])

theorem exec_cases {i : Instr} {s t : State} (hx : exec i s = .next t) : ExecCase i s t := by
  by_cases hw : Waits i
  · exact execCase_of_waits hw hx
  by_cases hi : Stateless i
  · exact execCase_of_stateless hi hx
  cases i with
  | pktConfigure topic command payload => exact execCase_pktConfigure _ _ _ _ _ hx
  | pktStamp disable => exact execCase_pktStamp _ _ _ hx
  | pktEncodeHeader => exact execCase_pktEncodeHeader _ _ hx
  | pktPacketize => exact execCase_pktPacketize _ _ hx
  | _ => exact (not_or.2 ⟨hw, hi⟩ (by simp [Stateless, Waits, Instr.opcode])).elim

/-- All but the message and what the interfaces show: state `t` has the configuration, the ADC device state, the line and the
position of `s`. -/
structure State.Keeps (s t : State) : Prop where
  cfg : t.cfg = s.cfg
  adc : t.adc = s.adc
  cs : t.cs = s.cs
  todo : t.todo = s.todo
  rx : t.rx = s.rx

/-- An operation keeps all that, or it waits and starts a run (R72). -/
theorem exec_keeps_or_starts {i : Instr} {s t : State} (hx : exec i s = .next t) :
    s.Keeps t ∨ ∃ pre post e, Waits i ∧ WaitShape i pre post ∧ t = s.startOp (cutActions pre post e) := by
  cases exec_cases hx with
  | answers => exact .inl ⟨rfl, rfl, rfl, rfl, rfl⟩
  | refuses e hu => rcases hu with rfl | ⟨-, rfl⟩ <;> exact .inl ⟨rfl, rfl, rfl, rfl, rfl⟩
  | sends r hu hm => rcases hu with rfl | ⟨-, rfl⟩ <;> exact .inl ⟨rfl, rfl, rfl, rfl, rfl⟩
  | starts e hw hs => exact .inr ⟨_, _, e, hw, hs, rfl⟩

theorem exec_keeps {i : Instr} {s t : State} (hi : ¬ Waits i) (hx : exec i s = .next t) : s.Keeps t :=
  (exec_keeps_or_starts hx).resolve_right fun ⟨_, _, _, hw, _⟩ => hi hw

/-! What a run does to the registers of the device state -/

theorem act_running {a : Action} (ha : ∀ b, a ≠ .setRunning b) (s : State) : (s.act a).adc.running = s.adc.running := by
  cases a with
  | setRunning b => exact absurd rfl (ha b)
  | setShadow r v => exact Adc.setShadow_running _ _ _
  | _ => rfl

theorem act_pga {a : Action} (ha : ∀ e, a ≠ .setPga e) (s : State) : (s.act a).adc.pga = s.adc.pga := by
  cases a with
  | setPga e => exact absurd rfl (ha e)
  | setShadow r v => exact Adc.setShadow_pga _ _ _
  | _ => rfl

theorem tick_running (s : State) : s.tick.adc.running = s.adc.running := by
  simp only [State.tick_adc]
  split <;> simp

theorem tick_pga (s : State) : s.tick.adc.pga = s.adc.pga := by
  simp only [State.tick_adc]
  split <;> simp

theorem tick_irqEn (s : State) : s.tick.adc.irqEn = s.adc.irqEn := by
  simp only [State.tick_adc]
  split <;> simp

/-- Without a reset a run leaves RUNNING as it was or as one of its actions sets it (R35). -/
theorem run_running (acts : List Action) {s : State} (hr : s.NoReset) :
    (run acts s).adc.running = s.adc.running ∨ Action.setRunning (run acts s).adc.running ∈ acts := by
  refine (run_preserves_noReset (P := fun t => t.adc.running = s.adc.running ∨ .setRunning t.adc.running ∈ acts) acts
    (fun t h => by rwa [tick_running]) (fun a t ha h => ?_) (fun _ _ _ h => h) (fun _ h => h) s hr (.inl rfl)).1
  by_cases hb : ∃ b, a = .setRunning b
  · obtain ⟨b, rfl⟩ := hb
    exact .inr ha
  · rwa [act_running (not_exists.1 hb)]

/-- RUNNING changes in a run without a reset only by an action that sets it to its new value. -/
theorem setRunning_mem_of_run {acts : List Action} {s : State} {b : Bool} (hr : s.NoReset) (hs : s.adc.running ≠ b)
    (ht : (run acts s).adc.running = b) : Action.setRunning b ∈ acts := by
  rcases run_running acts hr with h | h
  · exact absurd (h.symm.trans ht) hs
  · rwa [ht] at h

/-- What a run leaves to do stands at the end of what it had to do (R45). -/
theorem run_todo_suffix (acts : List Action) (s : State) : (run acts s).todo <:+ acts := by
  rcases run_todo acts s with h | ⟨as, h, hs⟩ <;> rw [h]
  · exact List.nil_suffix
  · exact hs

theorem noReset_takeRequest {s : State} (h : s.NoReset) : s.tick.takeRequest.NoReset := by
  simpa only [State.NoReset, State.takeRequest_env] using noReset_tick h

/-! Which actions set RUNNING (R35, R242, R243, R246, R206) -/

/-- The session reads (R35). -/
abbrev OpensSession (i : Instr) : Prop := i = .adcReadCont ∨ i = .adcCycleSe ∨ i = .adcCycleDiff

/-- The operations that end a session (R35). -/
abbrev ClosesSession (i : Instr) : Prop := i = .adcStop ∨ i = .adcInit

section
variable {i : Instr} {pre post : List Action} (h : WaitShape i pre post) (e : Ending)
include h

theorem WaitShape.start_of_mem (hm : Action.setRunning true ∈ cutActions pre post e) : OpensSession i :=
  h.pre_start (by simpa [cutActions, h.post_start] using hm)

theorem WaitShape.stop_of_mem (hm : Action.setRunning false ∈ cutActions pre post e) : ClosesSession i :=
  h.post_stop (by simpa [cutActions, h.pre_stop] using hm)

/-- When an operation is held, what stood before its first wait is done. -/
theorem WaitShape.todo_subset {s : State} (hr : s.NoReset) :
    (s.startOp (cutActions pre post e)).todo ⊆ .waitDrdy :: (post ++ [.finish e]) := by
  obtain ⟨t, ht, -⟩ := startOp_cut e h hr
  rw [ht]
  exact (run_todo_suffix _ t).subset

end

end Sys2Proof.Machine
end

section
/-! PROOFS. The invariants of the state and the registers each unit keeps to: the obligations of the state (10_state.md). -/

namespace Sys2Proof.Machine

/-! ## The message -/

theorem State.MsgOk.congr {s t : State} (h : s.MsgOk) (hm : t.msg = s.msg) (hc : t.cfg = s.cfg) : t.MsgOk := by
  obtain ⟨hdlen, hms, hhdr, hcsum, hpkt, hdrEq, csumEq, pktEq⟩ := h
  rw [← hm] at hdlen hms hhdr hcsum hpkt hdrEq csumEq pktEq
  rw [← hc] at csumEq pktEq
  exact ⟨hdlen, hms, hhdr, hcsum, hpkt, hdrEq, csumEq, pktEq⟩

theorem msgOk_of_reset {s : State} (hm : s.msg = Msg.reset) : s.MsgOk := by
  constructor <;> simp [hm, Msg.reset, Phase.reached, Phase.num]

theorem Phase.reached_stamped_of_headerPacked {p : Phase} (h : Phase.headerPacked.reached p = true) :
    Phase.stamped.reached p = true := by
  simp only [Phase.reached, decide_eq_true_eq] at h ⊢
  exact le_trans (by decide) h

/-- A message that an operation of the send path writes meets the invariants, when the one before did (R22, R23). Of the
products after its own the operation leaves none, its own holds what it computed, and those before it are kept: PKT_PACKETIZE
alone keeps two of them, so that it needs the stamp's presence and the header's contents from before. -/
theorem State.MsgOk.write {i : Instr} {s t : State} (h : s.MsgOk) (hw : MsgWrite s.cfg s.msg i t.msg)
    (hc : t.cfg = s.cfg) : t.MsgOk := by
  generalize hm : t.msg = m at hw
  cases hw with
  | @configure _ _ payload _ _ hl =>
    have : payload.length % 2048 = payload.length := Nat.mod_eq_of_lt (by omega)
    constructor <;> simp [hm, this, Phase.reached, Phase.num]
  | stamp => constructor <;> simp [hm, h.dlen_eq, Phase.reached, Phase.num]
  | packHeader ms hp hms =>
    constructor <;> simp [hm, h.dlen_eq, hms, Phase.reached, Phase.num]
  | finalize hd hp hh =>
    have hs : s.msg.ms.isSome = true := h.ms_iff.trans (Phase.reached_stamped_of_headerPacked hp)
    constructor <;> simp [hm, hc, h.dlen_eq, hs, hh, Phase.reached, Phase.num]
    exact fun h' ms hd' hms => h.hdr_eq h' ms (hh.trans (congrArg some hd')) hms

theorem msgOk_run (acts : List Action) {s : State} (h : s.MsgOk) : (run acts s).MsgOk :=
  (run_msg acts s).elim (fun hm => h.congr hm (run_cfg acts s)) msgOk_of_reset

theorem msgOk_exec {i : Instr} {s t : State} (h : s.MsgOk) (hx : exec i s = .next t) : t.MsgOk := by
  cases exec_cases hx with
  | answers => exact h.congr rfl rfl
  | refuses e hu => rcases hu with rfl | ⟨-, rfl⟩ <;> exact h.congr rfl rfl
  | sends r hu hm => rcases hu with rfl | ⟨-, rfl⟩ <;> exact h.write hm rfl
  | starts => exact msgOk_run _ (h.congr rfl rfl)

/-- Settles O54: a run writes no message but the reset one, and each write of the send path keeps the invariants. -/
theorem stepKeepsTheMessage : Obligations.StepKeepsTheMessage := by
  intro s t h hs
  have hq : s.tick.takeRequest.MsgOk := h.congr (by simp) (by simp)
  cases step_cases hs with
  | goesOn => exact msgOk_run _ h
  | resets => exact msgOk_of_reset rfl
  | passes => exact hq
  | badOp => exact hq.congr rfl rfl
  | starts _ _ _ _ _ hx => exact msgOk_exec hq hx

/-! ## The position -/

theorem positionOk_of_idle {s : State} (ht : s.todo = []) (hx : s.rx = []) : s.PositionOk :=
  ⟨fun h => absurd ht h, fun h => absurd ht h, fun h => absurd ht h, fun _ => hx⟩

/-- A run whose last action alone ends the operation leaves a well-formed position, when no response was given before. -/
theorem positionOk_run {as : List Action} (e : Ending) (h : ∀ f, Action.finish f ∉ as) {s : State}
    (hn : s.response = none) : (run (as ++ [.finish e]) s).PositionOk := by
  induction as generalizing s with
  | nil =>
    rw [List.nil_append, run_cons]
    split_ifs with hm ha
    · exact positionOk_of_idle rfl rfl
    · exact absurd ha.1 (by simp)
    · exact positionOk_of_idle rfl rfl
  | cons a as ih =>
    rw [List.cons_append, run_cons]
    split_ifs with hm ha
    · exact positionOk_of_idle rfl rfl
    · exact ⟨fun _ => by rw [ha.1]; rfl, fun _ => ⟨a :: as, e, rfl, h⟩, fun _ => hn, fun h0 => by simp at h0⟩
    · refine ih (fun f hf => h f (List.mem_cons_of_mem _ hf)) ?_
      rw [act_response fun f hf => h f (hf ▸ List.mem_cons_self)]
      exact hn

theorem positionOk_exec {i : Instr} {s t : State} (ht : s.todo = []) (hr : s.rx = []) (hx : exec i s = .next t) :
    t.PositionOk := by
  rcases exec_keeps_or_starts hx with hk | ⟨pre, post, e, -, hs, rfl⟩
  · exact positionOk_of_idle (hk.todo.trans ht) (hk.rx.trans hr)
  · rw [show cutActions pre post e = (pre ++ .waitDrdy :: post) ++ [.finish e] by simp [cutActions]]
    exact positionOk_run e (by simp [hs.pre_finish, hs.post_finish]) rfl

/-- Settles O55: a run over actions that end in the only `finish` ends idle or is held before it. -/
theorem stepKeepsThePosition : Obligations.StepKeepsThePosition := by
  intro s t h hs
  have todo (hi : s.Idle) : s.tick.takeRequest.todo = [] := by simpa using hi
  have rx (hi : s.Idle) : s.tick.takeRequest.rx = [] := by simpa using h.no_answers hi
  cases step_cases hs with
  | goesOn hi =>
    obtain ⟨as, e, hd, hf⟩ := h.ends hi
    rw [hd]
    exact positionOk_run e hf (h.no_response hi)
  | resets => exact positionOk_of_idle rfl rfl
  | passes hi => exact positionOk_of_idle (todo hi) (rx hi)
  | badOp hi => exact positionOk_of_idle (todo hi) (rx hi)
  | starts hi _ _ _ _ hx => exact positionOk_exec (todo hi) (rx hi) hx

/-! ## The lifecycle -/

/-- A result of an operation of the send path comes with the message it writes (R179). -/
theorem msgWrite_of_ok {i : Instr} {s t : State} {r : Result} (hx : exec i s = .next t) (hr : t.response = some (.ok r))
    (h1 : ¬ Stateless i) (h2 : ¬ Waits i) : MsgWrite s.cfg s.msg i t.msg := by
  cases exec_cases hx with
  | answers _ hi => exact absurd hi h1
  | refuses e hu => simp at hr
  | sends _ _ hm => exact hm
  | starts _ hi => exact absurd hi h2

/-- The phases of the lifecycle table, of the message written (R179). -/
theorem MsgWrite.lifecycle {c : Config} {m m' : Msg} {i : Instr} (h : MsgWrite c m i m') :
    (∀ topic command payload, i = .pktConfigure topic command payload → m'.phase = .configured) ∧
    (∀ disable, i = .pktStamp disable → m'.phase = .stamped) ∧
    (i = .pktEncodeHeader → Phase.stamped.num ≤ m.phase.num ∧ m'.phase = .headerPacked) ∧
    (i = .pktPacketize → Phase.headerPacked.num ≤ m.phase.num ∧ m'.phase = .finalized) := by
  cases h with
  | configure | stamp => simp
  | packHeader _ hp | finalize _ hp => simpa [Phase.reached] using hp

/-- Settles O29, by the message that each result of the send path comes with. -/
theorem lifecycleTable : Obligations.LifecycleTable := by
  intro i s t r hx hr
  by_cases hi : Stateless i ∨ Waits i
  · refine ⟨?_, ?_, ?_, ?_⟩ <;> (intros; subst i; simp [Stateless, Waits, Instr.opcode] at hi)
  · exact (msgWrite_of_ok hx hr (hi ∘ .inl) (hi ∘ .inr)).lifecycle

/-! ## Which unit writes what -/

/-- Only an operation of the send path writes the message (R20, R24). -/
theorem MsgWrite.opcode_mem {c : Config} {m m' : Msg} {i : Instr} (h : MsgWrite c m i m') :
    i.opcode.toNat ∈ [0x10, 0x11, 0x12, 0x13] := by
  cases h <;> simp [Instr.opcode]

/-- Settles O36, by the cases of an operation. -/
theorem unitsKeepToTheirState : Obligations.UnitsKeepToTheirState := by
  intro i s t hr hx
  constructor
  · intro hi
    cases exec_cases hx with
    | answers => rfl
    | refuses e hu => rcases hu with rfl | ⟨-, rfl⟩ <;> rfl
    | sends r hu hm => exact absurd hm.opcode_mem hi
    | starts => exact run_msg_noReset (s := s.started) _ hr
  · intro hi
    obtain ⟨-, hadc, hcs, htodo, hrx⟩ := exec_keeps (by simp only [Waits]; omega) hx
    exact ⟨hadc, hcs, htodo, hrx⟩

/-! ## The data-ready flag -/

theorem State.FlagOk.congr {s t : State} (h : s.FlagOk) (ha : t.adc = s.adc) : t.FlagOk := by
  rwa [State.FlagOk, ha]

theorem flagOk_of_reset {s : State} (h : s.adc = Adc.reset) : s.FlagOk := by
  simp [State.FlagOk, h, Adc.reset]

/-- An edge sets the flag only while the handler is installed (R280, R282). -/
theorem State.FlagOk.tick {s : State} (h : s.FlagOk) : s.tick.FlagOk := by
  intro hf
  rw [tick_irqEn]
  exact ((tick_drdyFlag s).1 hf).elim h And.left

/-- No action sets the flag, and none uninstalls the handler (R75, R282). -/
theorem State.FlagOk.act {s : State} (h : s.FlagOk) (a : Action) : (s.act a).FlagOk := by
  intro hf
  by_cases ha : a = .waitDrdy
  · subst ha
    cases hf
  · rw [act_drdyFlag ha] at hf
    exact act_irqEn a s (h hf)

theorem flagOk_run (acts : List Action) {s : State} (h : s.FlagOk) : (run acts s).FlagOk :=
  run_preserves (P := State.FlagOk) acts (fun _ => .tick) (fun a _ _ h => h.act a) (fun _ _ _ h => h) (fun _ h => h)
    (fun _ _ => flagOk_of_reset rfl) s h

theorem flagOk_exec {i : Instr} {s t : State} (h : s.FlagOk) (hx : exec i s = .next t) : t.FlagOk := by
  rcases exec_keeps_or_starts hx with hk | ⟨pre, post, e, -, -, rfl⟩
  · exact h.congr hk.adc
  · exact flagOk_run (s := s.started) _ h

/-- Settles O56: only an edge sets the flag, and only with the handler installed. -/
theorem stepKeepsTheFlag : Obligations.StepKeepsTheFlag := by
  intro s t h hs
  have hq : s.tick.takeRequest.FlagOk := h.tick.congr (by simp)
  cases step_cases hs with
  | goesOn => exact flagOk_run _ h
  | resets => exact flagOk_of_reset rfl
  | passes => exact hq
  | badOp => exact hq.congr rfl
  | starts _ _ _ _ _ hx => exact flagOk_exec hq hx

/-! ## The gain exponent -/

/-- The operations that write the gain exponent, with the value written (R206, R211). -/
inductive PgaWrite (c : Config) : Instr → Nat → Prop
  | set (exp : Byte) : PgaWrite c (.adcSetPga exp) exp.toNat
  | init : PgaWrite c .adcInit (fieldOf c.mPga c.defAdcon).toNat

/-- The gain field of a well-formed profile holds values 0 to 7 (R204). -/
theorem fieldMax_mPga_le {c : Config} (h : c.wf = true) : fieldMax c.mPga ≤ 7#8 := by
  simp only [Config.wf, Bool.and_eq_true, decide_eq_true_eq] at h
  obtain ⟨⟨⟨⟨⟨-, hp⟩, -⟩, -⟩, -⟩, -⟩ := h
  exact hp

/-- A field read from a byte is a value of the field (R99). -/
theorem fieldOf_le_fieldMax (m b : Byte) : (fieldOf m b).toNat ≤ (fieldMax m).toNat := by
  simp only [fieldOf, fieldMax, BitVec.toNat_ushiftRight, BitVec.toNat_and, Nat.shiftRight_eq_div_pow]
  exact Nat.div_le_div_right Nat.and_le_right

theorem PgaWrite.le_seven {c : Config} {i : Instr} {e : Nat} (h : PgaWrite c i e) (hc : c.wf = true)
    (hi : i.wf c = true) : e ≤ 7 := by
  have hm : (fieldMax c.mPga).toNat ≤ 7 := fieldMax_mPga_le hc
  cases h with
  | set exp =>
    have hf : exp = 0#8 ∨ exp ≤ fieldMax c.mPga := by simpa [Instr.wf, fitsField] using hi
    rcases hf with rfl | hf
    · decide
    · exact le_trans hf hm
  | init => exact (fieldOf_le_fieldMax _ _).trans hm

/-- Operation `i` from state `s` is refused, or runs actions that write no gain exponent but its own. -/
def StartsPga (i : Instr) (s : State) : Prop :=
  exec i s = .next (s.raise .adcErrNoShadow) ∨
    ∃ acts, exec i s = .next (s.startOp acts) ∧ ∀ e, Action.setPga e ∈ acts → PgaWrite s.cfg i e

@[simp] theorem setPga_notMem_pulse (present : Bool) (p : Pin) (low settle e : Nat) :
    Action.setPga e ∉ pulse present p low settle := by
  cases present <;> simp [pulse]

@[simp] theorem setPga_notMem_regwrite (c : Config) (r : Reg) (v : Byte) (e : Nat) : Action.setPga e ∉ regwrite c r v := by
  simp [regwrite, exch3]

@[simp] theorem setPga_notMem_wregActions (c : Config) (r : Reg) (v : Byte) (e : Nat) :
    Action.setPga e ∉ wregActions c r v := by
  simp [wregActions]

theorem startsPga_wreg {i : Instr} {s : State} {r : Reg} {v : Byte}
    (hx : exec i s = .next (s.startOp (wregActions s.cfg r v))) : StartsPga i s :=
  .inr ⟨_, hx, fun e he => absurd he (setPga_notMem_wregActions _ _ _ e)⟩

theorem startsPga_setField {i : Instr} {s : State} {r : Reg} {m v : Byte} (hx : exec i s = .next (s.setField r m v)) :
    StartsPga i s := by
  unfold State.setField at hx
  split at hx
  · exact .inl hx
  · exact startsPga_wreg hx

theorem startsPga_setPga (exp : Byte) (s : State) : StartsPga (.adcSetPga exp) s := by
  cases h : s.adc.shAdcon with
  | none => exact .inl (exec_of_shAdcon_none h exp).1
  | some old =>
    refine .inr ⟨.setPga exp.toNat :: wregActions s.cfg .adcon (ins old s.cfg.mPga exp), by simp [exec, execAdcSetPga, h],
      fun e he => ?_⟩
    obtain rfl : e = exp.toNat := by simpa using he
    exact .set exp

theorem startsPga_init (s : State) : StartsPga .adcInit s := by
  refine .inr ⟨_, rfl, fun e he => ?_⟩
  obtain rfl : e = (fieldOf s.cfg.mPga s.cfg.defAdcon).toNat := by simpa [initActions, selfcal] using he
  exact .init

theorem startsPga_of_waits {i : Instr} (hw : Waits i) (s : State) : StartsPga i s := by
  cases i with
  | adcInit => exact startsPga_init s
  | adcSetPga exp => exact startsPga_setPga exp s
  | adcWreg | adcSetDrate | adcSetMux | adcSetGpio => exact startsPga_wreg rfl
  | adcSetClkout | adcSetSdcs | adcSetOrder | adcSetAcal | adcSetBufen => exact startsPga_setField rfl
  | adcRreg r => exact .inr ⟨_, rfl, by simp [rregActions, exch3]⟩
  | adcReadSingle => exact .inr ⟨_, rfl, by simp [readSingleActions, read3]⟩
  | adcReadCont => exact .inr ⟨_, rfl, by cases h : s.adc.running <;> simp [readContActions, read3]⟩
  | adcStop => exact .inr ⟨_, rfl, by simp [stopActions]⟩
  | adcCycleSe | adcCycleDiff =>
    exact .inr ⟨_, rfl, by cases h : s.adc.running <;> simp [cycleActions, muxwr, exch3, read3, h]⟩
  | _ => exact absurd hw (by simp [Waits, Instr.opcode])

theorem State.PgaOk.congr {s t : State} (h : s.PgaOk) (hp : t.adc.pga = s.adc.pga) (ht : t.todo = s.todo) : t.PgaOk := by
  rwa [State.PgaOk, hp, ht]

theorem pgaOk_of_reset {s : State} (ha : s.adc = Adc.reset) (ht : s.todo = []) : s.PgaOk := by
  simp [State.PgaOk, ha, ht, Adc.reset]

/-- Actions that write exponents up to 7 only, whether run or kept for later (R38). -/
theorem pgaOk_run {acts : List Action} (ha : ∀ e, Action.setPga e ∈ acts → e ≤ 7) {s : State} (h : s.PgaOk) :
    (run acts s).PgaOk := by
  refine run_preserves (P := State.PgaOk) acts (fun s h => h.congr (tick_pga s) rfl) (fun a s hm h => ?_)
    (fun as s hs h => ⟨h.1, fun e he => ha e (hs.subset he)⟩) (fun s h => ⟨h.1, by simp⟩)
    (fun _ _ => pgaOk_of_reset rfl rfl) s h
  by_cases hp : ∃ e, a = .setPga e
  · obtain ⟨e, rfl⟩ := hp
    refine ⟨fun e' he' => ?_, h.2⟩
    cases he'
    exact ha e hm
  · exact h.congr (act_pga (not_exists.1 hp) s) (act_todo a s)

theorem pgaOk_exec {i : Instr} {s t : State} (hc : s.cfg.wf = true) (hi : i.wf s.cfg = true) (h : s.PgaOk)
    (hx : exec i s = .next t) : t.PgaOk := by
  by_cases hw : Waits i
  · rcases startsPga_of_waits hw s with he | ⟨acts, he, ha⟩ <;> cases hx.symm.trans he
    · exact h.congr rfl rfl
    · exact pgaOk_run (s := s.started) (fun e he => (ha e he).le_seven hc hi) h
  · have hk := exec_keeps hw hx
    exact h.congr (congrArg Adc.pga hk.adc) hk.todo

/-- Settles O57: what ADC_INIT and ADC_SET_PGA write are values of the gain field, at most 7 on the profile. -/
theorem stepKeepsTheExponent : Obligations.StepKeepsTheExponent := by
  intro s t hc h hs
  have hq : s.tick.takeRequest.PgaOk := h.congr (by rw [State.takeRequest_adc, tick_pga]) (by simp)
  cases step_cases hs with
  | goesOn => exact pgaOk_run h.2 h
  | resets => exact pgaOk_of_reset rfl rfl
  | passes => exact hq
  | badOp => exact hq.congr rfl rfl
  | starts _ _ _ _ hw hx => exact pgaOk_exec (by simpa using hc) (by simpa using hw) hq hx

/-! ## The configuration and the handler -/

theorem exec_cfg {i : Instr} {s t : State} (hx : exec i s = .next t) : t.cfg = s.cfg := by
  rcases exec_keeps_or_starts hx with hk | ⟨pre, post, e, -, -, rfl⟩
  · exact hk.cfg
  · exact run_cfg _ s.started

theorem exec_irqEn {i : Instr} {s t : State} (hr : s.NoReset) (hi : s.adc.irqEn = true) (hx : exec i s = .next t) :
    t.adc.irqEn = true := by
  rcases exec_keeps_or_starts hx with hk | ⟨pre, post, e, -, -, rfl⟩
  · rwa [hk.adc]
  · exact run_irqEn (s := s.started) _ hr hi

/-- Settles O59, by what every run keeps. -/
theorem stepKeepsConfigurationAndHandler : Obligations.StepKeepsConfigurationAndHandler := by
  intro s t hs
  have hc : s.tick.takeRequest.cfg = s.cfg := by simp
  have hq : s.tick.takeRequest.adc.irqEn = s.adc.irqEn := by rw [State.takeRequest_adc, tick_irqEn]
  cases step_cases hs with
  | goesOn => exact ⟨run_cfg _ s, run_irqEn _⟩
  | resets _ hm => exact ⟨rfl, fun hr => absurd hm (hr 0)⟩
  | passes => exact ⟨hc, fun _ => hq.trans⟩
  | badOp => exact ⟨hc, fun _ => hq.trans⟩
  | starts _ _ _ _ _ hx =>
    exact ⟨(exec_cfg hx).trans hc, fun hr hi => exec_irqEn (noReset_takeRequest hr) (hq.trans hi) hx⟩

/-! ## RUNNING -/

/-- Between states `s` and `u`, RUNNING was set and cleared as operation `i` may do it. -/
structure RunningBy (i : Instr) (s u : State) : Prop where
  started : s.adc.running = false → u.adc.running = true → OpensSession i
  stopped : s.adc.running = true → u.adc.running = false → ClosesSession i

/-- The same, and so it stays whatever is left to run of the operation. -/
structure RunningOnlyBy (i : Instr) (s u : State) : Prop extends RunningBy i s u where
  noReset : u.NoReset
  todo_start : Action.setRunning true ∉ u.todo
  todo_stop : Action.setRunning false ∈ u.todo → ClosesSession i

theorem State.Keeps.runningBy {s t : State} (h : s.Keeps t) (i : Instr) : RunningBy i s t := by
  constructor <;> intro h1 h2 <;> simp [h.adc, h1] at h2

theorem runningBy_exec {i : Instr} {s t : State} (hr : s.NoReset) (hx : exec i s = .next t) : RunningBy i s t := by
  rcases exec_keeps_or_starts hx with hk | ⟨pre, post, e, -, hs, rfl⟩
  · exact hk.runningBy i
  · have mem {b : Bool} (h1 : s.adc.running ≠ b) (h2 : (s.startOp (cutActions pre post e)).adc.running = b) :
        Action.setRunning b ∈ cutActions pre post e := setRunning_mem_of_run (s := s.started) hr h1 h2
    exact ⟨fun h1 h2 => hs.start_of_mem e (mem (by simp [h1]) h2), fun h1 h2 => hs.stop_of_mem e (mem (by simp [h1]) h2)⟩

/-- An operation that waits leaves nothing to run that sets RUNNING, and what clears it only when it is its own. -/
theorem runningOnlyBy_startOp {i : Instr} {pre post : List Action} (e : Ending) {s : State} (hs : WaitShape i pre post)
    (hr : s.NoReset) (hb : RunningBy i s (s.startOp (cutActions pre post e))) :
    RunningOnlyBy i s (s.startOp (cutActions pre post e)) where
  toRunningBy := hb
  noReset := run_noReset (s := s.started) _ hr
  todo_start hm := by simpa [hs.post_start] using hs.todo_subset e hr hm
  todo_stop hm := hs.post_stop (by simpa using hs.todo_subset e hr hm)

theorem RunningOnlyBy.run {i : Instr} {s u : State} (h : RunningOnlyBy i s u) : RunningOnlyBy i s (run u.todo u) where
  started h1 h2 := by
    cases hu : u.adc.running with
    | true => exact h.started h1 hu
    | false => exact absurd (setRunning_mem_of_run h.noReset (by simp [hu]) h2) h.todo_start
  stopped h1 h2 := by
    cases hu : u.adc.running with
    | true => exact h.todo_stop (setRunning_mem_of_run h.noReset (by simp [hu]) h2)
    | false => exact h.stopped h1 hu
  noReset := run_noReset _ h.noReset
  todo_start hm := h.todo_start ((run_todo_suffix _ u).subset hm)
  todo_stop hm := h.todo_stop ((run_todo_suffix _ u).subset hm)

theorem RunningOnlyBy.goesOn {i : Instr} {s t u : State} (hg : GoesOn t u) (h : RunningOnlyBy i s t) :
    RunningOnlyBy i s u := by
  induction hg with
  | here => exact h
  | further held next _ ih =>
    rw [step_of_not_idle held] at next
    cases next
    exact ih h.run

/-- From the step that starts an operation on, RUNNING changes by that operation only, and nothing that opens a session is
left to run (R35). -/
theorem running_goesOn {i : Instr} {s t u : State} (hr : s.NoReset) (hi : s.Idle) (hx : exec i s = .next t)
    (hg : GoesOn t u) :
    RunningBy i s u ∧ Action.setRunning true ∉ u.todo ∧ (Action.setRunning false ∈ u.todo → ClosesSession i) := by
  have hb := runningBy_exec hr hx
  rcases exec_keeps_or_starts hx with hk | ⟨pre, post, e, -, hs, rfl⟩
  · have ht : t.todo = [] := hk.todo.trans hi
    cases goesOn_of_idle hg ht
    exact ⟨hb, by simp [ht], by simp [ht]⟩
  · have h := (runningOnlyBy_startOp e hs hr hb).goesOn hg
    exact ⟨h.toRunningBy, h.todo_start, h.todo_stop⟩

/-- Settles O60: RUNNING changes in a run only by an action in it, and the shape of an operation says where such actions
stand. -/
theorem onlySessionsTouchRunning : Obligations.OnlySessionsTouchRunning := by
  refine ⟨fun i s t hr hx => ?_, fun i s t u hr hi hx hg => ?_, fun s t hr hi hs => ?_⟩
  · obtain ⟨hstarted, hstopped⟩ := runningBy_exec hr hx
    exact ⟨hstarted, hstopped⟩
  · obtain ⟨⟨hstarted, hstopped⟩, hstart, hstop⟩ := running_goesOn hr hi hx hg
    exact ⟨hstarted, hstopped, hstart, hstop⟩
  · rw [step_of_not_idle hi] at hs
    cases hs
    exact ⟨run_todo_suffix _ s, fun h => setRunning_mem_of_run hr (by simp [h]),
      fun h => setRunning_mem_of_run hr (by simp [h])⟩

/-! ## Reset and the refusals -/

/-- Settles O4. -/
theorem resetValues : Obligations.ResetValues :=
  ⟨rfl, rfl, rfl, rfl, rfl, rfl, rfl, rfl, rfl, fun r => by cases r <;> rfl, rfl, rfl, rfl, rfl, rfl, rfl, rfl⟩

/-- Settles O58: what a reset leaves meets each invariant. -/
theorem resetMeetsTheInvariants : Obligations.ResetMeetsTheInvariants :=
  ⟨msgOk_of_reset rfl, positionOk_of_idle rfl rfl, flagOk_of_reset rfl, pgaOk_of_reset rfl rfl⟩

theorem exec_of_pga_none {s : State} (h : s.adc.pga = none) (raw24 : BitVec 24) :
    exec (.adcVconv raw24) s = .next (s.raise .adcErrNoShadow) := by
  simp [exec, execAdcVconv, h]

/-- Settles O39. -/
theorem noShadowIsRefused : Obligations.NoShadowIsRefused :=
  fun _ => ⟨exec_of_shAdcon_none, exec_of_shStatus_none, exec_of_pga_none⟩

end Sys2Proof.Machine
end

section
/-! PROOFS. The step, the header encoder, the single read, and how long an edge is remembered: the obligations of the memory
and the interfaces (20_memory.md). -/

namespace Sys2Proof.Machine

/-! ## The step of an idle block -/

/-- An idle block with no reset due takes the host's request and runs what it decodes to (R72, R110). -/
theorem step_of_request {s : State} {bytes rest : List Byte} {i : Instr} (hi : s.Idle) (hm : s.env.moveAt 0 ≠ .reset)
    (hq : s.nextRequest = some bytes) (hd : decode bytes = .ok (i, rest)) (hw : i.wf s.cfg = true) :
    step s = exec i s.tick.takeRequest := by
  simp [step, State.fetch, State.accept, hi, hm, hq, hd, hw]

theorem step_of_no_request {s : State} (hi : s.Idle) (hm : s.env.moveAt 0 ≠ .reset) (hq : s.nextRequest = none) :
    step s = .next s.tick.takeRequest := by
  simp [step, State.fetch, hi, hm, hq]

/-- A quiet point in front of the schedule passes and changes nothing else (R73). -/
theorem tick_of_quiet {s : State} {ms : List Move} (h : s.env.sched = .quiet :: ms) :
    s.tick = { s with env := { s.env with sched := ms } } := by
  simp [State.tick, Env.moveAt, Env.dropMove, h]

/-- Settles O1: the quiet point and the listed request are all that the state before the operation lacks. -/
theorem stepRunsTheDecodedRequest : Obligations.StepRunsTheDecodedRequest := by
  intro s bytes i rest hi hm hq hd hw
  have hstep := step_of_request hi hm hq hd hw
  refine ⟨hstep, fun rs ms hrs hms => ?_⟩
  rw [hstep, tick_of_quiet hms]
  exact congrArg (exec i) (State.takeRequest_cons hrs)

/-! ## The step of an operation in progress -/

/-- A hold that passes clears the flag with the point before it, and leaves nothing of an edge there (R75, R281). -/
theorem tick_act_waitDrdy (s : State) :
    s.tick.act .waitDrdy = { s with adc := s.adc.clearDrdy, env := s.env.dropMove } := by
  simp only [State.act, tick_clearDrdy]
  rfl

/-- A point of the schedule that sets no flag leaves all but the schedule alone. -/
theorem tick_of_clear {s : State} (h : s.tick.adc.drdyFlag = false) : s.tick = { s with env := s.env.dropMove } :=
  congrArg (fun a => { s with adc := a, env := s.env.dropMove }) (tick_adc_of_clear h)

/-- What a run does at a hold: it passes with the flag cleared when an edge is remembered or comes at this point, and else
only the point passes (R75, R200). -/
theorem run_waitDrdy {s : State} (as : List Action) (hm : s.env.moveAt 0 ≠ .reset) :
    run (.waitDrdy :: as) s =
      if s.EdgeReady then run as { s with adc := s.adc.clearDrdy, env := s.env.dropMove }
      else { s with todo := .waitDrdy :: as, env := s.env.dropMove } := by
  rw [run_cons, if_neg hm]
  by_cases he : s.EdgeReady
  · rw [if_pos he, if_neg (by rw [edgeReady_tick he]; simp), tick_act_waitDrdy]
  · have hf : s.tick.adc.drdyFlag = false := by simpa using mt (tick_drdyFlag s).1 he
    rw [if_neg he, if_pos ⟨rfl, hf⟩, tick_of_clear hf]

/-- Settles O2: the step of an operation in progress is a run of what is left of it. -/
theorem stepWithoutARequest : Obligations.StepWithoutARequest := by
  refine fun s => ⟨step_of_no_request, fun hi => ?_, fun as ht hm => ?_⟩
  · obtain ⟨hrequests, hlater⟩ := run_requests s.todo s
    exact ⟨step_of_not_idle hi, hrequests, hlater, run_msg_noReset s.todo⟩
  · rw [step_of_not_idle (by simp [State.Idle, ht]), State.resume, ht, run_waitDrdy as hm, ← ht]
    rfl

/-! ## The header -/

/-- The header's number is its fields side by side (R92). -/
theorem toNat_hdrBits (ms : BitVec 27) (topic : BitVec 6) (command : BitVec 4) (dlen : BitVec 11) :
    (hdrBits ms topic command dlen).toNat =
      ms.toNat * 2 ^ 21 + topic.toNat * 2 ^ 15 + command.toNat * 2 ^ 11 + dlen.toNat := by
  rw [hdrBits_eq_append]
  simp only [BitVec.toNat_append]
  rw [← Nat.shiftLeft_add_eq_or_of_lt topic.isLt, ← Nat.shiftLeft_add_eq_or_of_lt command.isLt,
    ← Nat.shiftLeft_add_eq_or_of_lt dlen.isLt]
  simp only [Nat.shiftLeft_eq]
  ring

/-- Settles O20: bytes and fields are two readings of the header's 48 bits. -/
theorem hdrEncPacksTheFields : Obligations.HdrEncPacksTheFields := by
  intro ms topic command dlen s
  refine ⟨hdrEncode ms topic command dlen, rfl, ?_⟩
  rw [← toNat_hdrToBits, hdrEncode, hdrToBits_hdrOfBits, toNat_hdrBits]

/-! ## The single read -/

@[simp] theorem started_cfg (s : State) : s.started.cfg = s.cfg := rfl
@[simp] theorem started_adc (s : State) : s.started.adc = s.adc := rfl
@[simp] theorem started_env (s : State) : s.started.env = s.env := rfl
@[simp] theorem started_cs (s : State) : s.started.cs = s.cs := rfl
@[simp] theorem started_xferEvent (s : State) (tx : Byte) (k : Nat) : s.started.xferEvent tx k = s.xferEvent tx k := rfl
@[simp] theorem started_read3Events (s : State) (k : Nat) : s.started.read3Events k = s.read3Events k := rfl

/-- What an operation with one hold at most leaves at its end, by what its actions did before it and
what the end makes of the answers they kept (R200, R208, R240). -/
theorem endsAs_of_did {i : Instr} {acts : List Action} {e : Ending} {s : State} {adc : Adc} {level : ChipSelect}
    {es : List Event} {n : Nat} {kept : List Byte} {r : Result} (hx : exec i s = .next (s.startOp (acts ++ [.finish e])))
    (hr : s.NoReset) (he : s.EdgeReady) (hw : acts.count .waitDrdy ≤ 1)
    (h : actAll acts s.started = s.started.did adc.clearDrdy level es n kept) (hk : e.result kept = r) :
    EndsAs i s (s.ended adc level es n r) := by
  subst hk
  refine endsAs_of_effect hx hr he (by simpa using hw) ?_
  rw [← untimed_ended_clearDrdy, ← State.started, effect_eq_actAll, actAll_append, h]
  rfl

/-- What ADC_READ_SINGLE does before its end (R241). -/
def readSingleBody (c : Config) : List Action :=
  [.waitDrdy, .cs .asserted, .xfer c.cmdRdata false] ++ read3 c ++ [.cs .released]

theorem exec_readSingle (s : State) :
    exec .adcReadSingle s = .next (s.startOp (readSingleBody s.cfg ++ [.finish .sample])) := rfl

theorem actAll_readSingleBody (s : State) :
    actAll (readSingleBody s.cfg) s.started =
      s.started.did s.adc.clearDrdy .released
        ([.cs .asserted, s.xferEvent s.cfg.cmdRdata 0] ++ s.read3Events 1 ++ [.cs .released]) 4
        [s.env.busAnswerAt 1, s.env.busAnswerAt 2, s.env.busAnswerAt 3] := by
  simp only [readSingleBody, actAll_append, actAll_cons, actAll_nil, act_did_waitDrdy, act_did_cs, act_did_xfer]
  rw [actAll_read3]
  · simp
  · rfl

/-- Settles O43: the sample is made of the three answers that the operation keeps. -/
theorem readSingleEnds : Obligations.ReadSingleEnds := by
  intro s hr he
  have hw : (readSingleBody s.cfg).count .waitDrdy ≤ 1 := by simp [readSingleBody, read3]
  exact ⟨sample24 (s.env.busAnswerAt 1) (s.env.busAnswerAt 2) (s.env.busAnswerAt 3), sample24_toNat _ _ _,
    endsAs_of_did (exec_readSingle s) hr he hw (actAll_readSingleBody s) rfl⟩

/-! ## One edge, one wait -/

/-- Where every point of the schedule has the same move, other than a reset, none is scheduled. -/
theorem noReset_of_moveAt {s : State} {m : Move} (h : ∀ k, s.env.moveAt k = m) (hm : m ≠ .reset) : s.NoReset :=
  fun k => by rwa [h]

/-- An operation with one wait, started with the flag set, goes on behind it with the flag clear, some points of the
schedule passed (R75, R200). -/
theorem exec_passes_wait {i : Instr} {s : State} (hf : s.adc.drdyFlag = true) (hr : s.NoReset) (hw : Waits i)
    (hi : i ≠ .adcInit) (hs : s.HasShadow i) :
    ∃ post e u, exec i s = .next (run (post ++ [.finish e]) u) ∧ .waitDrdy ∉ post ∧ u.NoReset ∧
      u.adc.drdyFlag = false ∧ u.adc.irqEn = s.adc.irqEn ∧ ∃ n, ∀ k, u.env.moveAt k = s.env.moveAt (k + n) := by
  obtain ⟨pre, post, e, hst, hsh⟩ := startsWait_of_waits hw hs
  obtain ⟨t, ht, hat⟩ := startOp_cut e hsh hr
  refine ⟨post, e, t.tick.act .waitDrdy, ?_, hsh.post_wait hi, noReset_act _ (noReset_tick hat.noReset), rfl, ?_,
    pre.length + 1, fun k => ?_⟩
  · rw [hst.exec_eq, ht, run_passes hat.noReset (.inr (edgeReady_tick (.inl (hat.flag_set hf))))]
  · rw [act_irqEn_eq (by decide), tick_irqEn, hat.irqEn_eq hi]
  · rw [act_moveAt, tick_moveAt, hat.moveAt]
    congr 1
    omega

/-- With the flag clear and nothing to come every operation that waits is held, without a response (R200, R274). -/
theorem exec_held_of_quiet {i : Instr} {s : State} (hf : s.adc.drdyFlag = false) (hq : ∀ k, s.env.moveAt k = .quiet)
    (hw : Waits i) (hs : s.HasShadow i) : ∃ u, exec i s = .next u ∧ u.Held ∧ u.response = none := by
  obtain ⟨pre, post, e, hst, hsh⟩ := startsWait_of_waits hw hs
  obtain ⟨t, ht, hat⟩ := startOp_cut e hsh (noReset_of_moveAt hq (by decide))
  have hflag : t.adc.drdyFlag = false := (hat.flag_eq (.inl fun k _ => by simp [hq])).trans hf
  obtain ⟨hheld, hresp, -⟩ := run_wait_held (as := post ++ [.finish e]) hat.noReset (by simp [hat.moveAt, hq, hflag])
  exact ⟨_, hst.exec_eq, ht ▸ hheld, by rw [ht, hresp, hat.response]⟩

/-- Actions without a hold leave a set flag set (R281). -/
theorem run_noWait_flag {acts : List Action} {s : State} (hr : s.NoReset) (hw : .waitDrdy ∉ acts)
    (hf : s.adc.drdyFlag = true) : (run acts s).adc.drdyFlag = true := by
  obtain ⟨t, ht, -, -, hset, -⟩ := run_append_noWait (as := []) hr hw
  rw [List.append_nil] at ht
  rw [ht]
  exact hset hf

/-- An edge before the first of some actions without a hold is remembered to their end (R280, R281). -/
theorem run_edge_remembered {acts : List Action} {s : State} (hr : s.NoReset) (hne : acts ≠ []) (hw : .waitDrdy ∉ acts)
    (he : s.EdgeReady) : (run acts s).adc.drdyFlag = true := by
  cases acts with
  | nil => exact absurd rfl hne
  | cons a as =>
    obtain ⟨ha, has⟩ : a ≠ .waitDrdy ∧ .waitDrdy ∉ as := by simpa [eq_comm] using hw
    rw [run_passes hr (.inl ha)]
    exact run_noWait_flag (noReset_act a (noReset_tick hr)) has (by rw [act_drdyFlag ha, edgeReady_tick he])

/-- An edge at the point after the clear of a wait, the only one, is remembered to the end (R281). -/
theorem run_edge_after_wait {acts : List Action} {s : State} (hr : s.NoReset) (hf : s.adc.drdyFlag = true)
    (hi : s.adc.irqEn = true) (hm : s.env.moveAt 1 = .edge) (hne : acts ≠ []) (hw : .waitDrdy ∉ acts) :
    (run (.waitDrdy :: acts) s).adc.drdyFlag = true := by
  rw [run_passes hr (.inr (edgeReady_tick (.inl hf)))]
  refine run_edge_remembered (noReset_act _ (noReset_tick hr)) hne hw (.inr ⟨?_, ?_⟩)
  · rw [act_irqEn_eq (by decide), tick_irqEn, hi]
  · rw [act_moveAt, tick_moveAt, hm]

/-- States that differ in timing alone have the same device state but for the flag. -/
theorem clearDrdy_of_untimed {s t : State} (h : s.untimed = t.untimed) : s.adc.clearDrdy = t.adc.clearDrdy :=
  (congrArg State.adc h :)

section
variable {pre mid as : List Action} {s : State} (hq : ∀ k, s.env.moveAt k = .quiet)
include hq

/-- With an edge remembered and nothing to come a run passes its first wait, and the flag is clear (R75). -/
theorem run_passes_first_wait (hf : s.adc.drdyFlag = true) (hw : .waitDrdy ∉ pre) :
    ∃ t : State, run (pre ++ .waitDrdy :: as) s = run as t ∧ t.untimed = (actAll (pre ++ [.waitDrdy]) s).untimed ∧
      (∀ k, t.env.moveAt k = .quiet) ∧ t.adc.drdyFlag = false := by
  obtain ⟨t, ht, heq, hm, hset, -⟩ := run_append_noWait (as := .waitDrdy :: as) (noReset_of_moveAt hq (by decide)) hw
  have htq (k : Nat) : t.env.moveAt k = .quiet := (hm k).trans (hq _)
  refine ⟨t.tick.act .waitDrdy, ?_, ?_, fun k => ?_, rfl⟩
  · rw [ht, run_passes (noReset_of_moveAt htq (by decide)) (.inr (edgeReady_tick (.inl (hset hf))))]
  · rw [actAll_append]
    exact untimed_act_congr .waitDrdy ((untimed_tick t).trans heq)
  · rw [act_moveAt, tick_moveAt, htq]

/-- With no edge remembered and nothing to come a run is held at its first wait (R200). -/
theorem run_held_at_first_wait (hf : s.adc.drdyFlag = false) (hw : .waitDrdy ∉ pre) :
    ∃ t : State, run (pre ++ .waitDrdy :: as) s = { t with todo := .waitDrdy :: as } ∧ t.untimed = (actAll pre s).untimed ∧
      t.adc.drdyFlag = false := by
  obtain ⟨t, ht, heq, hm, -, hclear⟩ :=
    run_append_noWait (as := .waitDrdy :: as) (noReset_of_moveAt hq (by decide)) hw
  have htq (k : Nat) : t.env.moveAt k = .quiet := (hm k).trans (hq _)
  have hflag : t.tick.adc.drdyFlag = false := by
    simp [htq, hclear (.inl fun k _ => by rw [hq]; decide), hf]
  exact ⟨t.tick, ht.trans (run_holds (noReset_of_moveAt htq (by decide)) hflag), (untimed_tick t).trans heq, hflag⟩

/-- One remembered edge serves one wait: a run is held at its second, the actions before it done (R75, R200). -/
theorem run_held_at_second_wait (hf : s.adc.drdyFlag = true) (hpre : .waitDrdy ∉ pre) (hmid : .waitDrdy ∉ mid) :
    ∃ t : State, run (pre ++ .waitDrdy :: (mid ++ .waitDrdy :: as)) s = { t with todo := .waitDrdy :: as } ∧
      t.untimed = (actAll (pre ++ .waitDrdy :: mid) s).untimed ∧ t.adc.drdyFlag = false := by
  obtain ⟨t, ht, hteq, htq, htf⟩ := run_passes_first_wait (as := mid ++ .waitDrdy :: as) hq hf hpre
  obtain ⟨u, hu, hueq, huf⟩ := run_held_at_first_wait (as := as) htq htf hmid
  refine ⟨u, ht.trans hu, hueq.trans ?_, huf⟩
  rw [untimed_actAll_congr mid hteq, ← actAll_append, ← List.append_cons]

end

/-! ### ADC_INIT up to its second wait -/

/-- What ADC_INIT does before its first wait (R206). -/
def initPre (c : Config) : List Action :=
  [Action.cs .asserted] ++ pulse c.hasReset .reset c.tResetLow c.tResetSettle
    ++ pulse c.hasSync .sync c.tSyncpinLow c.tSyncpinSettle ++ [.attachDrdy, .setShadow .status c.defStatus]

/-- What ADC_INIT does between its first wait and its second (R206). -/
def initMid (c : Config) : List Action :=
  [Action.cs .asserted] ++ exch3 c (wregByte c .status) c.rsvdByte c.defStatus false
    ++ [.cs .released, .setShadow .mux c.defMux]

/-- What ADC_INIT does after its second wait (R206). -/
def initPost (c : Config) : List Action :=
  [Action.cs .asserted] ++ exch3 c (wregByte c .mux) c.rsvdByte c.defMux false
    ++ [.cs .released, .setPga (fieldOf c.mPga c.defAdcon).toNat] ++ regwrite c .adcon c.defAdcon
    ++ regwrite c .drate c.defDrate ++ selfcal c ++ [.setRunning false, .finish .unit]

theorem initActions_eq (c : Config) :
    initActions c = initPre c ++ .waitDrdy :: (initMid c ++ .waitDrdy :: initPost c) := by
  simp [initActions, initPre, initMid, initPost, regwrite]

theorem waitDrdy_notMem_initPre (c : Config) : .waitDrdy ∉ initPre c := by
  cases h1 : c.hasReset <;> cases h2 : c.hasSync <;> simp [initPre, pulse, h1, h2]

theorem waitDrdy_notMem_initMid (c : Config) : .waitDrdy ∉ initMid c := by simp [initMid, exch3]

/-- What ADC_INIT has written when it comes to its second wait: the first default and the second shadow, and the handler is
installed (R202, R206). -/
theorem actAll_init_second_wait {c : Config} {s : State} (hc : s.cfg = c) :
    (actAll (initPre c ++ .waitDrdy :: initMid c) s).adc =
      ((Adc.setShadow { s.adc with irqEn := true } .status c.defStatus).clearDrdy).setShadow .mux c.defMux := by
  simp [initPre, initMid, actAll_pulse, actAll_exch3, act_did_cs, act_did_attachDrdy, act_did_setShadow,
    act_did_waitDrdy, hc]

theorem actAll_init_response (c : Config) (s : State) :
    (actAll (initPre c ++ .waitDrdy :: initMid c) s).response = s.response := by
  refine actAll_response (fun e => ?_) s
  cases h1 : c.hasReset <;> cases h2 : c.hasSync <;> simp [initPre, initMid, exch3, pulse, h1, h2]

/-! ### The clauses -/

/-- An operation with one wait uses the remembered edge up, and with nothing to come the next operation is held. -/
theorem oneWait_uses_the_edge {i : Instr} {s : State} (hf : s.adc.drdyFlag = true) (hw : Waits i) (hi : i ≠ .adcInit)
    (hs : s.HasShadow i) (hq : ∀ k, s.env.moveAt k = .quiet) :
    ∃ (t : State) (r : Result), exec i s = .next t ∧ t.Idle ∧ t.response = some (.ok r) ∧ t.adc.drdyFlag = false ∧
      ∀ j : Instr, Waits j → t.HasShadow j → ∃ u, exec j t = .next u ∧ u.Held ∧ u.response = none := by
  obtain ⟨post, e, u, hx, hp, hr, hclear, -, n, hm⟩ :=
    exec_passes_wait hf (noReset_of_moveAt hq (by decide)) hw hi hs
  have hu (k : Nat) : u.env.moveAt k = .quiet := (hm k).trans (hq _)
  obtain ⟨hidle, r, hresp⟩ := run_post_ends e hp hr
  have hflag := run_flag_clear (acts := post ++ [.finish e]) hu hclear
  exact ⟨_, r, hx, hidle, hresp, hflag, fun j => exec_held_of_quiet hflag (run_moveAt (by decide) hu)⟩

/-- ADC_INIT uses the remembered edge up at its first wait and is held at its second. -/
theorem init_held_at_second_wait {s : State} (hf : s.adc.drdyFlag = true) (hq : ∀ k, s.env.moveAt k = .quiet) :
    ∃ t, exec .adcInit s = .next t ∧ t.Held ∧ t.response = none ∧ t.adc.drdyFlag = false ∧
      t.adc.shStatus = some s.cfg.defStatus ∧ t.adc.shMux = some s.cfg.defMux ∧ t.adc.shAdcon = s.adc.shAdcon := by
  have hx : exec .adcInit s = .next (s.startOp (initActions s.cfg)) := rfl
  rw [startOp_eq, initActions_eq] at hx
  obtain ⟨t, ht, heq, hflag⟩ := run_held_at_second_wait (as := initPost s.cfg) (s := s.started) hq hf
    (waitDrdy_notMem_initPre s.cfg) (waitDrdy_notMem_initMid s.cfg)
  have hresp := (response_of_untimed heq).trans (actAll_init_response s.cfg s.started)
  have hadc := (clearDrdy_of_untimed heq).trans (congrArg Adc.clearDrdy (actAll_init_second_wait (s := s.started) rfl))
  exact ⟨_, hx.trans (congrArg _ ht), rfl, hresp, hflag, (congrArg Adc.shStatus hadc :), (congrArg Adc.shMux hadc :),
    (congrArg Adc.shAdcon hadc :)⟩

/-- With an edge at every point one comes after the clear, and is remembered. -/
theorem oneWait_sets_the_flag_again {i : Instr} {s : State} (hf : s.adc.drdyFlag = true) (hw : Waits i)
    (hi : i ≠ .adcInit) (hs : s.HasShadow i) (hirq : s.adc.irqEn = true) (hm : ∀ k, s.env.moveAt k = .edge) :
    ∃ (t : State) (r : Result), exec i s = .next t ∧ t.Idle ∧ t.response = some (.ok r) ∧ t.adc.drdyFlag = true := by
  obtain ⟨post, e, u, hx, hp, hr, -, hirq', n, hmu⟩ :=
    exec_passes_wait hf (noReset_of_moveAt hm (by decide)) hw hi hs
  obtain ⟨hidle, r, hresp⟩ := run_post_ends e hp hr
  exact ⟨_, r, hx, hidle, hresp,
    run_edge_remembered hr (by simp) (by simpa using hp) (.inr ⟨hirq'.trans hirq, (hmu 0).trans (hm _)⟩)⟩

/-- The edge at the point after ADC_STOP's clear is remembered past its end. -/
theorem stop_keeps_the_next_edge {s : State} (hf : s.adc.drdyFlag = true) (hr : s.NoReset) (hirq : s.adc.irqEn = true)
    (hm : s.env.moveAt 1 = .edge) :
    ∃ t, exec .adcStop s = .next t ∧ t.response = some (.ok .unit) ∧ t.adc.drdyFlag = true := by
  have hx : exec .adcStop s = .next (run (stopActions s.cfg) s.started) := rfl
  have hw : (stopActions s.cfg).count .waitDrdy ≤ 1 := by simp [stopActions]
  exact ⟨_, hx, response_of_untimed (run_oneWait (s := s.started) hr (.inl hf) hw).1,
    run_edge_after_wait (s := s.started) hr hf hirq hm (by simp) (by simp)⟩

/-- Settles O51: a wait clears the flag, no action but an edge sets it, and a wait with the flag clear holds. -/
theorem oneEdgeServesOneWait : Obligations.OneEdgeServesOneWait := fun _ hf =>
  ⟨fun _ => oneWait_uses_the_edge hf, init_held_at_second_wait hf, fun _ => oneWait_sets_the_flag_again hf,
    stop_keeps_the_next_edge hf⟩

end Sys2Proof.Machine
end

section
/-! SUPPORT. The COBS unit and the packet unit in both directions: a frame reads back as the bytes it was made of (40_cobs
R135), a sealed packet as its fields (42_packet R180), and what each operation of the send path leaves when it succeeds. -/

namespace Sys2Proof.Machine

/-! The frame, block by block (R131, R133) -/

/-- The framer's loop emits what the streaming framer does, behind what it has already put out (R131, R140). -/
theorem cobsEncLoop_eq_emitted (extra : Bool) (raw out run : List Byte) (need : Bool) :
    cobsEncLoop extra raw out run need = out ++ EncStream.emitted extra raw ⟨run, need⟩ := by
  induction raw generalizing out run need with
  | nil => cases need <;> simp [cobsEncLoop, EncStream.emitted, EncStream.stop]
  | cons b bs ih =>
    simp only [cobsEncLoop, EncStream.emitted, EncStream.push, ih]
    split_ifs <;> simp

theorem cobsEncode_eq_emitted (extra : Bool) (raw : List Byte) :
    cobsEncode extra raw = EncStream.emitted extra raw EncStream.start :=
  cobsEncLoop_eq_emitted extra raw [] [] true

/-- The working state of the streaming framer between two input bytes: the run is not yet maximal and holds no zero, and a
run that need not be emitted is empty (R131). -/
structure EncStream.Ok (w : EncStream) : Prop where
  run_lt : w.run.length < 254
  zero_notMem : 0x00#8 ∉ w.run
  run_eq : w.need = false → w.run = []

theorem EncStream.ok_empty (need : Bool) : EncStream.Ok { run := [], need := need } := ⟨by simp, by simp, fun _ => rfl⟩

/-- What an input byte does to the framer: a zero ends the run, any other byte lengthens it, and a run of 254 bytes is emitted
as it becomes full (R131). -/
inductive EncStream.PushCase (extra : Bool) (w : EncStream) : Byte → List Byte × EncStream → Prop
  | zero : PushCase extra w 0x00#8 (lenByte w.run :: w.run, { run := [], need := true })
  | full {b : Byte} (hb : b ≠ 0x00#8) (hf : (w.run ++ [b]).length = 254) :
      PushCase extra w b (lenByte (w.run ++ [b]) :: (w.run ++ [b]), { run := [], need := extra })
  | longer {b : Byte} (hb : b ≠ 0x00#8) (hf : (w.run ++ [b]).length < 254) :
      PushCase extra w b ([], { run := w.run ++ [b], need := true })

theorem EncStream.pushCase (extra : Bool) {w : EncStream} (h : w.Ok) (b : Byte) :
    PushCase extra w b (w.push extra b) := by
  have := h.run_lt
  unfold EncStream.push
  split_ifs with hb hf
  · subst hb
    exact .zero
  · have hl : lenByte (w.run ++ [b]) = 0xFF#8 := by rw [lenByte, hf]
    rw [← hl]
    exact .full hb hf
  · exact .longer hb (by simp at hf ⊢; omega)

theorem EncStream.Ok.zero_notMem_append {w : EncStream} (h : w.Ok) {b : Byte} (hb : b ≠ 0x00#8) : 0x00#8 ∉ w.run ++ [b] := by
  simp [h.zero_notMem, hb.symm]

/-- One block in front of the rest of a frame: the deframer puts its bytes out, and the zero it stands for unless it is maximal
or the last (R133). -/
theorem cobsDecLoop_block (fuel : Nat) {blk : List Byte} (hl : blk.length ≤ 254) (hz : 0x00#8 ∉ blk) (next : Byte)
    (after out : List Byte) (i : Nat) :
    cobsDecLoop (fuel + 1) (lenByte blk :: (blk ++ next :: after)) out i =
      cobsDecLoop fuel (next :: after)
        (if blk.length ≠ 254 ∧ next ≠ 0x00#8 then out ++ blk ++ [0x00#8] else out ++ blk) (i + (blk.length + 1)) := by
  have h : lenByte blk = 0xFF#8 ↔ blk.length = 254 := by simpa using congrArg (· = true) (lenByte_max hl)
  simp only [cobsDecLoop, if_neg (lenByte_ne_zero hl), lenByte_toNat hl, Nat.add_sub_cancel, takeBlock_append blk _ hz,
    ne_eq, h]

/-- A frame goes on with a further block while there is input left or a run to emit. -/
theorem EncStream.emitted_eq_cons (extra : Bool) (raw : List Byte) {w : EncStream} (h : w.Ok) :
    ∃ l rest, emitted extra raw w = l :: rest ∧ (l = 0x00#8 ↔ raw = [] ∧ w.need = false) := by
  induction raw generalizing w with
  | nil =>
    cases hn : w.need with
    | false => exact ⟨0x00#8, [], by simp [emitted, stop, hn], by simp⟩
    | true => exact ⟨lenByte w.run, w.run ++ [0x00#8], by simp [emitted, stop, hn], by simp [lenByte_ne_zero h.run_lt.le]⟩
  | cons b bs ih =>
    have hc := pushCase extra h b
    rw [emitted]
    generalize w.push extra b = p at hc ⊢
    cases hc with
    | zero => exact ⟨_, _, rfl, by simp [lenByte_ne_zero h.run_lt.le]⟩
    | full hb hf => exact ⟨_, _, rfl, by simp [lenByte_ne_zero hf.le]⟩
    | longer hb hf =>
      obtain ⟨l, rest, he, hl⟩ := ih (w := ⟨w.run ++ [b], true⟩) ⟨hf, h.zero_notMem_append hb, by simp⟩
      exact ⟨l, rest, he, by simpa using hl⟩

/-- From the head of `frame` on, whatever follows it and whatever is put out already, the deframer puts `raw` out and has read
the whole of `frame` (R133, R136). -/
def ReadsBack (frame raw : List Byte) : Prop :=
  ∀ (tail out : List Byte) (fuel i : Nat), frame.length ≤ fuel →
    cobsDecLoop fuel (frame ++ tail) out i = .ok (out ++ raw, i + frame.length)

theorem readsBack_terminator : ReadsBack [0x00#8] [] := by
  rintro tail out (_ | fuel) i hfuel
  · simp at hfuel
  · simp [cobsDecLoop]

/-- One block more in front of what the framer emits from an empty run (R133). -/
theorem ReadsBack.block {extra need : Bool} {raw blk : List Byte}
    (h : ReadsBack (EncStream.emitted extra raw ⟨[], need⟩) raw) (hl : blk.length ≤ 254) (hz : 0x00#8 ∉ blk) :
    ReadsBack (lenByte blk :: (blk ++ EncStream.emitted extra raw ⟨[], need⟩))
      (blk ++ (if blk.length = 254 ∨ raw = [] ∧ need = false then [] else [0x00#8]) ++ raw) := by
  rintro tail out (_ | fuel) i hfuel
  · simp at hfuel
  obtain ⟨l, rest, he, hl0⟩ := EncStream.emitted_eq_cons extra raw (EncStream.ok_empty need)
  rw [he] at h hfuel ⊢
  have hrest : (l :: rest).length ≤ fuel := by simp at hfuel ⊢; omega
  rw [List.cons_append, List.append_assoc, List.cons_append, cobsDecLoop_block fuel hl hz, ← List.cons_append,
    h tail _ fuel _ hrest]
  congr 2
  · split_ifs <;> simp_all
  · simp; omega

/-- What the framer emits from a working state reads back as the run's bytes and the input's (R135). -/
theorem readsBack_emitted (extra : Bool) (raw : List Byte) {w : EncStream} (h : w.Ok) :
    ReadsBack (EncStream.emitted extra raw w) (w.run ++ raw) := by
  induction raw generalizing w with
  | nil =>
    cases hn : w.need with
    | false => simpa [EncStream.emitted, EncStream.stop, hn, h.run_eq hn] using readsBack_terminator
    | true =>
      have hend : ReadsBack (EncStream.emitted extra [] ⟨[], false⟩) [] := readsBack_terminator
      simpa [EncStream.emitted, EncStream.stop, hn] using hend.block h.run_lt.le h.zero_notMem
  | cons b bs ih =>
    have hc := EncStream.pushCase extra h b
    rw [EncStream.emitted]
    generalize w.push extra b = p at hc ⊢
    cases hc with
    | zero => simpa [h.run_lt.ne] using (ih (EncStream.ok_empty true)).block h.run_lt.le h.zero_notMem
    | full hb hf => simpa [hf] using (ih (EncStream.ok_empty extra)).block hf.le (h.zero_notMem_append hb)
    | longer hb hf => simpa using ih (w := ⟨w.run ++ [b], true⟩) ⟨hf, h.zero_notMem_append hb, by simp⟩

/-- A frame decodes to the bytes it was made of, whatever follows it, and is read to its end (R135, R136). -/
theorem cobsDecode_cobsEncode_append (extra : Bool) (raw tail : List Byte) :
    cobsDecode (cobsEncode extra raw ++ tail) = .ok (raw, (cobsEncode extra raw).length) := by
  rw [cobsEncode_eq_emitted, cobsDecode,
    readsBack_emitted extra raw (w := EncStream.start) (EncStream.ok_empty true) tail [] _ 0 (by simp; omega)]
  simp [EncStream.start]

/-! The header and the sealed packet (R92, R93, R177) -/

section
variable (ms : BitVec 27) (topic : BitVec 6) (command : BitVec 4) (dlen : BitVec 11)

theorem hdrToBits_hdrEncode : hdrToBits (hdrEncode ms topic command dlen) = ms ++ topic ++ command ++ dlen := by
  rw [hdrEncode, hdrToBits_hdrOfBits, hdrBits_eq_append]

/-- The fields of a packed header are those it was packed of (R172). -/
@[simp] theorem hdr_fields_hdrEncode :
    hdrMs (hdrEncode ms topic command dlen) = ms ∧ hdrTopic (hdrEncode ms topic command dlen) = topic ∧
    hdrCommand (hdrEncode ms topic command dlen) = command ∧ hdrDlen (hdrEncode ms topic command dlen) = dlen := by
  simp only [hdrMs, hdrTopic, hdrCommand, hdrDlen, hdrToBits_hdrEncode]
  exact header_fields_append ms topic command dlen

end

@[simp] theorem hdrBytes_length (h : Hdr) : (hdrBytes h).length = 6 := rfl

/-- The receive path over header, payload and transmitted checksum (R177, R178). -/
theorem depacketize_append (cfg : Config) (h : Hdr) (payload : List Byte) (hi lo : Byte) :
    depacketize cfg (hdrBytes h ++ payload ++ [hi, lo]) =
      if crcOf cfg (hdrBytes h ++ payload) ≠ hi ++ lo then .error .pktErrChecksum
      else if (hdrDlen h).toNat ≠ payload.length then .error .pktErrDataLength
      else if 86400000 ≤ (hdrMs h).toNat then .error .pktErrMillistampRange
      else .ok
        { topic := hdrTopic h, command := hdrCommand h, millistamp := hdrMs h, dataLength := hdrDlen h
          payload := payload, checksum := hi ++ lo } := by
  have hlen : (hdrBytes h ++ payload ++ [hi, lo]).length = payload.length + 8 := by simp; omega
  have hhdr : hdrOfList (hdrBytes h ++ payload ++ [hi, lo]) = h := rfl
  have hdrop : (hdrBytes h ++ payload ++ [hi, lo]).drop 6 = payload ++ [hi, lo] := rfl
  have hbody : (hdrBytes h ++ payload ++ [hi, lo]).take (payload.length + 6) = hdrBytes h ++ payload :=
    List.take_left' (by simp; omega)
  have hhi : (hdrBytes h ++ payload ++ [hi, lo]).getD (payload.length + 6) 0#8 = hi := by
    simp [hdrBytes]
  have hlo : (hdrBytes h ++ payload ++ [hi, lo]).getD (payload.length + 7) 0#8 = lo := by
    simp [hdrBytes]
  simp only [depacketize, hlen, hhdr, hdrop, Nat.reduceSubDiff, hbody, hhi, hlo, Nat.not_lt.2 (Nat.le_add_left 8 _),
    if_false, Nat.add_sub_cancel, List.take_left]

theorem bigEndian16_append (c : BitVec 16) : c.extractLsb' 8 8 ++ c.extractLsb' 0 8 = c := by
  refine BitVec.eq_of_getLsbD_eq fun i hi => ?_
  simp only [BitVec.getLsbD_append, BitVec.getLsbD_extractLsb']
  split_ifs <;> (rw [decide_eq_true (by omega), Bool.true_and]; congr 1; omega)

/-- A sealed packet whose length field is true and whose stamp is a time of day is accepted (R177, R180). -/
theorem depacketize_sealPacket {cfg : Config} {h : Hdr} {payload : List Byte} (hl : (hdrDlen h).toNat = payload.length)
    (hm : (hdrMs h).toNat < 86400000) :
    depacketize cfg (sealPacket cfg (hdrBytes h ++ payload)) = .ok
      { topic := hdrTopic h, command := hdrCommand h, millistamp := hdrMs h, dataLength := hdrDlen h
        payload := payload, checksum := crcOf cfg (hdrBytes h ++ payload) } := by
  rw [sealPacket, bigEndian16, depacketize_append, bigEndian16_append, if_neg (by simp), if_neg (by simp [hl]),
    if_neg (by omega)]

/-! The operations of the two paths when they succeed (R173 to R177) -/

theorem exec_pktConfigure {topic command : Byte} {payload : List Byte} (ht : topic.toNat ≤ 63) (hc : command.toNat ≤ 15)
    (hl : payload.length ≤ 2047) (s : State) :
    exec (.pktConfigure topic command payload) s =
      .next (State.reply .unit { s with msg := s.msg.configure topic command payload }) := by
  simp only [exec, execPktConfigure, Nat.not_lt.2 ht, Nat.not_lt.2 hc, Nat.not_lt.2 hl, if_false]

/-- Where PKT_STAMP takes its value from: the state itself when disabled, else the state that has read the clock (R174). -/
def State.stampSource (disable : Bool) (s : State) : State := if disable then s else s.readClock

theorem stampWith_of_lt {v : Nat} (hv : v < 2 ^ 27) (s : State) :
    s.stampWith v = State.reply .unit { s with msg := s.msg.stamp v } :=
  if_neg (Nat.not_le.2 hv)

theorem exec_pktStamp {disable : Bool} {v : Nat} {s : State} (hs : disable = true → v = s.cfg.stampSentinel)
    (hc : disable = false → s.env.clockAnswer = (.ok, v)) (hv : v < 2 ^ 27) :
    exec (.pktStamp disable) s = .next (State.reply .unit { s.stampSource disable with msg := s.msg.stamp v }) := by
  cases disable with
  | true => simp [exec, execPktStamp, State.stampSource, ← hs rfl, stampWith_of_lt hv]
  | false => simp [exec, execPktStamp, State.stampSource, hc rfl, stampWith_of_lt hv]

theorem exec_pktEncodeHeader {s : State} {ms : BitVec 27} (hp : Phase.stamped.reached s.msg.phase = true)
    (hm : s.msg.ms = some ms) :
    exec .pktEncodeHeader s =
      .next (State.reply (.hdr (hdrEncode ms s.msg.topic s.msg.cmd s.msg.dlen))
        { s with msg := s.msg.packHeader (hdrEncode ms s.msg.topic s.msg.cmd s.msg.dlen) }) := by
  simp [exec, execPktEncodeHeader, hp, hm]

theorem sealPacket_length (cfg : Config) (body : List Byte) : (sealPacket cfg body).length = body.length + 2 := by
  simp [sealPacket, bigEndian16]

theorem exec_pktPacketize {s : State} {h : Hdr} (hp : Phase.headerPacked.reached s.msg.phase = true)
    (hh : s.msg.hdr = some h) (hl : s.msg.payload.length = s.msg.dlen.toNat) :
    exec .pktPacketize s =
      .next (State.reply (.packet (sealPacket s.cfg (hdrBytes h ++ s.msg.payload)))
        { s with
          msg := s.msg.finalize (crcOf s.cfg (hdrBytes h ++ s.msg.payload))
            (sealPacket s.cfg (hdrBytes h ++ s.msg.payload)) }) := by
  simp [exec, execPktPacketize, hp, hh, hl, sealPacket_length]

theorem exec_pktDepacketize_of_ok {bs : List Byte} {m : RxMsg} {s : State} (h : depacketize s.cfg bs = .ok m) :
    exec (.pktDepacketize bs) s = .next (s.reply (.rxMsg m)) := by
  simp [exec, execPktDepacketize, h]

@[simp] theorem andThen_reply (r : Result) (s : State) (k : Result → State → Host.Outcome State Fault Refusal) :
    andThen (.next (s.reply r)) k = k r (s.reply r) := rfl

end Sys2Proof.Machine
end

section
/-! PROOFS. Requests as bytes, the bits of header and shadow, register exchanges, the voltage, and SEND with RECEIVE: the
obligations of the encoding (30_encoding.md). -/

namespace Sys2Proof.Machine

/-! ## Requests as bytes -/

@[simp] theorem andParse_ok {α β : Type} (a : α) (rest : List Byte) (f : α → List Byte → Parsed β) :
    andParse (.ok (a, rest)) f = f a rest := rfl

@[simp] theorem with1_ok {α : Type} (f : α → Instr) (a : α) (rest : List Byte) :
    with1 f (.ok (a, rest)) = .ok (f a, rest) := rfl

@[simp] theorem getByte_cons (b : Byte) (bs : List Byte) : getByte (b :: bs) = .ok (b, bs) := rfl

/-- The operands of an operation are read back by the reader that its code selects, one case for each form of operands (R111,
R112). -/
theorem decodeOperands_encodeOperands (i : Instr) (rest : List Byte) :
    decodeOperands i.opcode (encodeOperands i ++ rest) = .ok (i, rest) := by
  cases i with
  | cobsEnc bs | cobsDec bs | crc16 bs | pktDepacketize bs =>
    simp [decodeOperands, Instr.opcode, encodeOperands, getSeq_putSeq]
  | pktConfigure topic command payload =>
    simp [decodeOperands, Instr.opcode, encodeOperands, decodePktConfigure, getSeq_putSeq]
  | pktStamp b | adcSetOrder b | adcSetAcal b | adcSetBufen b =>
    simp [decodeOperands, Instr.opcode, encodeOperands, getBool_putBool]
  | hdrEnc ms topic command dlen =>
    simp [decodeOperands, Instr.opcode, encodeOperands, decodeHdrEnc, getBits_putNatBE]
  | adcVconv raw24 => simp [decodeOperands, Instr.opcode, encodeOperands, getBits_putNatBE]
  | adcWreg r v => simp [decodeOperands, Instr.opcode, encodeOperands, decodeAdcWreg, getReg_code]
  | adcRreg r => simp [decodeOperands, Instr.opcode, encodeOperands, getReg_code]
  | hdrDec h => rfl
  | adcSetDrate v | adcSetMux v | adcSetPga v | adcSetClkout v | adcSetSdcs v | adcSetGpio dir v => rfl
  | pktEncodeHeader | pktPacketize | adcInit | adcReadSingle | adcReadCont | adcStop | adcCycleSe | adcCycleDiff => rfl

/-- Settles O6: a request is its code and then its operands. -/
theorem decodeInvertsEncode : Obligations.DecodeInvertsEncode := decodeOperands_encodeOperands

/-- A code of no row has no operands to read (R113). -/
theorem decode_of_unassigned {op : Byte} (h : op.toNat ∉ Laws.Opcode.assigned) (rest : List Byte) :
    decode (op :: rest) = .error (.unassignedOp op) := by
  simp only [decode, decodeOperands]
  split
  case h_29 => rfl
  all_goals simp_all [Laws.Opcode.assigned]

/-- A request of an unassigned code is refused at the boundary where it is taken (R72, R113). -/
theorem step_of_unassigned {s : State} {bytes : List Byte} {op : Byte} (hi : s.Idle) (hm : s.env.moveAt 0 ≠ .reset)
    (hq : s.nextRequest = some bytes) (hd : decode bytes = .error (.unassignedOp op)) :
    step s = .next (s.tick.takeRequest.raise .errBadOp) := by
  simp [step, State.fetch, State.accept, hi, hm, hq, hd]

/-- Settles O5: such a code selects no row of the table. -/
theorem unassignedCodeIsBadOp : Obligations.UnassignedCodeIsBadOp :=
  ⟨fun _ _ rest hi hm hq ho => step_of_unassigned hi hm hq (decode_of_unassigned ho rest), fun _ => rfl,
    fun e => by cases e <;> rfl⟩

/-- Settles O7, by decoding the six words. -/
theorem tableWordsDecode : Obligations.TableWordsDecode := by
  unfold Obligations.TableWordsDecode
  decide

/-! ## SEND and RECEIVE -/

/-- The header that SEND makes of a message in range (R117). -/
def sentHdr (topic command : Byte) (payload : List Byte) (v : Nat) : Hdr :=
  hdrEncode (BitVec.ofNat 27 v) (topic.setWidth 6) (command.setWidth 4) (BitVec.ofNat 11 payload.length)

/-- The packet that SEND makes and frames (R117). -/
def sentPacket (cfg : Config) (topic command : Byte) (payload : List Byte) (v : Nat) : List Byte :=
  sealPacket cfg (hdrBytes (sentHdr topic command payload v) ++ payload)

/-- The message object that SEND leaves (R117). -/
def Msg.sent (cfg : Config) (topic command : Byte) (payload : List Byte) (v : Nat) (m : Msg) : Msg :=
  (((m.configure topic command payload).stamp v).packHeader (sentHdr topic command payload v)).finalize
    (crcOf cfg (hdrBytes (sentHdr topic command payload v) ++ payload)) (sentPacket cfg topic command payload v)

section
variable {topic command : Byte} {payload : List Byte} {disable : Bool} {v : Nat}

theorem send_eq {s : State} (ht : topic.toNat ≤ 63) (hc : command.toNat ≤ 15) (hl : payload.length ≤ 2047)
    (hs : disable = true → v = s.cfg.stampSentinel) (hk : disable = false → s.env.clockAnswer = (.ok, v))
    (hv : v < 2 ^ 27) :
    send topic command payload disable s =
      .next (State.reply (.frame (cobsEncode s.cfg.cobsExtraAfterMax (sentPacket s.cfg topic command payload v)))
        { s.stampSource disable with msg := s.msg.sent s.cfg topic command payload v }) := by
  have hdlen : payload.length = (BitVec.ofNat 11 payload.length).toNat := by simp; omega
  have hstamp := exec_pktStamp (s := State.reply .unit { s with msg := s.msg.configure topic command payload }) hs hk hv
  rw [send, exec_pktConfigure ht hc hl, andThen_reply, hstamp, andThen_reply,
    exec_pktEncodeHeader rfl rfl, andThen_reply, exec_pktPacketize rfl rfl hdlen, andThen_reply]
  cases disable <;> rfl

/-- RECEIVE of a frame of any bytes is the receive path over them (R117, R135). -/
theorem receive_cobsEncode (extra : Bool) (raw : List Byte) (s : State) :
    receive (cobsEncode extra raw) s = exec (.pktDepacketize raw) (s.reply (.raw raw (cobsEncode extra raw).length)) := by
  have hd := cobsDecode_cobsEncode_append extra raw []
  rw [List.append_nil] at hd
  have hx : exec (.cobsDec (cobsEncode extra raw)) s = .next (s.reply (.raw raw (cobsEncode extra raw).length)) := by
    simp [exec, execCobsDec, hd]
  rw [receive, hx, andThen_reply]
  rfl

theorem depacketize_sentPacket (hl : payload.length ≤ 2047) (hv : v < 86400000) (cfg : Config) :
    ∃ c, depacketize cfg (sentPacket cfg topic command payload v) = .ok
      { topic := topic.setWidth 6, command := command.setWidth 4, millistamp := BitVec.ofNat 27 v
        dataLength := BitVec.ofNat 11 payload.length, payload := payload, checksum := c } := by
  have hd := depacketize_sealPacket (cfg := cfg) (h := sentHdr topic command payload v) (payload := payload)
    (by simp [sentHdr]; omega) (by simp [sentHdr]; omega)
  simp only [sentHdr, hdr_fields_hdrEncode] at hd
  exact ⟨_, hd⟩

end

/-- Settles O32: the four operations of the send path in order, and the two of RECEIVE undo framing and sealing. -/
theorem sendThenReceive : Obligations.SendThenReceive := by
  intro s topic command payload disable v ht hc hl hs hk hv
  refine ⟨_, _, send_eq ht hc hl hs hk (by omega), rfl, rfl, ?_, ?_, fun u hu => ?_⟩
  · cases disable <;> rfl
  · cases disable with
    | true => simp [State.stampSource]
    | false => simp [State.stampSource, hk rfl]
  · obtain ⟨c, hd⟩ := depacketize_sentPacket (topic := topic) (command := command) hl hv s.cfg
    rw [receive_cobsEncode]
    refine ⟨_, _, exec_pktDepacketize_of_ok (by rw [State.reply_cfg, hu, hd]), rfl, ?_, ?_, ?_, ?_, rfl, rfl, rfl⟩
    · exact (BitVec.toNat_setWidth 6 topic).trans (Nat.mod_eq_of_lt (by omega))
    · exact (BitVec.toNat_setWidth 4 command).trans (Nat.mod_eq_of_lt (by omega))
    · exact Nat.mod_eq_of_lt (by omega)
    · exact Nat.mod_eq_of_lt (by omega)

/-! ## The header's fields -/

/-- Each field's bits, by the bytes that hold them (R91, R92). -/
theorem hdr_fields_eq (h : Hdr) :
    hdrMs h = (h.b0.setWidth 27 <<< 19) ||| (h.b1.setWidth 27 <<< 11) ||| (h.b2.setWidth 27 <<< 3) |||
      (h.b3.setWidth 27 >>> 5) ∧
    hdrTopic h = ((h.b3.setWidth 6 &&& 0x1F#6) <<< 1) ||| (h.b4 >>> 7).setWidth 6 ∧
    hdrCommand h = (h.b4 >>> 3).setWidth 4 &&& 0x0F#4 ∧
    hdrDlen h = ((h.b4.setWidth 11 &&& 0x07#11) <<< 8) ||| h.b5.setWidth 11 := by
  refine ⟨?_, ?_, ?_, ?_⟩ <;>
    (refine BitVec.eq_of_getLsbD_eq fun i hi => ?_
     simp only [hdrMs, hdrTopic, hdrCommand, hdrDlen, BitVec.getLsbD_extractLsb', getLsbD_hdrToBits]
     interval_cases i <;> simp)

/-- Settles O21, bit by bit. -/
theorem hdrDecExtractsTheFields : Obligations.HdrDecExtractsTheFields := by
  intro h s
  obtain ⟨hms, htopic, hcommand, hdlen⟩ := hdr_fields_eq h
  rw [← hms, ← htopic, ← hcommand, ← hdlen]
  rfl

/-! ## Field insertion -/

/-- A byte that shares no bit with its successor is all ones from bit 0 up to some width. -/
theorem toNat_eq_ones_of_and_succ : ∀ f : Byte, f &&& (f + 1#8) = 0#8 → ∃ k ≤ 8, f.toNat = 2 ^ k - 1 := by
  decide

/-- A field whose greatest value is all ones keeps every value up to it. -/
theorem and_eq_self_of_le_ones {f v : Byte} (hf : f &&& (f + 1#8) = 0#8) (hv : v ≤ f) : v &&& f = v := by
  obtain ⟨k, -, hk⟩ := toNat_eq_ones_of_and_succ f hf
  have : v.toNat ≤ f.toNat := hv
  have := Nat.two_pow_pos k
  refine BitVec.eq_of_toNat_eq ?_
  rw [BitVec.toNat_and, hk, Nat.and_two_pow_sub_one_eq_mod, Nat.mod_eq_of_lt (by omega)]

theorem and_fieldMax_of_fits {m v : Byte} (hm : contiguous m = true) (hv : fitsField m v = true) :
    v &&& fieldMax m = v := by
  obtain ⟨-, hm⟩ : m ≠ 0#8 ∧ fieldMax m &&& (fieldMax m + 1#8) = 0#8 := by simpa [contiguous] using hm
  have hv : v = 0#8 ∨ v ≤ fieldMax m := by simpa [fitsField] using hv
  rcases hv with rfl | hv
  · exact BitVec.zero_and
  · exact and_eq_self_of_le_ones hm hv

/-- What the field reads back after an insertion is the value's bits up to the field's width (R99). -/
theorem fieldOf_ins (old m v : Byte) : fieldOf m (ins old m v) = v &&& fieldMax m := by
  refine BitVec.eq_of_getLsbD_eq fun i hi => ?_
  simp only [fieldOf, ins, fieldMax, BitVec.getLsbD_ushiftRight, BitVec.getLsbD_and, BitVec.getLsbD_or, BitVec.getLsbD_not,
    BitVec.getLsbD_shiftLeft]
  by_cases h : lowBit m + i < 8
  · cases m.getLsbD (lowBit m + i) <;> simp [h]
  · simp [BitVec.getLsbD_of_ge m (lowBit m + i) (by omega)]

theorem ins_and_not (old m v : Byte) : ins old m v &&& ~~~m = old &&& ~~~m := by
  refine BitVec.eq_of_getLsbD_eq fun i hi => ?_
  simp only [ins, BitVec.getLsbD_and, BitVec.getLsbD_or, BitVec.getLsbD_not]
  cases m.getLsbD i <;> simp

/-- Settles O40: the field reads back what fits it of the value, and that is the whole value. -/
theorem insertionChangesOnlyTheField : Obligations.InsertionChangesOnlyTheField :=
  fun old m v hm hv => ⟨(fieldOf_ins old m v).trans (and_fieldMax_of_fits hm hv), ins_and_not old m v⟩

/-! ## Register exchanges -/

/-- The table of registers and their addresses is that of the model (R70). -/
theorem address_eq_regAddr {c : Config} {r : Reg} {address : Byte}
    (h : (r, address) ∈ [(.status, c.aStatus), (.mux, c.aMux), (.adcon, c.aAdcon), (.drate, c.aDrate), (.io, c.aIo)]) :
    address = regAddr c r := by
  cases r <;> simpa [regAddr] using h

@[simp] theorem started_regwriteEvents (s : State) (r : Reg) (v : Byte) (k : Nat) :
    s.started.regwriteEvents r v k = s.regwriteEvents r v k := rfl
@[simp] theorem started_exchEvents (s : State) (b0 b1 b2 : Byte) (k : Nat) :
    s.started.exchEvents b0 b1 b2 k = s.exchEvents b0 b1 b2 k := rfl

theorem count_waitDrdy_regwrite (c : Config) (r : Reg) (v : Byte) : (regwrite c r v).count .waitDrdy = 1 := by
  simp [regwrite, exch3]

/-- An operation that is one register write leaves its shadow at the byte sent (R202, R207). -/
theorem endsAs_wreg {i : Instr} {s : State} {r : Reg} {v : Byte}
    (hx : exec i s = .next (s.startOp (wregActions s.cfg r v))) (hr : s.NoReset) (he : s.EdgeReady) :
    EndsAs i s (s.ended (s.adc.setShadow r v) .released (s.regwriteEvents r v 0) 3 .unit) :=
  endsAs_of_did (acts := regwrite s.cfg r v) hx hr he (count_waitDrdy_regwrite _ _ _).le
    (actAll_regwrite (s := s.started) rfl r v) rfl

/-- Settles O37: each of the four operations is one register write. -/
theorem registerWritesEnd : Obligations.RegisterWritesEnd := by
  intro s hr he
  refine ⟨fun r address v ha => ?_, fun code => ?_, fun sel => ?_, fun dir val v hv => ?_⟩
  · rw [address_eq_regAddr ha]
    exact endsAs_wreg rfl hr he
  · exact endsAs_wreg (r := .drate) rfl hr he
  · exact endsAs_wreg (r := .mux) rfl hr he
  · subst hv
    exact endsAs_wreg (r := .io) rfl hr he

/-- What ADC_RREG does before its end (R208). -/
def rregBody (c : Config) (r : Reg) : List Action :=
  [.waitDrdy, .cs .asserted] ++ exch3 c (rregByte c r) c.rsvdByte c.dummyTx true ++ [.cs .released]

theorem exec_rreg (r : Reg) (s : State) :
    exec (.adcRreg r) s = .next (s.startOp (rregBody s.cfg r ++ [.finish .value])) := rfl

theorem actAll_rregBody (r : Reg) (s : State) :
    actAll (rregBody s.cfg r) s.started =
      s.started.did s.adc.clearDrdy .released
        (.cs .asserted :: s.exchEvents (rregByte s.cfg r) s.cfg.rsvdByte s.cfg.dummyTx 0 ++ [.cs .released]) 3
        [s.env.busAnswerAt 2] := by
  simp only [rregBody, actAll_append, actAll_cons, actAll_nil, act_did_waitDrdy, act_did_cs]
  rw [actAll_exch3]
  · simp
  · rfl

/-- Settles O41: of the three answers the operation keeps the third. -/
theorem registerReadEnds : Obligations.RegisterReadEnds := by
  intro s r address hr he ha
  have hw : (rregBody s.cfg r).count .waitDrdy ≤ 1 := by simp [rregBody, exch3]
  rw [address_eq_regAddr ha]
  exact endsAs_of_did (exec_rreg r s) hr he hw (actAll_rregBody r s) rfl

/-! ## The voltage -/

theorem signed24_eq_toInt (raw : BitVec 24) : signed24 raw = raw.toInt := by
  simp only [signed24, BitVec.toInt_eq_msb_cond, BitVec.msb_eq_getLsbD_last]
  rfl

theorem voltageOf_mul (vref : Rat) (pga : Nat) (raw : BitVec 24) :
    voltageOf vref pga raw * 2 ^ (22 + pga) = vref * raw.toInt := by
  rw [voltageOf, signed24_eq_toInt, Nat.cast_pow, Nat.cast_ofNat, div_mul_cancel₀ _ (by positivity)]

theorem voltageOf_bounds {vref : Rat} (h : 0 < vref) (pga : Nat) (raw : BitVec 24) :
    -(2 * vref) ≤ voltageOf vref pga raw * 2 ^ pga ∧ voltageOf vref pga raw * 2 ^ pga < 2 * vref := by
  have hv := voltageOf_mul vref pga raw
  have hlo : (-2 ^ 23 : Rat) ≤ raw.toInt := by exact_mod_cast BitVec.le_toInt raw
  have hhi : (raw.toInt : Rat) < 2 ^ 23 := by exact_mod_cast BitVec.toInt_lt
  rw [pow_add, mul_comm (2 ^ 22), ← mul_assoc] at hv
  have hlo' := mul_le_mul_of_nonneg_left hlo h.le
  have hhi' := mul_lt_mul_of_pos_left hhi h
  constructor <;> linarith

theorem exec_of_pga {s : State} {pga : Nat} (h : s.adc.pga = some pga) (raw24 : BitVec 24) :
    exec (.adcVconv raw24) s = .next (s.reply (.voltage (voltageOf s.cfg.vref pga raw24))) := by
  simp [exec, execAdcVconv, h]

/-- Settles O49: the sample lies between -2^23 and 2^23. -/
theorem vconvIsExact : Obligations.VconvIsExact := fun s pga raw24 h =>
  ⟨voltageOf s.cfg.vref pga raw24, exec_of_pga h raw24, voltageOf_mul _ _ _, fun hv => voltageOf_bounds hv pga raw24⟩

end Sys2Proof.Machine
end

section
/-! SUPPORT. The COBS unit (40_cobs.md): the shape of a frame (R132), the streaming deframer byte by byte (R141) and the
deframer block by block (R133), and what both units answer. -/

namespace Sys2Proof.Machine

/-! ## The shape of a frame -/

/-- What the framer emits from a working state ends in its terminator and holds no zero byte before it (R132 (a)); nothing
stands before it only when there is no input left and no run to emit. -/
theorem EncStream.emitted_eq_append (extra : Bool) (raw : List Byte) {w : EncStream} (h : w.Ok) :
    ∃ body, emitted extra raw w = body ++ [0x00#8] ∧ 0x00#8 ∉ body ∧ (body = [] → raw = [] ∧ w.need = false) := by
  induction raw generalizing w with
  | nil =>
    cases hn : w.need with
    | false => exact ⟨[], by simp [emitted, stop, hn]⟩
    | true =>
      exact ⟨lenByte w.run :: w.run, by simp [emitted, stop, hn, h.zero_notMem, (lenByte_ne_zero h.run_lt.le).symm]⟩
  | cons b bs ih =>
    have hc := pushCase extra h b
    rw [emitted]
    generalize w.push extra b = p at hc ⊢
    cases hc with
    | zero =>
      obtain ⟨body, he, hz, -⟩ := ih (ok_empty true)
      exact ⟨lenByte w.run :: (w.run ++ body), by simp [he, hz, h.zero_notMem, (lenByte_ne_zero h.run_lt.le).symm]⟩
    | full hb hf =>
      obtain ⟨body, he, hz, -⟩ := ih (ok_empty extra)
      exact ⟨lenByte (w.run ++ [b]) :: (w.run ++ [b] ++ body),
        by simp [he, hz, h.zero_notMem, hb.symm, (lenByte_ne_zero hf.le).symm]⟩
    | longer hb hf =>
      obtain ⟨body, he, hz, hne⟩ := ih (w := ⟨w.run ++ [b], true⟩) ⟨hf, h.zero_notMem_append hb, by simp⟩
      exact ⟨body, he, hz, fun hnil => by simpa using hne hnil⟩

/-- Without extra empty runs, each full run before the end of the input costs one byte more than the last length byte and the
terminator (R132 (d)). -/
theorem EncStream.emitted_length_bounds (raw : List Byte) {w : EncStream} (h : w.Ok) (hw : w.need = true ∨ raw ≠ []) :
    w.run.length + raw.length + 2 ≤ (emitted false raw w).length ∧
    (emitted false raw w).length ≤ w.run.length + raw.length + 2 + (w.run.length + raw.length - 1) / 254 := by
  induction raw generalizing w with
  | nil =>
    have hn : w.need = true := by simpa using hw
    simp [emitted, stop, hn]
  | cons b bs ih =>
    have hc := pushCase false h b
    rw [emitted]
    generalize w.push false b = p at hc ⊢
    cases hc with
    | zero =>
      obtain ⟨hlo, hhi⟩ := ih (ok_empty true) (.inl rfl)
      simp only [List.length_append, List.length_cons, List.length_nil] at hlo hhi ⊢
      omega
    | full hb hf =>
      simp only [List.length_append, List.length_cons, List.length_nil] at hf ⊢
      by_cases hbs : bs = []
      · simp [hbs, emitted, stop]
      · obtain ⟨hlo, hhi⟩ := ih (ok_empty false) (.inr hbs)
        have := List.length_pos_iff.mpr hbs
        simp only [List.length_nil] at hlo hhi
        omega
    | longer hb hf =>
      have := ih (w := ⟨w.run ++ [b], true⟩) ⟨hf, h.zero_notMem_append hb, by simp⟩ (.inl rfl)
      simpa [Nat.add_assoc, Nat.add_comm 1] using this

/-! ## The streaming deframer, byte by byte -/

/-- What a frame byte does to the deframer: a zero ends the operation, as the terminator or as an error, and any other byte is
read (R141). -/
inductive DecStream.PushCase (w : DecStream) : Byte → Except ErrCode (List Byte × Nat) ⊕ DecStream → Prop
  | terminator : PushCase w 0x00#8 (.inl (.ok (w.out, w.count + 1)))
  | zeroInBlock : PushCase w 0x00#8 (.inl (.error .cobsErrZeroInBlock))
  | read {b : Byte} {w' : DecStream} (hb : b ≠ 0x00#8) (hc : w'.count = w.count + 1) : PushCase w b (.inr w')

theorem DecStream.pushCase (w : DecStream) (b : Byte) : PushCase w b (w.push b) := by
  unfold push
  cases w.phase with
  | len =>
    by_cases hb : b = 0x00#8
    · simpa [hb] using .terminator
    · simpa [hb] using .read hb rfl
  | copy rem =>
    by_cases hb : b = 0x00#8
    · simpa [hb] using .zeroInBlock
    · simpa [hb] using .read hb rfl

/-- A frame without a zero byte never ends the deframer before the end of input does. -/
theorem DecStream.outcome_of_zero_notMem {frame : List Byte} (h : 0x00#8 ∉ frame) (w : DecStream) :
    outcome frame w = .error .cobsErrTruncated := by
  induction frame generalizing w with
  | nil => rfl
  | cons b bs ih =>
    have hc := w.pushCase b
    rw [outcome]
    generalize w.push b = p at hc ⊢
    cases hc with
    | terminator | zeroInBlock => simp at h
    | read hb hc => exact ih (List.not_mem_of_not_mem_cons h) _

/-- A frame that decodes does so at one of its zero bytes, whatever follows it, and the bytes up to it are those counted. -/
theorem DecStream.outcome_append {frame raw : List Byte} {n : Nat} {w : DecStream} (tail : List Byte)
    (h : outcome frame w = .ok (raw, n)) :
    outcome (frame ++ tail) w = .ok (raw, n) ∧ ∃ k, n = w.count + (k + 1) ∧ frame[k]? = some 0x00#8 := by
  induction frame generalizing w with
  | nil => cases h
  | cons b bs ih =>
    have hc := w.pushCase b
    rw [List.cons_append, outcome]
    rw [outcome] at h
    generalize w.push b = p at hc h ⊢
    cases hc with
    | terminator =>
      cases h
      exact ⟨rfl, 0, rfl, rfl⟩
    | zeroInBlock => cases h
    | read hb hc =>
      obtain ⟨happ, k, hn, hk⟩ := ih h
      exact ⟨happ, k + 1, by omega, by simpa using hk⟩

/-! ## The two deframers -/

section
variable {b : Byte} (hb : b ≠ 0x00#8)
include hb

theorem takeBlock_succ_cons (n : Nat) (bs : List Byte) :
    takeBlock (n + 1) (b :: bs) = (takeBlock n bs).map fun p => (b :: p.1, p.2) := by
  rw [takeBlock, if_neg hb]
  cases takeBlock n bs <;> rfl

theorem DecStream.outcome_cons_len (bs : List Byte) (first wasmax : Bool) (out : List Byte) (count : Nat) :
    outcome (b :: bs) ⟨.len, first, wasmax, out, count⟩ =
      outcome bs ⟨DecPhase.ofRem (b.toNat - 1), false, b == 0xFF#8,
        if !first && !wasmax then out ++ [0x00#8] else out, count + 1⟩ := by
  rw [outcome, push]
  simp only [if_neg hb]

theorem DecStream.outcome_cons_copy (n : Nat) (bs : List Byte) (first wasmax : Bool) (out : List Byte) (count : Nat) :
    outcome (b :: bs) ⟨DecPhase.ofRem (n + 1), first, wasmax, out, count⟩ =
      outcome bs ⟨DecPhase.ofRem n, first, wasmax, out ++ [b], count + 1⟩ := by
  rw [outcome, push, DecPhase.ofRem]
  simp only [if_neg hb, Nat.add_sub_cancel]

end

/-- A block through the streaming deframer is copied as `takeBlock` does, all of it or up to the same error (R133, R141). -/
theorem DecStream.outcome_copy (n : Nat) (frame : List Byte) (first wasmax : Bool) (out : List Byte) (count : Nat) :
    outcome frame ⟨DecPhase.ofRem n, first, wasmax, out, count⟩ =
      (takeBlock n frame).bind fun p => outcome p.2 ⟨.len, first, wasmax, out ++ p.1, count + n⟩ := by
  induction n generalizing frame out count with
  | zero => simp [takeBlock, DecPhase.ofRem, Except.bind]
  | succ n ih =>
    cases frame with
    | nil => rfl
    | cons b bs =>
      by_cases hb : b = 0x00#8
      · simp [outcome, push, DecPhase.ofRem, takeBlock, hb, Except.bind]
      · rw [outcome_cons_copy hb, ih, takeBlock_succ_cons hb]
        cases takeBlock n bs with
        | error e => rfl
        | ok p => simp [Except.bind, Except.map, Nat.add_comm n, Nat.add_assoc]

/-- At a length byte the two deframers differ only in that the streaming one has yet to put out the zero a block before it
stands for, which that byte decides (R133, R141). -/
theorem DecStream.outcome_len (fuel : Nat) (l : Byte) (rest : List Byte) (first wasmax : Bool) (out : List Byte)
    (count : Nat) (hf : rest.length < fuel) :
    outcome (l :: rest) ⟨.len, first, wasmax, out, count⟩ =
      cobsDecLoop (fuel + 1) (l :: rest)
        (if (!first && !wasmax) = true ∧ l ≠ 0x00#8 then out ++ [0x00#8] else out) count := by
  induction fuel generalizing l rest first wasmax out count with
  | zero => simp at hf
  | succ fuel ih =>
    by_cases hl : l = 0x00#8
    · simp [outcome, push, cobsDecLoop, hl]
    · have hpos : l.toNat ≠ 0 := fun e => hl (BitVec.eq_of_toNat_eq e)
      have hcount : count + 1 + (l.toNat - 1) = count + l.toNat := by omega
      rw [outcome_cons_len hl, outcome_copy, cobsDecLoop, if_neg hl, hcount]
      cases ht : takeBlock (l.toNat - 1) rest with
      | error e => rfl
      | ok p =>
        obtain ⟨blk, _ | ⟨next, after⟩⟩ := p
        · rfl
        · obtain ⟨hrest, -, -⟩ := takeBlock_ok ht
          have hlen : after.length < fuel := by simp [hrest] at hf; omega
          simp [Except.bind, ih next after _ _ _ _ hlen, hl]

theorem cobsDecode_eq_outcome (frame : List Byte) : cobsDecode frame = DecStream.outcome frame DecStream.start := by
  cases frame with
  | nil => rfl
  | cons l rest => exact (DecStream.outcome_len _ l rest true false [] 0 (Nat.lt_succ_self _)).symm

/-- A zero byte inside a declared block is found, even when the frame ends before the block does (R133). -/
theorem takeBlock_zero {n : Nat} {copied : List Byte} (after : List Byte) (hz : 0x00#8 ∉ copied) (hl : copied.length < n) :
    takeBlock n (copied ++ 0x00#8 :: after) = .error .cobsErrZeroInBlock := by
  induction copied generalizing n with
  | nil =>
    obtain ⟨n, rfl⟩ := Nat.exists_eq_add_of_lt hl
    simp [takeBlock]
  | cons b bs ih =>
    obtain ⟨n, rfl⟩ := Nat.exists_eq_add_of_lt hl
    simp only [List.mem_cons, not_or] at hz
    rw [List.cons_append, takeBlock_succ_cons (Ne.symm hz.1), ih hz.2 (by simp; omega)]
    rfl

theorem cobsDecode_zero_in_first_block {l : Byte} {copied : List Byte} (after : List Byte) (hz : 0x00#8 ∉ copied)
    (hl : copied.length + 1 < l.toNat) :
    cobsDecode (l :: copied ++ 0x00#8 :: after) = .error .cobsErrZeroInBlock := by
  have hl0 : l ≠ 0x00#8 := fun e => by simp [e] at hl
  simp only [cobsDecode, List.cons_append, List.length_cons, cobsDecLoop, if_neg hl0]
  rw [takeBlock_zero after hz (by omega)]

theorem resync_append {partialFrame : List Byte} (h : 0x00#8 ∉ partialFrame) (rest : List Byte) :
    resync (partialFrame ++ 0x00#8 :: rest) = rest := by
  induction partialFrame with
  | nil => rfl
  | cons b bs ih =>
    simp only [List.mem_cons, not_or] at h
    simp only [List.cons_append, resync, if_neg (Ne.symm h.1), ih h.2]

/-! ## What the unit answers -/

theorem exec_cobsDec_of_ok {frame raw : List Byte} {n : Nat} (h : cobsDecode frame = .ok (raw, n)) (s : State) :
    exec (.cobsDec frame) s = .next { s with response := some (.ok (.raw raw n)) } := by
  rw [exec, execCobsDec, h]
  rfl

theorem exec_cobsDec_of_error {frame : List Byte} {e : ErrCode} (h : cobsDecode frame = .error e) (s : State) :
    exec (.cobsDec frame) s = .next { s with response := some (.err e) } := by
  rw [exec, execCobsDec, h]
  rfl

/-- Settles O11: what the framer emits reads back, with nothing after it. -/
theorem cobsRoundTrip : Obligations.CobsRoundTrip := fun extra raw =>
  exec_cobsDec_of_ok (by simpa using cobsDecode_cobsEncode_append extra raw [])

/-- Settles O8: the framer's loop emits what the streaming framer does. -/
theorem cobsEncEqualsStreaming : Obligations.CobsEncEqualsStreaming := fun raw s => by
  rw [← cobsEncode_eq_emitted]
  rfl

/-- Settles O9: at the start a run must still be emitted. -/
theorem frameHasOneZero : Obligations.FrameHasOneZero := fun extra raw => by
  obtain ⟨body, he, hz, hne⟩ := EncStream.emitted_eq_append extra raw (EncStream.ok_empty true)
  exact ⟨body, (cobsEncode_eq_emitted extra raw).trans he, hz, fun hnil => by simpa using hne hnil⟩

/-- Settles O10, from the bounds of what the framer emits from an empty run. -/
theorem frameLengthBounds : Obligations.FrameLengthBounds := fun raw => by
  have hb := EncStream.emitted_length_bounds raw (EncStream.ok_empty true) (.inl rfl)
  simp only [List.length_nil, Nat.zero_add] at hb
  rw [cobsEncode_eq_emitted]
  exact ⟨fun hraw => hraw ▸ rfl, fun _ => hb⟩

/-- Settles O12: both deframers end alike. -/
theorem cobsDecEqualsStreaming : Obligations.CobsDecEqualsStreaming := fun frame s => by
  rw [← cobsDecode_eq_outcome]
  cases h : cobsDecode frame with
  | ok p => exact exec_cobsDec_of_ok h s
  | error e => exact exec_cobsDec_of_error h s

/-- Settles O13: the streaming deframer reads no byte after the one it ends at. -/
theorem cobsDecStopsAtTerminator : Obligations.CobsDecStopsAtTerminator := fun frame raw tail n h => by
  rw [cobsDecode_eq_outcome] at h ⊢
  obtain ⟨happ, k, hn, hk⟩ := DecStream.outcome_append tail h
  obtain rfl : n = k + 1 := by simpa [DecStream.start] using hn
  exact ⟨happ, by omega, hk⟩

/-- Settles O14: without a zero only the end of input ends the deframer, and copying the first block stops at a zero. -/
theorem cobsDecRejectsMalformed : Obligations.CobsDecRejectsMalformed :=
  ⟨fun frame s hz => exec_cobsDec_of_error
      ((cobsDecode_eq_outcome frame).trans (DecStream.outcome_of_zero_notMem hz _)) s,
    fun _ _ after s hz hl => exec_cobsDec_of_error (cobsDecode_zero_in_first_block after hz hl) s⟩

/-- Settles O15: what is left after the zero is the whole frame and what follows it. -/
theorem streamResynchronises : Obligations.StreamResynchronises := fun extra partialFrame raw tail hz => by
  rw [List.append_assoc, List.cons_append, resync_append hz, cobsDecode_cobsEncode_append]

end Sys2Proof.Machine
end

section
/-! PROOFS. The CRC unit: the bit-serial form (R161), and the residue, the linearity and the detection of one flipped bit
(R162): the obligations of the CRC unit (41_crc16.md). -/

namespace Sys2Proof.Machine

/-! ## The bit-serial register -/

/-- A pattern held in the register gives its top bit to the shift as an input bit does; the rest of it moves up (R161). -/
theorem crcShift_xor_eq_crcBit (p c e : BitVec 16) :
    crcShift p (c ^^^ e) = crcBit p c (e.getLsbD 15) ^^^ e <<< 1 := by
  simp only [crcShift, crcBit, BitVec.getLsbD_xor, BitVec.shiftLeft_xor_distrib]
  split
  · ac_rfl
  · rfl

/-- Shifting a pattern through the register is feeding it in bit by bit, but for what of it is still to come (R161). -/
theorem crcShift_iterate_xor_eq_foldl (p c e : BitVec 16) (n : Nat) :
    (crcShift p)^[n] (c ^^^ e) =
      ((List.range n).map fun i => (e <<< i).getLsbD 15).foldl (crcBit p) c ^^^ e <<< n := by
  induction n with
  | zero => simp
  | succ n ih =>
    simp only [Function.iterate_succ_apply', ih, crcShift_xor_eq_crcBit, List.range_succ, List.map_append,
      List.foldl_append, List.map_cons, List.map_nil, List.foldl_cons, List.foldl_nil, BitVec.shiftLeft_add]

/-- The bits of a byte are those its place in the high byte of the register brings to the top, one shift after another. -/
theorem bitsOf_eq_map_range (b : Byte) :
    bitsOf b = (List.range 8).map fun i => ((b.setWidth 16 <<< 8) <<< i).getLsbD 15 := by
  simp [bitsOf, List.range_succ]

theorem crcByte_eq_foldl_bitsOf (p c : BitVec 16) (b : Byte) : crcByte p c b = (bitsOf b).foldl (crcBit p) c := by
  have hout : (b.setWidth 16 <<< 8) <<< 8 = 0#16 := by
    rw [← BitVec.shiftLeft_add, BitVec.shiftLeft_eq_zero (by decide)]
  rw [crcByte, crcShift_iterate_xor_eq_foldl, ← bitsOf_eq_map_range, hout, BitVec.xor_zero]

/-- The register taken byte by byte is the bit-serial register (R161). -/
theorem crcFrom_eq_crcSerial (p c : BitVec 16) (data : List Byte) : crcFrom p c data = crcSerial p c data := by
  simp only [crcFrom, crcSerial, List.foldl_flatMap, ← crcByte_eq_foldl_bitsOf]

/-! ## The residue -/

/-- The high byte of a register, exclusive-ored into its place, leaves the low byte. -/
theorem xor_high_byte (c : BitVec 16) :
    c ^^^ (c.extractLsb' 8 8).setWidth 16 <<< 8 = (c.extractLsb' 0 8).setWidth 16 := by
  refine BitVec.eq_of_getLsbD_eq fun i hi => ?_
  simp only [BitVec.getLsbD_xor, BitVec.getLsbD_shiftLeft, BitVec.getLsbD_setWidth, BitVec.getLsbD_extractLsb']
  by_cases h8 : i < 8
  · simp [h8, hi]
  · simp [h8, hi, show i - 8 < 8 by omega, show i - 8 < 16 by omega, show 8 + (i - 8) = i by omega]

/-- Its own high byte cancels the register's, and brings the low byte up (R162). -/
theorem crcByte_high_byte (p c : BitVec 16) :
    crcByte p c (c.extractLsb' 8 8) = (c.extractLsb' 0 8).setWidth 16 <<< 8 := by
  rw [crcByte, xor_high_byte, crcShift_iterate_low]

/-- A byte against itself in the high byte of the register leaves zero. -/
theorem crcByte_cancel (p : BitVec 16) (b : Byte) : crcByte p (b.setWidth 16 <<< 8) b = 0#16 := by
  rw [crcByte, BitVec.xor_self, Function.iterate_fixed (crcShift_zero p)]

theorem crcFrom_bigEndian16_self (p c : BitVec 16) : crcFrom p c (bigEndian16 c) = 0#16 := by
  rw [bigEndian16, crcFrom_cons, crcFrom_cons, crcFrom_nil, crcByte_high_byte, crcByte_cancel]

/-! ## Linearity -/

theorem crcFrom_zipWith_xor (p : BitVec 16) {a b : List Byte} (h : a.length = b.length) (c d : BitVec 16) :
    crcFrom p (c ^^^ d) (List.zipWith (· ^^^ ·) a b) = crcFrom p c a ^^^ crcFrom p d b := by
  induction a generalizing b c d with
  | nil => simp [List.length_eq_zero_iff.1 h.symm]
  | cons x a ih =>
    cases b with
    | nil => simp at h
    | cons y b => simp only [List.zipWith_cons_cons, crcFrom_cons, crcByte_xor, ih (Nat.succ_injective h)]

/-! ## One flipped bit -/

theorem xor_one_bit_ne (x : Byte) {k : Nat} (hk : k < 8) : x ≠ x ^^^ 1#8 <<< k := by
  intro h
  have hbit := congrArg (fun v => v.getLsbD k) h
  simp [hk] at hbit

/-! ## The obligations -/

/-- Settles O16: each byte is its eight bits, most significant first. -/
theorem crcEqualsBitSerial : Obligations.CrcEqualsBitSerial := fun data s => by
  rw [← crcFrom_eq_crcSerial]
  rfl

/-- Settles O17: the checksum's two bytes cancel the register they come from. -/
theorem crcResidueIsZero : Obligations.CrcResidueIsZero := fun cfg m => by
  rw [crcOf_append, crcFrom_bigEndian16_self]

/-- Settles O18: the register is linear in itself and the bytes, and a zero byte keeps it at zero. -/
theorem crcIsLinear : Obligations.CrcIsLinear := fun cfg a b hinit => by
  simp only [crcOf, hinit, crcFrom_cons, crcByte_zero, and_true]
  exact fun hlen => crcFrom_zipWith_xor cfg.crcPoly hlen 0#16 0#16

/-- Settles O19: the differing byte gives two registers, and the bytes after it keep them apart. -/
theorem crcDetectsOneBit : Obligations.CrcDetectsOneBit := fun cfg before after x k hpoly hk h => by
  simp only [crcOf_append, crcFrom_cons, hpoly] at h
  exact xor_one_bit_ne x hk (crcByte_injective_byte _ (crcFrom_injective after h))

end Sys2Proof.Machine
end

section
/-! PROOFS. The packet unit: the header in both directions (R172), the send path over the TX message object (R173 to
R176), and the receive path over packets sealed, damaged and all zero (R177 to R181): the obligations of the packet unit
(42_packet.md). -/

namespace Sys2Proof.Machine

/-! ## The header -/

/-- A header is the one packed of its own fields (R172). -/
theorem hdrEncode_hdr_fields (h : Hdr) : hdrEncode (hdrMs h) (hdrTopic h) (hdrCommand h) (hdrDlen h) = h := by
  rw [hdrEncode, hdrBits_eq_append, hdrMs, hdrTopic, hdrCommand, hdrDlen, append_header_fields, hdrOfBits_hdrToBits]

/-! ## Sixteen bits as two bytes -/

theorem bigEndian16_append_bytes (hi lo : Byte) : bigEndian16 (hi ++ lo) = [hi, lo] := by
  simp only [bigEndian16, List.cons.injEq, and_true]
  constructor <;>
    (refine BitVec.eq_of_getLsbD_eq fun i hi => ?_
     simp only [BitVec.getLsbD_extractLsb', BitVec.getLsbD_append, hi, decide_true, Bool.true_and])
  · simp
  · simp [hi]

theorem bigEndian16_eq_shifts (c : BitVec 16) : bigEndian16 c = [(c >>> 8).setWidth 8, c.setWidth 8] := by
  simp only [bigEndian16, List.cons.injEq, and_true]
  constructor <;>
    (refine BitVec.eq_of_getLsbD_eq fun i hi => ?_
     simp [hi])

/-! ## The checksum over a packet -/

/-- The checksum of a packet whole, its own included, is zero (R162). -/
theorem crcOf_sealPacket (cfg : Config) (body : List Byte) : crcOf cfg (sealPacket cfg body) = 0#16 :=
  crcResidueIsZero cfg body

theorem crcFrom_replicate_zero (p : BitVec 16) (n : Nat) : crcFrom p 0#16 (List.replicate n 0#8) = 0#16 := by
  induction n with
  | zero => rfl
  | succ n ih => rw [List.replicate_succ, crcFrom_cons, crcByte_zero, ih]

/-! ## The receive path -/

theorem depacketize_of_short {bs : List Byte} (h : bs.length < 8) (cfg : Config) :
    depacketize cfg bs = .error .pktErrShort := if_pos h

theorem exec_pktDepacketize_append (h : Hdr) (payload : List Byte) (hi lo : Byte) (s : State) :
    exec (.pktDepacketize (hdrBytes h ++ payload ++ [hi, lo])) s = .next { s with
      response := some
        (if crcOf s.cfg (hdrBytes h ++ payload) ≠ hi ++ lo then .err .pktErrChecksum
        else if (hdrDlen h).toNat ≠ payload.length then .err .pktErrDataLength
        else if 86400000 ≤ (hdrMs h).toNat then .err .pktErrMillistampRange
        else .ok (.rxMsg
          { topic := hdrTopic h, command := hdrCommand h, millistamp := hdrMs h, dataLength := hdrDlen h
            payload := payload, checksum := hi ++ lo })) } := by
  simp only [exec, execPktDepacketize, depacketize_append]
  split_ifs <;> rfl

/-- Of a sealed packet whose length field is true only the stamp can be refused (R180). -/
theorem exec_pktDepacketize_sealPacket {h : Hdr} {payload : List Byte} (hl : (hdrDlen h).toNat = payload.length)
    (s : State) :
    exec (.pktDepacketize (sealPacket s.cfg (hdrBytes h ++ payload))) s = .next { s with
      response := some
        (if 86400000 ≤ (hdrMs h).toNat then .err .pktErrMillistampRange
        else .ok (.rxMsg
          { topic := hdrTopic h, command := hdrCommand h, millistamp := hdrMs h, dataLength := hdrDlen h
            payload := payload, checksum := crcOf s.cfg (hdrBytes h ++ payload) })) } := by
  rw [sealPacket, bigEndian16, exec_pktDepacketize_append, bigEndian16_append, if_neg (by simp), if_neg (by simp [hl])]

/-- Eight bytes or more are a header, a payload and a transmitted checksum (R177). -/
theorem exists_packet_parts {bs : List Byte} (h : 8 ≤ bs.length) :
    ∃ (hdr : Hdr) (payload : List Byte) (hi lo : Byte), bs = hdrBytes hdr ++ payload ++ [hi, lo] := by
  obtain ⟨hd, rest, rfl, hhd⟩ : ∃ hd rest : List Byte, bs = hd ++ rest ∧ hd.length = 6 :=
    ⟨bs.take 6, bs.drop 6, (List.take_append_drop 6 bs).symm, List.length_take_of_le (by omega)⟩
  have hrest : 2 ≤ rest.length := by rw [List.length_append] at h; omega
  obtain ⟨payload, tl, rfl, htl⟩ : ∃ payload tl : List Byte, rest = payload ++ tl ∧ tl.length = 2 :=
    ⟨rest.take (rest.length - 2), rest.drop (rest.length - 2), (List.take_append_drop _ rest).symm, by simp; omega⟩
  obtain ⟨hi, lo, rfl⟩ := List.length_eq_two.1 htl
  match hd, hhd with
  | [b0, b1, b2, b3, b4, b5], _ => exact ⟨⟨b0, b1, b2, b3, b4, b5⟩, payload, hi, lo, (List.append_assoc _ _ _).symm⟩

/-- Bytes whose checksum as a whole is not zero do not end in the checksum of those before it (R162, R178). -/
theorem exec_pktDepacketize_of_residue {bs : List Byte} {s : State} (hlen : 8 ≤ bs.length) (hc : crcOf s.cfg bs ≠ 0#16) :
    exec (.pktDepacketize bs) s = .next { s with response := some (.err .pktErrChecksum) } := by
  obtain ⟨hdr, payload, hi, lo, rfl⟩ := exists_packet_parts hlen
  have hne : crcOf s.cfg (hdrBytes hdr ++ payload) ≠ hi ++ lo := fun he => by
    rw [← bigEndian16_append_bytes, ← he] at hc
    exact hc (crcOf_sealPacket s.cfg _)
  rw [exec_pktDepacketize_append, if_pos hne]

/-- Zero bytes keep a zero register at zero, so that the checksum holds, and the length is right for eight of them only
(R181). -/
theorem exec_pktDepacketize_zeros (n : Nat) {s : State} (hinit : s.cfg.crcInit = 0#16) :
    exec (.pktDepacketize (List.replicate (n + 8) 0x00#8)) s = .next { s with
      response := some
        (if 0 ≠ n then .err .pktErrDataLength
        else .ok (.rxMsg
          { topic := 0, command := 0, millistamp := 0, dataLength := 0, payload := List.replicate n 0x00#8
            checksum := 0 })) } := by
  have hbody : hdrBytes ⟨0, 0, 0, 0, 0, 0⟩ ++ List.replicate n 0x00#8 = List.replicate (n + 6) 0x00#8 := rfl
  have hall : List.replicate (n + 8) 0x00#8 = List.replicate (n + 6) 0x00#8 ++ [0x00#8, 0x00#8] :=
    (List.replicate_append_replicate (m := 2)).symm
  have hcrc : crcOf s.cfg (List.replicate (n + 6) 0x00#8) = 0x00#8 ++ 0x00#8 := by
    rw [crcOf, hinit, crcFrom_replicate_zero]
    rfl
  rw [hall, ← hbody, exec_pktDepacketize_append, hbody, if_neg (not_not.2 hcrc), List.length_replicate]
  rfl

/-! ## The message object in its phases -/

theorem Phase.reached_eq_true {p now : Phase} (h : p.num ≤ now.num) : p.reached now = true := decide_eq_true h

theorem Phase.reached_eq_false {p now : Phase} (h : now.num < p.num) : p.reached now = false :=
  decide_eq_false (Nat.not_le.2 h)

theorem State.MsgOk.exists_ms {s : State} (h : s.MsgOk) (hp : Phase.stamped.reached s.msg.phase = true) :
    ∃ ms, s.msg.ms = some ms :=
  Option.isSome_iff_exists.1 (h.ms_iff.trans hp)

theorem State.MsgOk.exists_hdr {s : State} (h : s.MsgOk) (hp : Phase.headerPacked.reached s.msg.phase = true) :
    ∃ hd, s.msg.hdr = some hd :=
  Option.isSome_iff_exists.1 (h.hdr_iff.trans hp)

/-- The packet of a finalized message is its header and payload, sealed (R23, R176). -/
theorem State.MsgOk.pkt_eq_sealPacket {s : State} {p : List Byte} (h : s.MsgOk) (hf : s.msg.phase = .finalized)
    (hp : s.msg.pkt = some p) : ∃ hd, s.msg.hdr = some hd ∧ p = sealPacket s.cfg (hdrBytes hd ++ s.msg.payload) := by
  obtain ⟨hd, hh⟩ := h.exists_hdr (by rw [hf]; rfl)
  exact ⟨hd, hh, h.pkt_eq p hd hp hh⟩

/-! ## The operations of the send path when they refuse (R173 to R176) -/

theorem readClock_of_answer {s : State} {status : ClockStatus} {v : Nat} (h : s.env.clockAnswer = (status, v)) :
    s.readClock = { s with trace := s.trace ++ [.clock status v], env := s.env.takeClock } := by
  simp only [State.readClock, State.emit, h]

theorem stampWith_of_le {v : Nat} (hv : 2 ^ 27 ≤ v) (s : State) : s.stampWith v = s.raise .pktErrStampRange := if_pos hv

theorem exec_pktEncodeHeader_of_not_reached {s : State} (hp : Phase.stamped.reached s.msg.phase = false) :
    exec .pktEncodeHeader s = .next (s.raise .pktErrNoStamp) := by
  simp only [exec, execPktEncodeHeader, hp]

theorem exec_pktPacketize_of_not_reached {s : State} (hp : Phase.headerPacked.reached s.msg.phase = false) :
    exec .pktPacketize s = .next (s.raise .pktErrNoHeader) := by
  simp only [exec, execPktPacketize, hp]

/-! ## The obligations -/

/-- Settles O31: the packet is sealed, and its header is packed of the message's own fields. -/
theorem finalizedPacketIsAccepted : Obligations.FinalizedPacketIsAccepted := by
  intro s p ms c hok hf hp hms hc
  obtain ⟨hd, hh, rfl⟩ := hok.pkt_eq_sealPacket hf hp
  obtain rfl := hok.hdr_eq hd ms hh hms
  obtain rfl := hok.csum_eq c _ hc hh
  have hx := exec_pktDepacketize_sealPacket (h := hdrEncode ms s.msg.topic s.msg.cmd s.msg.dlen)
    (payload := s.msg.payload) (by simp [hok.dlen_eq]) s
  simpa only [hdr_fields_hdrEncode] using hx

/-- Settles O22. -/
theorem headerRoundTrips : Obligations.HeaderRoundTrips := ⟨hdr_fields_hdrEncode, hdrEncode_hdr_fields⟩

/-- Settles O23: operands in range keep their values in the message's narrower fields. -/
theorem configureStoresTheMessage : Obligations.ConfigureStoresTheMessage := by
  intro topic command payload s ht hc hl
  refine ⟨s.msg.configure topic command payload, exec_pktConfigure ht hc hl s, ?_, ?_, rfl, ?_, rfl, rfl, rfl, rfl, rfl⟩
  · exact (BitVec.toNat_setWidth 6 topic).trans (Nat.mod_eq_of_lt (by omega))
  · exact (BitVec.toNat_setWidth 4 command).trans (Nat.mod_eq_of_lt (by omega))
  · exact Nat.mod_eq_of_lt (by omega)

/-- Settles O25: disabled or not, the operation ends in the same assignment. -/
theorem stampAssignsTheTime : Obligations.StampAssignsTheTime := by
  intro s
  have hms : ∀ v, v < 2 ^ 27 → (s.msg.stamp v).ms.map (·.toNat) = some v := fun v hv =>
    congrArg some (Nat.mod_eq_of_lt hv)
  refine ⟨fun hv => ⟨s.msg.stamp s.cfg.stampSentinel, ?_, rfl, hms _ hv⟩,
    fun v hk hv => ⟨s.msg.stamp v, ?_, rfl, hms v hv⟩⟩
  · exact exec_pktStamp (fun _ => rfl) (absurd · (by decide)) hv
  · rw [exec_pktStamp (absurd · (by decide)) (fun _ => hk) hv, State.stampSource, readClock_of_answer hk]
    rfl

/-- Settles O27. -/
theorem encodeHeaderPacks : Obligations.EncodeHeaderPacks := by
  refine fun s hok => ⟨fun hp => exec_pktEncodeHeader_of_not_reached (Phase.reached_eq_false hp), fun hp => ?_⟩
  have hp := Phase.reached_eq_true hp
  obtain ⟨ms, hms⟩ := hok.exists_ms hp
  obtain ⟨hfms, hftopic, hfcommand, hfdlen⟩ := hdr_fields_hdrEncode ms s.msg.topic s.msg.cmd s.msg.dlen
  exact ⟨ms, _, hms, hfms, hftopic, hfcommand, hfdlen, exec_pktEncodeHeader hp hms⟩

/-- Settles O28: the length register agrees with the payload, so that the assembled length is the expected one. -/
theorem packetizeSeals : Obligations.PacketizeSeals := by
  refine fun s hok => ⟨fun hp => exec_pktPacketize_of_not_reached (Phase.reached_eq_false hp), fun hp => ?_⟩
  have hp := Phase.reached_eq_true hp
  obtain ⟨hd, hh⟩ := hok.exists_hdr hp
  refine ⟨hd, _, _, hh, rfl, ?_, ?_, exec_pktPacketize hp hh hok.dlen_eq⟩
  · rw [sealPacket, bigEndian16_eq_shifts]
    rfl
  · rw [sealPacket_length, List.length_append, hdrBytes_length, hok.dlen_eq]
    omega

/-- Settles O30. -/
theorem depacketizeChecksInOrder : Obligations.DepacketizeChecksInOrder := by
  refine ⟨fun bs s hlen => ?_, exec_pktDepacketize_append⟩
  rw [exec, execPktDepacketize, depacketize_of_short hlen]
  rfl

/-- Settles O33: the sealed packet's checksum as a whole is zero, and one flipped bit takes it from zero. -/
theorem oneFlippedBitIsRefused : Obligations.OneFlippedBitIsRefused := by
  intro s before after x k hok hpoly hf hp hk
  obtain ⟨hd, -, hseal⟩ := hok.pkt_eq_sealPacket hf hp
  have hzero : crcOf s.cfg (before ++ x :: after) = 0#16 := hseal ▸ crcOf_sealPacket s.cfg _
  have hlen := congrArg List.length hseal
  simp only [sealPacket_length, List.length_append, List.length_cons, hdrBytes_length] at hlen
  refine exec_pktDepacketize_of_residue (by simp; omega) fun h => ?_
  exact crcDetectsOneBit s.cfg before after x k hpoly hk (hzero.trans h.symm)

/-- Settles O34. -/
theorem allZeroPacket : Obligations.AllZeroPacket := by
  refine fun s hinit => ⟨exec_pktDepacketize_zeros 0 hinit, fun n hn => ?_⟩
  obtain ⟨k, rfl⟩ := Nat.exists_eq_add_of_lt hn
  rw [show 8 + k + 1 = k + 1 + 8 by omega, exec_pktDepacketize_zeros (k + 1) hinit, if_pos (by omega)]

/-- Settles O24. -/
theorem configureRefusesInOrder : Obligations.ConfigureRefusesInOrder := by
  refine fun topic command payload s => ⟨fun ht => ?_, fun ht hc => ?_, fun ht hc hl => ?_⟩
  · rw [exec, execPktConfigure, if_pos ht]
    rfl
  · rw [exec, execPktConfigure, if_neg (Nat.not_lt.2 ht), if_pos hc]
    rfl
  · rw [exec, execPktConfigure, if_neg (Nat.not_lt.2 ht), if_neg (Nat.not_lt.2 hc), if_pos hl]
    rfl

/-- Settles O26. -/
theorem stampRefuses : Obligations.StampRefuses := by
  refine fun s => ⟨fun hv => ?_, fun code v hk => ?_, fun v hk hv => ?_⟩
  · rw [exec, execPktStamp, if_pos rfl, stampWith_of_le hv]
    rfl
  · rw [exec, execPktStamp, if_neg (by decide), hk, if_pos (by simp), readClock_of_answer hk]
    rfl
  · rw [exec, execPktStamp, if_neg (by decide), hk, if_neg (by simp), stampWith_of_le hv, readClock_of_answer hk]
    rfl

end Sys2Proof.Machine
end
section
/-! PROOFS. The setters of one field, ADC_INIT, and what a hold is without an edge and with one: the obligations of the ADC
unit's registers (43_adc_regs.md). -/

namespace Sys2Proof.Machine

/-! ## What an operation that waits leaves -/

theorem noReset_startOp (acts : List Action) {s : State} (hr : s.NoReset) : (s.startOp acts).NoReset :=
  run_noReset acts (s := s.started) hr

theorem untimed_startOp (acts : List Action) {s : State} (hr : s.NoReset) :
    (effect (s.startOp acts).todo (s.startOp acts)).untimed = (effect acts s.started).untimed :=
  run_effect acts (s := s.started) hr

/-- A run leaves the main agent idle or held (R45, R274). -/
theorem run_idle_or_held (acts : List Action) (s : State) : (run acts s).Idle ∨ (run acts s).Held :=
  (run_todo acts s).imp_right fun ⟨_, h, _⟩ => congrArg List.head? h

/-- What an operation that comes to a wait leaves in some later step is the effect of its actions in order (R72, R200). -/
theorem untimed_of_startOp_goesOn {acts : List Action} {s t : State} (hr : s.NoReset) (hg : GoesOn (s.startOp acts) t)
    (ht : t.Idle) : t.untimed = (effect acts s.started).untimed :=
  (goesOn_effect_noReset hg run_rx (noReset_startOp acts hr) ht).trans (untimed_startOp acts hr)

/-! ## The setters of one field -/

/-- SETFIELD with a value in the shadow is one register write, of the byte with the field replaced (R203). -/
theorem setField_of_shadow {s : State} {r : Reg} {old : Byte} (h : s.adc.shadow r = some old) (m v : Byte) :
    s.setField r m v = s.startOp (wregActions s.cfg r (ins old m v)) := by
  simp [State.setField, h]

/-- A setter that is SETFIELD leaves its shadow at the byte with the field replaced (R203, R212 to R216). -/
theorem endsAs_setField {i : Instr} {s : State} {r : Reg} {old m v : Byte} (hx : exec i s = .next (s.setField r m v))
    (hr : s.NoReset) (he : s.EdgeReady) (h : s.adc.shadow r = some old) :
    EndsAs i s (s.ended (s.adc.setShadow r (ins old m v)) .released (s.regwriteEvents r (ins old m v) 0) 3 .unit) :=
  endsAs_wreg (hx.trans (congrArg _ (setField_of_shadow h m v))) hr he

theorem exec_setPga_of_shadow {s : State} {old : Byte} (h : s.adc.shAdcon = some old) (v : Byte) :
    exec (.adcSetPga v) s =
      .next (s.startOp ((.setPga v.toNat :: regwrite s.cfg .adcon (ins old s.cfg.mPga v)) ++ [.finish .unit])) := by
  simp [exec, execAdcSetPga, wregActions, h]

/-- ADC_SET_PGA writes the exponent register and then the shadow's byte (R211). -/
theorem endsAs_setPga {s : State} {old : Byte} (hr : s.NoReset) (he : s.EdgeReady) (h : s.adc.shAdcon = some old)
    (v : Byte) :
    EndsAs (.adcSetPga v) s
      (s.ended { s.adc with shAdcon := some (ins old s.cfg.mPga v), pga := some v.toNat } .released
        (s.regwriteEvents .adcon (ins old s.cfg.mPga v) 0) 3 .unit) := by
  refine endsAs_of_did (exec_setPga_of_shadow h v) hr he ?_ (kept := []) ?_ rfl
  · rw [List.count_cons_of_ne (by simp), count_waitDrdy_regwrite]
  · rw [actAll_cons, act_did_setPga, actAll_regwrite]
    · simp [Adc.setShadow]
    · rfl

/-- Settles O38: each setter is SETFIELD of its mask, but for ADC_SET_PGA, which writes its register first. -/
theorem fieldSettersEnd : Obligations.FieldSettersEnd := by
  refine fun s old hr he => ⟨fun h v => ⟨?_, ?_, endsAs_setPga hr he h v⟩, fun h b v hv => ?_⟩
  · exact endsAs_setField (r := .adcon) rfl hr he h
  · exact endsAs_setField (r := .adcon) rfl hr he h
  · subst hv
    exact ⟨endsAs_setField (r := .status) rfl hr he h, endsAs_setField (r := .status) rfl hr he h,
      endsAs_setField (r := .status) rfl hr he h⟩

/-! ## ADC_INIT -/

/-- The device state that ADC_INIT leaves, the flag apart (R206). -/
def State.initAdc (s : State) : Adc :=
  { s.adc with
    shStatus := some s.cfg.defStatus, shMux := some s.cfg.defMux, shAdcon := some s.cfg.defAdcon
    shDrate := some s.cfg.defDrate, pga := some (fieldOf s.cfg.mPga s.cfg.defAdcon).toNat, running := false
    irqEn := true }

/-- The events of ADC_INIT (R206). -/
def State.initEvents (s : State) : List Event :=
  [.cs .asserted] ++ pulseEvents s.cfg.hasReset .reset s.cfg.tResetLow s.cfg.tResetSettle
    ++ pulseEvents s.cfg.hasSync .sync s.cfg.tSyncpinLow s.cfg.tSyncpinSettle ++ [.attachDrdy]
    ++ s.regwriteEvents .status s.cfg.defStatus 0 ++ s.regwriteEvents .mux s.cfg.defMux 3
    ++ s.regwriteEvents .adcon s.cfg.defAdcon 6 ++ s.regwriteEvents .drate s.cfg.defDrate 9
    ++ [.cs .asserted, s.xferEvent s.cfg.cmdSelfcal 12, .cs .released]

section
variable (s : State) (adc : Adc) (level : ChipSelect) (es : List Event) (n : Nat) (kept : List Byte)

/-- REGWRITE after something done (R202). -/
theorem actAll_regwrite_did (r : Reg) (v : Byte) :
    actAll (regwrite s.cfg r v) (s.did adc level es n kept) =
      s.did (adc.setShadow r v).clearDrdy .released (es ++ s.regwriteEvents r v n) (n + 3) kept := by
  rw [actAll_regwrite (State.did_cfg s adc level es n kept)]
  simp

/-- SELFCAL after something done (R218). -/
theorem actAll_selfcal_did :
    actAll (selfcal s.cfg) (s.did adc level es n kept) =
      s.did adc.clearDrdy .released (es ++ [.cs .asserted, s.xferEvent s.cfg.cmdSelfcal n, .cs .released]) (n + 1)
        kept := by
  rw [actAll_selfcal (State.did_cfg s adc level es n kept)]
  simp

end

/-- What ADC_INIT does to the state it starts from, procedure by procedure, and its end (R206). -/
theorem actAll_init (s : State) :
    actAll (initActions s.cfg) s =
      State.act (.finish .unit) (s.did s.initAdc.clearDrdy .released s.initEvents 13 []) := by
  simp only [initActions, actAll_append, actAll_cons, actAll_nil, actAll_pulse, actAll_regwrite_did, actAll_selfcal_did,
    act_did_cs, act_did_attachDrdy, act_did_setPga, act_did_setRunning, State.did_did, State.did_adc, State.did_cs,
    Adc.setShadow, Adc.clearDrdy, List.append_nil, Nat.add_zero, Nat.zero_add, Nat.reduceAdd, State.initAdc,
    State.initEvents]

/-- The effect of ADC_INIT, holds and schedule apart (R206). -/
theorem untimed_effect_init (s : State) :
    (effect (initActions s.cfg) s.started).untimed = (s.ended s.initAdc .released s.initEvents 13 .unit).untimed := by
  rw [effect_eq_actAll, ← started_cfg, actAll_init]
  rfl

theorem exec_init (s : State) : exec .adcInit s = .next (s.startOp (initActions s.cfg)) := rfl

theorem count_waitDrdy_pulse (present : Bool) (p : Pin) (low settle : Nat) :
    (pulse present p low settle).count .waitDrdy = 0 := by
  cases present <;> simp [pulse]

theorem length_pulse_le (present : Bool) (p : Pin) (low settle : Nat) : (pulse present p low settle).length ≤ 4 := by
  cases present <;> simp [pulse]

theorem count_waitDrdy_init (c : Config) : (initActions c).count .waitDrdy = 5 := by
  simp [initActions, count_waitDrdy_pulse, count_waitDrdy_regwrite, selfcal]

theorem length_initActions_le (c : Config) : (initActions c).length ≤ 53 := by
  have hreset := length_pulse_le c.hasReset .reset c.tResetLow c.tResetSettle
  have hsync := length_pulse_le c.hasSync .sync c.tSyncpinLow c.tSyncpinSettle
  simp only [initActions, regwrite, exch3, selfcal, List.length_append, List.length_cons, List.length_nil]
  omega

/-- ADC_INIT comes to its first wait with the handler installed (R206, R282). -/
theorem init_at_first_wait {s : State} (hr : s.NoReset) :
    ∃ (as : List Action) (t : State), initActions s.cfg = initPre s.cfg ++ as ∧ s.startOp (initActions s.cfg) = run as t ∧
      t.NoReset ∧ t.adc.irqEn = true ∧ ∀ k, t.env.moveAt k = s.env.moveAt (k + (initPre s.cfg).length) := by
  have hattach : .attachDrdy ∈ initPre s.cfg := by simp [initPre]
  obtain ⟨t, ht, heq, hm, -⟩ := run_append_noWait (s := s.started)
    (as := .waitDrdy :: (initMid s.cfg ++ .waitDrdy :: initPost s.cfg)) hr (waitDrdy_notMem_initPre s.cfg)
  rw [← initActions_eq] at ht
  refine ⟨_, t, initActions_eq _, ht, fun k => ?_, (irqEn_of_untimed heq).trans (actAll_attach hattach _), hm⟩
  rw [hm]
  exact hr _

/-- With an edge at each of its actions ADC_INIT ends at once (R200, R206). -/
theorem init_ends_at_once {s : State} (hr : s.NoReset) (hm : ∀ k < 53, s.env.moveAt k = .edge) :
    (s.startOp (initActions s.cfg)).Idle := by
  obtain ⟨as, t, has, ht, hrt, hirq, hmt⟩ := init_at_first_wait hr
  have hlen : (initPre s.cfg).length + as.length ≤ 53 := by
    rw [← List.length_append, ← has]
    exact length_initActions_le _
  rw [ht]
  refine (run_manyEdges hrt hirq fun k hk => ?_).2
  rw [hmt]
  exact hm _ (by omega)

/-! ### One edge to each hold -/

/-- On a schedule that brings no edge, the handler installed, an operation is held that has `n` waits left to pass; or it is at
its end, if none. -/
structure State.HeldTimes (n : Nat) (s : State) : Prop where
  quiet : ∀ k, s.env.moveAt k = .quiet
  clear : s.adc.drdyFlag = false
  irqEn : s.adc.irqEn = true
  waits : s.todo.count .waitDrdy = n
  position : s.Idle ∨ s.Held
  rx : s.todo = [] → s.rx = []

/-- Without an edge a run with the flag clear passes no wait (R200). -/
theorem run_count_waitDrdy {acts : List Action} {s : State} (hq : ∀ k, s.env.moveAt k = .quiet)
    (hf : s.adc.drdyFlag = false) : (run acts s).todo.count .waitDrdy = acts.count .waitDrdy := by
  have hr (t : State) (ht : ∀ k, t.env.moveAt k = .quiet) : t.NoReset := noReset_of_moveAt ht (by decide)
  induction acts generalizing s with
  | nil => rfl
  | cons a as ih =>
    have hft : s.tick.adc.drdyFlag = false := by simp [hq, hf]
    by_cases ha : a = .waitDrdy
    · rw [ha, run_holds (hr s hq) hft]
    · rw [run_passes (hr s hq) (.inl ha), List.count_cons_of_ne ha]
      exact ih (fun k => by rw [act_moveAt, tick_moveAt, hq]) ((act_drdyFlag ha _).trans hft)

theorem heldTimes_run {acts : List Action} {s : State} (hq : ∀ k, s.env.moveAt k = .quiet) (hf : s.adc.drdyFlag = false)
    (hi : (run acts s).adc.irqEn = true) : (run acts s).HeldTimes (acts.count .waitDrdy) where
  quiet := run_moveAt (by decide) hq
  clear := run_flag_clear hq hf
  irqEn := hi
  waits := run_count_waitDrdy hq hf
  position := run_idle_or_held acts s
  rx := run_rx

/-- What the step of a held operation that meets an edge leaves. -/
def State.lifted (s : State) : State := s.givenEdge.resume

/-- An edge lifts a hold and is used up by it: the actions behind the wait run as from a state that never saw it (R75,
R200). -/
theorem lifted_of_held {as : List Action} {s : State} (ht : s.todo = .waitDrdy :: as) (hi : s.adc.irqEn = true)
    (hf : s.adc.drdyFlag = false) : s.lifted = run as s := by
  have hclear : s.adc.clearDrdy = s.adc := by rw [Adc.clearDrdy, ← hf]
  rw [State.lifted, State.resume, State.givenEdge_todo, ht, run_waitDrdy as (by simp), if_pos (.inr ⟨hi, rfl⟩)]
  simp [hclear, State.givenEdge]

section
variable {n : Nat} {s : State}

theorem State.HeldTimes.held (h : s.HeldTimes (n + 1)) : s.Held :=
  h.position.resolve_left fun hidle => by simpa [show s.todo = [] from hidle] using h.waits

theorem State.HeldTimes.idle (h : s.HeldTimes 0) : s.Idle :=
  h.position.resolve_right fun hh => by
    obtain ⟨as, ht⟩ := List.head?_eq_some_iff.1 hh
    simpa [ht] using h.waits

theorem State.HeldTimes.step_givenEdge (h : s.HeldTimes (n + 1)) : step s.givenEdge = .next s.lifted := by
  obtain ⟨as, ht⟩ := List.head?_eq_some_iff.1 h.held
  exact step_of_not_idle (by simp [State.Idle, ht])

theorem State.HeldTimes.lifted (h : s.HeldTimes (n + 1)) : s.lifted.HeldTimes n := by
  obtain ⟨as, ht⟩ := List.head?_eq_some_iff.1 h.held
  have hcount : as.count .waitDrdy = n := by simpa [ht] using h.waits
  rw [lifted_of_held ht h.irqEn h.clear, ← hcount]
  exact heldTimes_run h.quiet h.clear (run_irqEn as (noReset_of_moveAt h.quiet (by decide)) h.irqEn)

theorem untimed_effect_lifted (hr : s.NoReset) :
    (effect s.lifted.todo s.lifted).untimed = (effect s.todo s).untimed :=
  (run_effect s.todo (noReset_givenEdge hr)).trans (untimed_effect_congr _ (untimed_givenEdge s))

/-- An operation that has `n` waits to pass is held `n` times, and an edge to each hold brings its end (R200). -/
theorem State.HeldTimes.iterate (h : s.HeldTimes n) :
    (∀ k < n, (State.lifted^[k] s).Held ∧ step (State.lifted^[k] s).givenEdge = .next (State.lifted^[k + 1] s)) ∧
      (State.lifted^[n] s).untimed = (effect s.todo s).untimed := by
  induction n generalizing s with
  | zero =>
    refine ⟨fun k hk => absurd hk (by simp), ?_⟩
    rw [show s.todo = [] from h.idle, effect_nil h.idle (h.rx h.idle)]
    rfl
  | succ n ih =>
    obtain ⟨hsteps, hend⟩ := ih h.lifted
    refine ⟨fun k hk => ?_, hend.trans (untimed_effect_lifted (noReset_of_moveAt h.quiet (by decide)))⟩
    cases k with
    | zero => exact ⟨h.held, h.step_givenEdge⟩
    | succ k => exact hsteps k (by omega)

end

/-- Without an edge to come, the flag clear, ADC_INIT is held and has its five waits to pass (R206). -/
theorem init_heldTimes {s : State} (hf : s.adc.drdyFlag = false) (hq : ∀ k, s.env.moveAt k = .quiet) :
    (s.startOp (initActions s.cfg)).HeldTimes 5 := by
  obtain ⟨as, t, -, ht, hrt, hirq, -⟩ := init_at_first_wait (noReset_of_moveAt hq (by decide))
  rw [← count_waitDrdy_init s.cfg]
  refine heldTimes_run (s := s.started) hq hf ?_
  rw [← startOp_eq, ht]
  exact run_irqEn as hrt hirq

/-- Settles O42: however ADC_INIT is held, its effect is that of its actions in order. -/
theorem initEnds : Obligations.InitEnds := by
  rintro s _ rfl
  refine ⟨fun t ht => ?_, fun hr hm => ?_, fun hf hq => ?_⟩
  · exact (ends_effect (exec_init s) ht).trans (untimed_effect_init s)
  · exact ⟨_, exec_init s, (untimed_of_startOp_goesOn hr (.here _) (init_ends_at_once hr hm)).trans (untimed_effect_init s)⟩
  · obtain ⟨hsteps, hend⟩ := (init_heldTimes hf hq).iterate
    have heffect := untimed_startOp (initActions s.cfg) (noReset_of_moveAt hq (by decide))
    exact ⟨fun k => State.lifted^[k] (s.startOp (initActions s.cfg)), exec_init s, hsteps,
      hend.trans (heffect.trans (untimed_effect_init s))⟩

/-! ## The wait that never ends -/

/-- No wait will pass from here on: the flag is clear, and no edge comes that could set it (R200, R280). -/
structure State.NeverReady (s : State) : Prop where
  noReset : s.NoReset
  clear : s.adc.drdyFlag = false
  noEdge : (∀ k, s.env.moveAt k ≠ .edge) ∨ s.adc.irqEn = false

theorem State.NeverReady.tick_clear {s : State} (h : s.NeverReady) : s.tick.adc.drdyFlag = false := by
  have hn : ¬ s.EdgeReady := by
    rintro (hf | ⟨hi, hm⟩)
    · simp [h.clear] at hf
    · rcases h.noEdge with hk | hk
      · exact hk 0 hm
      · simp [hk] at hi
  simpa using mt (tick_drdyFlag s).1 hn

theorem State.NeverReady.tick {s : State} (h : s.NeverReady) : s.tick.NeverReady where
  noReset := noReset_tick h.noReset
  clear := h.tick_clear
  noEdge := by
    rw [tick_irqEn]
    exact h.noEdge.imp_left fun hk k => by rw [tick_moveAt]; exact hk _

/-- A held operation whose wait will not pass stays as it is for any number of steps, the place in the schedule apart (R200,
R274). -/
theorem coreRun_of_neverReady (n : Nat) {t : State} (h : t.NeverReady) (ht : t.Held) :
    ∃ u : State, Host.Core.run Sys2Proof.core n t = .next u ∧ u.Held ∧ u.response = t.response ∧
      u.adc.drdyFlag = false ∧ u.untimed = t.untimed := by
  induction n generalizing t with
  | zero => exact ⟨t, rfl, ht, rfl, h.clear, rfl⟩
  | succ n ih =>
    obtain ⟨as, htodo⟩ := List.head?_eq_some_iff.1 ht
    obtain ⟨u, hu, hheld, hresp, hflag, htimed⟩ := ih h.tick ht
    have hstep : Sys2Proof.core.step t = .next t.tick := step_held_stays htodo h.noReset h.tick_clear
    refine ⟨u, ?_, hheld, hresp, hflag, htimed.trans (untimed_tick t)⟩
    simp only [Host.Core.run, hstep]
    exact hu

/-- Settles O52: where an operation comes to its first wait the flag is still clear, and stays so. -/
theorem waitWithoutEdgeNeverEnds : Obligations.WaitWithoutEdgeNeverEnds := by
  intro i s hr hf hw hs hno
  obtain ⟨pre, post, e, hst, hsh⟩ := startsWait_of_waits hw hs
  obtain ⟨t, ht, hat⟩ := startOp_cut e hsh hr
  have hnever : t.NeverReady :=
    { noReset := hat.noReset
      clear := (hat.flag_eq (hno.imp_left fun hk k _ => hk k)).trans hf
      noEdge := hno.imp (fun hk k => by rw [hat.moveAt]; exact hk _) fun ⟨hi, hirq⟩ => (hat.irqEn_eq hi).trans hirq }
  have hrun := ht.trans (run_holds hat.noReset hnever.tick_clear)
  have hresp : t.tick.response = none := hat.response
  refine ⟨_, hst.exec_eq.trans (congrArg _ hrun), rfl, hresp, fun n => ?_⟩
  obtain ⟨hnr, hclear, hne⟩ := hnever.tick
  obtain ⟨u, hu, hheld, hur, hrest⟩ :=
    coreRun_of_neverReady n (t := { t.tick with todo := .waitDrdy :: (post ++ [.finish e]) }) ⟨hnr, hclear, hne⟩ rfl
  exact ⟨u, hu, hheld, hur.trans hresp, hrest⟩

/-! ## The edge that lifts a hold -/

@[simp] theorem withFlag_msg (f : Bool) (s : State) : (s.withFlag f).msg = s.msg := rfl
@[simp] theorem withFlag_pga (f : Bool) (s : State) : (s.withFlag f).adc.pga = s.adc.pga := rfl
theorem readClock_withFlag (f : Bool) (s : State) : (s.withFlag f).readClock = s.readClock.withFlag f := rfl

/-- Operation `i` in state `s` answers at once, and alike whatever the flag is. -/
def AnswersAtOnce (i : Instr) (s : State) : Prop :=
  ∃ t : State, t.todo = s.todo ∧ t.response ≠ none ∧ ∀ f, exec i (s.withFlag f) = .next (t.withFlag f)

/-- The flag does not bear on how a timestamp is assigned (R174, R283). -/
theorem stampWith_withFlag (v : Nat) (f : Bool) (s : State) : (s.withFlag f).stampWith v = (s.stampWith v).withFlag f := by
  unfold State.stampWith
  split <;> rfl

/-- What does not wait answers alike whatever the flag is (R283). -/
theorem exec_withFlag_of_not_waits {i : Instr} (hw : ¬ Waits i) (s : State) (f : Bool) :
    ∃ t : State, exec i s = .next t ∧ exec i (s.withFlag f) = .next (t.withFlag f) := by
  cases i with
  | cobsEnc | crc16 | hdrEnc | hdrDec => exact ⟨_, rfl, rfl⟩
  | cobsDec | pktEncodeHeader | pktDepacketize | adcVconv =>
    simp only [exec, execCobsDec, execPktEncodeHeader, execPktDepacketize, execAdcVconv, withFlag_cfg, withFlag_msg,
      withFlag_pga]
    split <;> exact ⟨_, rfl, rfl⟩
  | pktConfigure =>
    simp only [exec, execPktConfigure]
    split_ifs <;> exact ⟨_, rfl, rfl⟩
  | pktStamp =>
    simp only [exec, execPktStamp, withFlag_cfg, withFlag_env, readClock_withFlag, stampWith_withFlag]
    split_ifs <;> exact ⟨_, rfl, rfl⟩
  | pktPacketize =>
    simp only [exec, execPktPacketize, withFlag_cfg, withFlag_msg]
    split
    · refine ⟨_, rfl, ?_⟩
      rw [apply_ite (State.withFlag f)]
      rfl
    · exact ⟨_, rfl, rfl⟩
  | _ => exact absurd (by simp [Waits, Instr.opcode]) hw

theorem exec_response_of_not_waits {i : Instr} {s t : State} (hw : ¬ Waits i) (hx : exec i s = .next t) :
    t.response ≠ none := by
  cases exec_cases hx with
  | answers | refuses | sends => simp
  | starts e hi => exact absurd hi hw

/-- An operation from any state answers at once, or comes to a wait (R200, R205). -/
theorem answersAtOnce_or_startsWait (i : Instr) (s : State) : AnswersAtOnce i s ∨ Waits i ∧ StartsWait i s := by
  by_cases hw : Waits i
  · by_cases hs : s.HasShadow i
    · exact .inr ⟨hw, startsWait_of_waits hw hs⟩
    · exact .inl ⟨s.raise .adcErrNoShadow, rfl, by simp, fun f => exec_of_not_hasShadow (s := s.withFlag f) hs⟩
  · have hx := exec_withFlag_of_not_waits hw s
    obtain ⟨t, ht, -⟩ := hx false
    refine .inl ⟨t, (exec_keeps hw ht).todo, exec_response_of_not_waits hw ht, fun f => ?_⟩
    obtain ⟨u, hu, hf⟩ := hx f
    rw [ht] at hu
    cases hu
    exact hf

theorem AnswersAtOnce.endsAs_withFlag {i : Instr} {s : State} (h : AnswersAtOnce i s) :
    ∃ t : State, exec i s = .next t ∧ t.todo = s.todo ∧ t.response ≠ none ∧ EndsAs i (s.withFlag true) t := by
  obtain ⟨t, htodo, hresp, hx⟩ := h
  exact ⟨t.withFlag s.adc.drdyFlag, hx _, htodo, hresp, t.withFlag true, hx true, by simp⟩

theorem effect_cutActions_response (pre post : List Action) (e : Ending) (s : State) :
    ∃ r, (effect (cutActions pre post e) s).response = some (.ok r) := by
  simpa [cutActions] using effect_finish (pre ++ .waitDrdy :: post) e s

/-- An operation with one wait, started with an edge remembered, leaves the effect of its actions in order (R200). -/
theorem endsAs_withFlag {i : Instr} {s u : State} {pre post : List Action} {e : Ending} (hi : i ≠ .adcInit)
    (hst : Starts i s (cutActions pre post e)) (hsh : WaitShape i pre post) (hr : s.NoReset)
    (hu : u.untimed = (effect (cutActions pre post e) s.started).untimed) : EndsAs i (s.withFlag true) u := by
  have hcount : (cutActions pre post e).count .waitDrdy ≤ 1 := by
    simp [cutActions, List.count_eq_zero.2 hsh.pre_wait, List.count_eq_zero.2 (hsh.post_wait hi)]
  refine endsAs_of_effect (hst true) hr (.inl rfl) hcount (.trans ?_ hu.symm)
  exact untimed_effect_congr _ rfl

/-- An operation with one wait that is held has the actions behind it left to run. -/
theorem startOp_held {i : Instr} {s : State} {pre post : List Action} {e : Ending} (hi : i ≠ .adcInit)
    (hsh : WaitShape i pre post) (hr : s.NoReset) (hh : (s.startOp (cutActions pre post e)).Held) :
    (s.startOp (cutActions pre post e)).todo = .waitDrdy :: (post ++ [.finish e]) := by
  obtain ⟨t, ht, hat⟩ := startOp_cut e hsh hr
  by_cases hf : t.tick.adc.drdyFlag = true
  · rw [ht, run_passes hat.noReset (.inr hf), State.Held,
      (run_post_ends e (hsh.post_wait hi) (noReset_act .waitDrdy (noReset_tick hat.noReset))).1] at hh
    cases hh
  · rw [ht, run_holds hat.noReset (by simpa using hf)]

/-- A held operation that meets an edge, the handler installed, goes on behind its wait (R200, R280). -/
theorem step_givenEdge {as : List Action} {t : State} (ht : t.todo = .waitDrdy :: as) (hr : t.NoReset)
    (hi : t.adc.irqEn = true) : step t.givenEdge = .next (run as (t.givenEdge.tick.act .waitDrdy)) :=
  step_held_passes ht (noReset_givenEdge hr) ((tick_drdyFlag _).2 (.inr ⟨hi, rfl⟩))

/-- A held operation with one wait, the handler installed, ends in the step that meets an edge (R200, R280). -/
theorem edge_ends_held {i : Instr} {s t : State} (hi : i ≠ .adcInit) (hs : s.Idle) (hr : s.NoReset)
    (hx : exec i s = .next t) (hh : t.Held) (hirq : s.adc.irqEn = true) :
    ∃ v, step t.givenEdge = .next v ∧ v.Idle ∧ v.response ≠ none ∧ EndsAs i (s.withFlag true) v := by
  rcases answersAtOnce_or_startsWait i s with ha | ⟨-, pre, post, e, hst, hsh⟩
  · obtain ⟨u, hu, htodo, -⟩ := ha.endsAs_withFlag
    rw [hx] at hu
    cases hu
    simp [State.Held, htodo, hs] at hh
  · rw [hst.exec_eq] at hx
    cases hx
    have hrt := noReset_startOp (cutActions pre post e) hr
    have htodo := startOp_held hi hsh hr hh
    have hstep := step_givenEdge htodo hrt (run_irqEn _ (s := s.started) hr hirq)
    obtain ⟨hidle, r, hresp⟩ := run_post_ends e (hsh.post_wait hi)
      (noReset_act .waitDrdy (noReset_tick (noReset_givenEdge hrt)))
    have hgoes := GoesOn.further (by simp [State.Idle, htodo]) hstep (.here _)
    refine ⟨_, hstep, hidle, by simp [hresp], endsAs_withFlag hi hst hsh hr ?_⟩
    rw [goesOn_effect_noReset hgoes (by simp [htodo]) (noReset_givenEdge hrt) hidle]
    exact (untimed_effect_congr _ (untimed_givenEdge _)).trans (untimed_startOp _ hr)

/-- In whichever step an operation with at most one wait ends, it leaves what it leaves when an edge was remembered. -/
theorem ends_as_remembered {i : Instr} {s t : State} (hi : i ≠ .adcInit) (hs : s.Idle) (hr : s.NoReset)
    (h : Ends i s t) : EndsAs i (s.withFlag true) t := by
  rcases answersAtOnce_or_startsWait i s with ha | ⟨-, pre, post, e, hst, hsh⟩
  · obtain ⟨u, hu, htodo, -, hends⟩ := ha.endsAs_withFlag
    obtain ⟨v, hv, hgoes, -⟩ := h
    rw [hu] at hv
    cases hv
    rwa [goesOn_of_idle hgoes (htodo.trans hs)]
  · exact endsAs_withFlag hi hst hsh hr (ends_effect hst.exec_eq h)

/-- With edges without end every operation ends, ADC_INIT having installed the handler itself (R200, R206, R314). -/
theorem ends_of_fair {i : Instr} {s : State} (hs : s.Idle) (hr : s.NoReset)
    (hirq : Waits i → s.adc.irqEn = true ∨ i = .adcInit) (hf : s.Fair) : ∃ t, Ends i s t := by
  rcases answersAtOnce_or_startsWait i s with ha | ⟨hw, pre, post, e, hst, hsh⟩
  · obtain ⟨u, hu, htodo, hresp, -⟩ := ha.endsAs_withFlag
    exact ⟨u, u, hu, .here u, htodo.trans hs, hresp⟩
  · obtain ⟨t, ht, hat⟩ := startOp_cut e hsh hr
    have hirqEn : (s.startOp (cutActions pre post e)).adc.irqEn = true := by
      rw [ht]
      exact run_irqEn _ hat.noReset (hat.irqEn (hirq hw))
    obtain ⟨v, hgoes, hidle⟩ := goesOn_idle_of_fair _ le_rfl (run_idle_or_held _ _) hirqEn
      (noReset_startOp _ hr) (run_fair _ (s := s.started) hr hf)
    obtain ⟨r, hresp⟩ := effect_cutActions_response pre post e s.started
    refine ⟨v, _, hst.exec_eq, hgoes, hidle, ?_⟩
    rw [response_of_untimed (untimed_of_startOp_goesOn hr hgoes hidle)]
    simp [hresp]

/-- Settles O53: a held operation has the actions behind its wait left to run, and however it is held, its effect is that of
its actions in order. -/
theorem edgeLiftsTheHold : Obligations.EdgeLiftsTheHold := fun _ _ hs hr =>
  ⟨fun _ hi hx hh hirq => edge_ends_held hi hs hr hx hh hirq, fun _ hi h => ends_as_remembered hi hs hr h,
    ends_of_fair hs hr⟩

end Sys2Proof.Machine
end

section
/-! PROOFS. The continuous read, the stop, the two cycling machines and their period: the obligations of the ADC unit's
acquisition (44_adc_acq.md). -/

namespace Sys2Proof.Machine

/-! ## The end with a sample -/

/-- The three answers from the `k`-th on. -/
def State.answers3 (s : State) (k : Nat) : List Byte :=
  [s.env.busAnswerAt k, s.env.busAnswerAt (k + 1), s.env.busAnswerAt (k + 2)]

@[simp] theorem State.did_answers3 (s : State) (adc : Adc) (level : ChipSelect) (es : List Event) (n : Nat)
    (kept : List Byte) (k : Nat) : (s.did adc level es n kept).answers3 k = s.answers3 (n + k) := by
  simp [State.answers3, Nat.add_assoc]

@[simp] theorem started_answers3 (s : State) (k : Nat) : s.started.answers3 k = s.answers3 k := rfl

/-- READ3, its answers as a list (R240). -/
theorem actAll_read3_answers3 {c : Config} {s : State} (hc : s.cfg = c) :
    actAll (read3 c) s = s.did s.adc s.cs (s.read3Events 0) 3 (s.answers3 0) :=
  actAll_read3 hc

/-- An operation with one hold at most that kept three answers in a row returns their sample (R200, R240). -/
theorem endsAs_sample {i : Instr} {acts : List Action} {s : State} {adc : Adc} {level : ChipSelect} {es : List Event}
    {n k : Nat} (hx : exec i s = .next (s.startOp (acts ++ [.finish .sample]))) (hr : s.NoReset) (he : s.EdgeReady)
    (hw : acts.count .waitDrdy ≤ 1)
    (h : actAll acts s.started = s.started.did adc.clearDrdy level es n (s.answers3 k)) :
    EndsAs i s (s.ended adc level es n (.sample (s.sampleAt k))) :=
  endsAs_of_did hx hr he hw h (by rw [sampleAt_eq]; rfl)

/-! ## The continuous read and the stop -/

/-- What ADC_READ_CONT does before its end when it opens the session (R242). -/
def readContOpening (c : Config) : List Action :=
  [.setRunning true, .cs .asserted, .waitDrdy, .xfer c.cmdRdatac false] ++ read3 c

/-- What ADC_READ_CONT does before its end inside a session (R242). -/
def readContInside (c : Config) : List Action := .waitDrdy :: read3 c

theorem exec_readCont_opening {s : State} (h : s.adc.running = false) :
    exec .adcReadCont s = .next (s.startOp (readContOpening s.cfg ++ [.finish .sample])) := by
  simp [exec, execAdcReadCont, readContActions, readContOpening, h]

theorem exec_readCont_inside {s : State} (h : s.adc.running = true) :
    exec .adcReadCont s = .next (s.startOp (readContInside s.cfg ++ [.finish .sample])) := by
  simp [exec, execAdcReadCont, readContActions, readContInside, h]

theorem actAll_readContOpening {c : Config} {s : State} (hc : s.cfg = c) :
    actAll (readContOpening c) s =
      s.did (Adc.clearDrdy { s.adc with running := true }) .asserted
        ([.cs .asserted, s.xferEvent c.cmdRdatac 0] ++ s.read3Events 1) 4 (s.answers3 1) := by
  simp [readContOpening, actAll_read3_answers3, act_did_setRunning, act_did_cs, act_did_waitDrdy, act_did_xfer, hc]

theorem actAll_readContInside {c : Config} {s : State} (hc : s.cfg = c) :
    actAll (readContInside c) s = s.did s.adc.clearDrdy s.cs (s.read3Events 0) 3 (s.answers3 0) := by
  simp [readContInside, actAll_read3_answers3, act_did_waitDrdy, hc]

/-- Settles O44: RUNNING at the start decides between the two lists of actions. -/
theorem readContEnds : Obligations.ReadContEnds := by
  refine fun s hr he => ⟨fun h => ?_, fun h => ?_⟩
  · exact endsAs_sample (exec_readCont_opening h) hr he (by simp [readContOpening, read3])
      (actAll_readContOpening (s := s.started) rfl)
  · exact endsAs_sample (exec_readCont_inside h) hr he (by simp [readContInside, read3])
      (actAll_readContInside (s := s.started) rfl)

/-- What ADC_STOP does before its end (R243). -/
def stopBody (c : Config) : List Action := [.waitDrdy, .xfer c.cmdSdatac false, .cs .released, .setRunning false]

theorem exec_stop (s : State) : exec .adcStop s = .next (s.startOp (stopBody s.cfg ++ [.finish .unit])) := rfl

theorem actAll_stopBody (c : Config) (s : State) :
    actAll (stopBody c) s =
      s.did (Adc.clearDrdy { s.adc with running := false }) .released [s.xferEvent c.cmdSdatac 0, .cs .released] 1 [] := by
  simp [stopBody, act_did_waitDrdy, act_did_xfer, act_did_cs, act_did_setRunning, Adc.clearDrdy]

/-- Settles O45: the four actions before the end are all that ADC_STOP does. -/
theorem stopEnds : Obligations.StopEnds := fun s hr he =>
  endsAs_of_did (exec_stop s) hr he (by simp [stopBody]) (actAll_stopBody s.cfg s.started) rfl

/-! ## One invocation of a cycling machine -/

/-- What the first invocation does before the steps: it opens the session and preloads a multiplexer byte (R246). -/
def cyclePreamble (c : Config) (mux : Byte) : List Action :=
  [.setRunning true, .setCycle 0#3, .cs .asserted] ++ muxwr c mux

/-- Steps (1) to (7) towards the entry `mux` of index `next`, but for the end (R246). -/
def cycleSteps (c : Config) (mux : Byte) (next : Nat) : List Action :=
  [.waitDrdy] ++ muxwr c mux
    ++ [.xfer c.cmdSync false, .delayUs c.tSyncWake, .xfer c.cmdWakeup false, .xfer c.cmdRdata false] ++ read3 c
    ++ [.setCycle (BitVec.ofNat 3 next)]

/-- The events of steps (1) to (7), their answers from the `k`-th on (R246). -/
def State.cycleEvents (s : State) (mux : Byte) (k : Nat) : List Event :=
  s.exchEvents (wregByte s.cfg .mux) s.cfg.rsvdByte mux k
    ++ [s.xferEvent s.cfg.cmdSync (k + 3), .delayUs s.cfg.tSyncWake, s.xferEvent s.cfg.cmdWakeup (k + 4),
      s.xferEvent s.cfg.cmdRdata (k + 5)] ++ s.read3Events (k + 6)

@[simp] theorem State.did_cycleEvents (s : State) (adc : Adc) (level : ChipSelect) (es : List Event) (n : Nat)
    (kept : List Byte) (mux : Byte) (k : Nat) :
    (s.did adc level es n kept).cycleEvents mux k = s.cycleEvents mux (n + k) := by
  simp [State.cycleEvents, Nat.add_assoc]

theorem actAll_cyclePreamble {c : Config} {s : State} (hc : s.cfg = c) (mux : Byte) :
    actAll (cyclePreamble c mux) s =
      s.did { s.adc with running := true, shMux := some mux, cycle := 0 } .asserted
        (.cs .asserted :: s.exchEvents (wregByte c .mux) c.rsvdByte mux 0) 3 [] := by
  simp [cyclePreamble, actAll_muxwr, act_did_setRunning, act_did_setCycle, act_did_cs, hc]

theorem actAll_cycleSteps {c : Config} {s : State} (hc : s.cfg = c) (mux : Byte) (next : Nat) :
    actAll (cycleSteps c mux next) s =
      s.did (Adc.clearDrdy { s.adc with shMux := some mux, cycle := BitVec.ofNat 3 next }) s.cs (s.cycleEvents mux 0) 9
        (s.answers3 6) := by
  simp [cycleSteps, actAll_muxwr, actAll_read3_answers3, act_did_waitDrdy, act_did_xfer, act_did_delayUs,
    act_did_setCycle, State.cycleEvents, Adc.clearDrdy, hc]

/-- The first invocation, but for the end (R246). -/
theorem actAll_cycle_opening {c : Config} {s : State} (hc : s.cfg = c) (mux0 mux1 : Byte) :
    actAll (cyclePreamble c mux0 ++ cycleSteps c mux1 1) s =
      s.did (Adc.clearDrdy { s.adc with running := true, shMux := some mux1, cycle := 1 }) .asserted
        (.cs .asserted :: s.exchEvents (wregByte c .mux) c.rsvdByte mux0 0 ++ s.cycleEvents mux1 3) 12
        (s.answers3 9) := by
  simp [actAll_cyclePreamble, actAll_cycleSteps, hc]

theorem count_waitDrdy_cyclePreamble (c : Config) (mux : Byte) : (cyclePreamble c mux).count .waitDrdy = 0 := by
  simp [cyclePreamble, muxwr, exch3]

theorem count_waitDrdy_cycleSteps (c : Config) (mux : Byte) (next : Nat) :
    (cycleSteps c mux next).count .waitDrdy = 1 := by
  simp [cycleSteps, muxwr, exch3, read3]

section
variable {i : Instr} {s : State} {n : Nat} {table : Vector Byte n}

/-- Operation `i` in state `s` is an invocation of the cycling machine over `table` (R246, R248). -/
def Cycles (i : Instr) (s : State) (table : Vector Byte n) : Prop :=
  exec i s = .next (s.startOp (cycleActions s.cfg table s.adc))

theorem cycles_se (s : State) : Cycles .adcCycleSe s s.cfg.muxSe := rfl
theorem cycles_diff (s : State) : Cycles .adcCycleDiff s s.cfg.muxDiff := rfl

/-- Inside a session an invocation is steps (1) to (7) alone (R246). -/
theorem cycleActions_inside (c : Config) {a : Adc} (h : a.running = true) {k : Fin n}
    (hk : k.val = nextIndex n a.cycle.toNat) :
    cycleActions c table a = cycleSteps c table[k] k.val ++ [.finish .sample] := by
  simp [cycleActions, cycleSteps, startCycle, h, ← hk]

/-- Outside a session an invocation is the preamble with entry 0 and the steps towards entry 1 (R246). -/
theorem cycleActions_opening (c : Config) {a : Adc} (h : a.running = false) (hn : 1 < n) :
    cycleActions c table a = (cyclePreamble c table[0] ++ cycleSteps c table[1] 1) ++ [.finish .sample] := by
  have h0 : 0 < n := by omega
  simp [cycleActions, cyclePreamble, cycleSteps, startCycle, nextIndex, h, h0, hn, Nat.mod_eq_of_lt hn]

theorem endsAs_cycle_inside (hx : Cycles i s table) (hr : s.NoReset) (he : s.EdgeReady) (h : s.adc.running = true)
    {k : Fin n} (hk : k.val = nextIndex n s.adc.cycle.toNat) :
    EndsAs i s (s.ended { s.adc with shMux := some table[k], cycle := BitVec.ofNat 3 k.val } s.cs
      (s.cycleEvents table[k] 0) 9 (.sample (s.sampleAt 6))) := by
  rw [Cycles, cycleActions_inside s.cfg h hk] at hx
  exact endsAs_sample hx hr he (count_waitDrdy_cycleSteps _ _ _).le (actAll_cycleSteps (s := s.started) rfl _ _)

theorem endsAs_cycle_opening (hx : Cycles i s table) (hr : s.NoReset) (he : s.EdgeReady) (h : s.adc.running = false)
    (hn : 1 < n) :
    EndsAs i s (s.ended { s.adc with running := true, shMux := some table[1], cycle := 1 } .asserted
      (.cs .asserted :: s.exchEvents (wregByte s.cfg .mux) s.cfg.rsvdByte table[0] 0 ++ s.cycleEvents table[1] 3) 12
      (.sample (s.sampleAt 9))) := by
  rw [Cycles, cycleActions_opening s.cfg h hn] at hx
  refine endsAs_sample hx hr he ?_ (actAll_cycle_opening (s := s.started) rfl _ _)
  rw [List.count_append, count_waitDrdy_cyclePreamble, count_waitDrdy_cycleSteps]

end

/-- Settles O46: both machines are the same steps over their own table. -/
theorem cycleStepEnds : Obligations.CycleStepEnds := fun s hr he h =>
  ⟨fun _ hk => endsAs_cycle_inside (cycles_se s) hr he h hk, fun _ hk => endsAs_cycle_inside (cycles_diff s) hr he h hk⟩

/-- Settles O47: both machines are the same preamble and steps over their own table. -/
theorem cycleFirstEnds : Obligations.CycleFirstEnds := by
  intro s hr he h
  have hse := endsAs_cycle_opening (cycles_se s) hr he h (by decide)
  have hdiff := endsAs_cycle_opening (cycles_diff s) hr he h (by decide)
  simp only [State.cycleEvents, ← List.append_assoc] at hse hdiff
  exact ⟨hse, hdiff⟩

/-! ## The period -/

section
variable {i : Instr} {s t : State} {n : Nat} {table : Vector Byte n}

/-- An invocation leaves RUNNING set and the index at the next entry (R246). -/
theorem effect_cycleActions {c : Config} (hc : s.cfg = c) (table : Vector Byte n) (hn : 1 < n) :
    (effect (cycleActions c table s.adc) s).adc.running = true ∧
      (effect (cycleActions c table s.adc) s).adc.cycle =
        BitVec.ofNat 3 (nextIndex n (startCycle s.adc).toNat) := by
  cases h : s.adc.running with
  | true =>
    have hlt : nextIndex n s.adc.cycle.toNat < n := Nat.mod_lt _ (by omega)
    rw [cycleActions_inside c h (k := ⟨_, hlt⟩) rfl, effect_eq_actAll, actAll_append, actAll_cycleSteps hc]
    simp [State.act, startCycle, h]
  | false =>
    rw [cycleActions_opening c h hn, effect_eq_actAll, actAll_append, actAll_cycle_opening hc]
    simp [State.act, startCycle, nextIndex, h, Nat.mod_eq_of_lt hn]

/-- An invocation that ends, held or not, leaves the session open and the index at the next entry (R246, R248). -/
theorem ends_cycle (hx : Cycles i s table) (hn : 1 < n) (h : Ends i s t) :
    t.adc.running = true ∧ t.adc.cycle = BitVec.ofNat 3 (nextIndex n (startCycle s.adc).toNat) := by
  have heq := ends_effect hx h
  obtain ⟨hrun, hcycle⟩ := effect_cycleActions (s := s.started) rfl table hn
  exact ⟨(running_of_untimed heq).trans hrun, (cycle_of_untimed heq).trans hcycle⟩

/-- The index an invocation works from is, after one that ended, the entry it stopped at. -/
theorem startCycle_of_ends (hx : Cycles i s table) (hn : 1 < n) (hn8 : n ≤ 8) (h : Ends i s t) :
    (startCycle t.adc).toNat = nextIndex n (startCycle s.adc).toNat := by
  obtain ⟨hrun, hcycle⟩ := ends_cycle hx hn h
  have hlt : nextIndex n (startCycle s.adc).toNat < n := Nat.mod_lt _ (by omega)
  rw [startCycle, if_pos hrun, hcycle, BitVec.toNat_ofNat, Nat.mod_eq_of_lt (by omega)]

end

/-- `m` invocations in a row advance the index by `m`, modulo the size of the table (R251). -/
theorem startCycle_after {i : Instr} {n : Nat} {table : State → Vector Byte n} {f : Nat → State}
    (hx : ∀ s, Cycles i s (table s)) (hn : 1 < n) (hn8 : n ≤ 8) (h0 : (startCycle (f 0).adc).toNat < n) (m : Nat)
    (h : ∀ k < m, Ends i (f k) (f (k + 1))) :
    (startCycle (f m).adc).toNat = ((startCycle (f 0).adc).toNat + m) % n := by
  induction m with
  | zero => exact (Nat.mod_eq_of_lt h0).symm
  | succ m ih =>
    rw [startCycle_of_ends (hx _) hn hn8 (h m (by omega)), ih fun k hk => h k (by omega), nextIndex, Nat.mod_add_mod,
      Nat.add_assoc]

/-- As many invocations in a row as the table has entries bring the index back to where the first started (R251). -/
theorem cycle_returns {i : Instr} {n : Nat} {table : State → Vector Byte n} {f : Nat → State}
    (hx : ∀ s, Cycles i s (table s)) (hn : 1 < n) (hn8 : n ≤ 8) (h0 : (startCycle (f 0).adc).toNat < n)
    (h : ∀ k < n, Ends i (f k) (f (k + 1))) : (f n).adc.cycle = startCycle (f 0).adc := by
  obtain ⟨m, rfl⟩ : ∃ m, n = m + 1 := ⟨n - 1, by omega⟩
  obtain ⟨hrun, -⟩ := ends_cycle (hx _) hn (h m (by omega))
  have hback := startCycle_after hx hn hn8 h0 _ h
  rw [Nat.add_mod_right, Nat.mod_eq_of_lt h0] at hback
  calc (f (m + 1)).adc.cycle = startCycle (f (m + 1)).adc := (if_pos hrun).symm
    _ = startCycle (f 0).adc := BitVec.eq_of_toNat_eq hback

/-- Settles O48: the index advances by one modulo the size of the table in each invocation. -/
theorem cyclesReturnToTheirStart : Obligations.CyclesReturnToTheirStart := by
  refine ⟨fun f h => ?_, fun f h h4 => ?_⟩
  · exact cycle_returns cycles_se (by decide) le_rfl (startCycle (f 0).adc).isLt h
  · refine cycle_returns cycles_diff (by decide) (by decide) ?_ h
    cases hrun : (f 0).adc.running <;> simp [startCycle, hrun, h4]

end Sys2Proof.Machine
end

section
/-! PROOFS. What an error leaves, and the interrupt agent's edge in an idle block: the obligations of the exceptions
(60_exceptions.md). -/

namespace Sys2Proof.Machine

/-! ## What an error leaves -/

theorem act_response_ne_err {s : State} {e : ErrCode} (h : s.response ≠ some (.err e)) (a : Action) :
    (s.act a).response ≠ some (.err e) := by
  cases a with
  | finish => simp [State.act]
  | _ => exact h

/-- Once its actions run, an operation ends with `OK` or not at all (R205, R273). -/
theorem run_response_ne_err (acts : List Action) {s : State} {e : ErrCode} (h : s.response ≠ some (.err e)) :
    (run acts s).response ≠ some (.err e) :=
  run_preserves (P := fun t => t.response ≠ some (.err e)) acts (fun _ h => h) (fun a _ _ h => act_response_ne_err h a)
    (fun _ _ _ h => h) (fun _ h => h) (fun _ _ => by simp) s h

/-- An operation that ends with an error code did nothing but give it, and read the clock at most (R273). -/
theorem eq_raise_of_exec_err {i : Instr} {s t : State} {e : ErrCode} (hx : exec i s = .next t)
    (he : t.response = some (.err e)) : t = s.raise e ∨ i = .pktStamp false ∧ t = s.readClock.raise e := by
  cases exec_cases hx with
  | answers r => simp at he
  | refuses e' hu =>
    obtain rfl : e' = e := by simpa using he
    rcases hu with rfl | ⟨hi, rfl⟩
    · exact .inl rfl
    · exact .inr ⟨hi, rfl⟩
  | sends r => simp at he
  | starts => exact absurd he (run_response_ne_err (s := s.started) _ nofun)

/-- Settles O35: the response and, for PKT_STAMP, the clock are all an error has touched. -/
theorem errorsLeaveTheRegisters : Obligations.ErrorsLeaveTheRegisters := by
  intro i s t e hx he
  rcases eq_raise_of_exec_err hx he with rfl | ⟨hi, rfl⟩
  · exact ⟨rfl, rfl, rfl, rfl, rfl, rfl, rfl, rfl, .inl rfl⟩
  · exact ⟨rfl, rfl, rfl, rfl, rfl, rfl, rfl, rfl, .inr ⟨hi, _, _, rfl⟩⟩

/-! ## An edge in an idle block -/

/-- The interrupt agent's action writes the flag alone (R280). -/
theorem Adc.drdyEdge_eq (a : Adc) : a.drdyEdge = { a with drdyFlag := a.drdyFlag || a.irqEn } := by
  obtain ⟨_, _, _, _, _, _, _, _, flag, irqEn⟩ := a
  cases irqEn with
  | true => simp [Adc.drdyEdge]
  | false => simp [Adc.drdyEdge]

/-- The host's next request and a point of the schedule do not bear on each other (R72, R73). -/
theorem takeRequest_tick (s : State) : s.tick.takeRequest = { s.takeRequest with adc := s.tick.adc, env := s.tick.env } := by
  cases h : s.requests with
  | nil => rw [State.takeRequest_nil h, State.takeRequest_nil (s := s.tick) h]; rfl
  | cons => rw [State.takeRequest_cons h, State.takeRequest_cons (s := s.tick) h]; rfl

/-- Settles O50: the step of an idle block without a request is the point of the schedule with the edge. -/
theorem edgeSetsTheFlag : Obligations.EdgeSetsTheFlag := by
  intro s hi hq hm
  rw [step_of_no_request hi (by simp [hm]) hq, takeRequest_tick, State.tick_adc, if_pos hm, Adc.drdyEdge_eq, State.tick_env]

end Sys2Proof.Machine
end

section
/-! PROOFS. The step that meets a reset: the obligation of reset and hazards (70_reset_and_hazards.md). -/

namespace Sys2Proof.Machine

/-- A reset due at the first action abandons the whole list before any of it is done (R310). -/
theorem run_of_reset {acts : List Action} {s : State} (hne : acts ≠ []) (hm : s.env.moveAt 0 = .reset) :
    run acts s = s.tick.applyReset := by
  obtain ⟨a, as, rfl⟩ := List.exists_cons_of_ne_nil hne
  rw [run_cons, if_pos hm]

/-- A step that meets a reset obeys it, whether the block is idle, where the reset goes before any request, or an operation is
in progress (R310; log entry 9). -/
theorem step_of_reset {s : State} (hm : s.env.moveAt 0 = .reset) : step s = .next s.tick.applyReset := by
  by_cases hi : s.Idle
  · simp [step, State.fetch, hi, hm]
  · rw [step_of_not_idle hi, State.resume, run_of_reset hi hm]

/-- Settles O3: the one step is the reset itself, taken after its point of the schedule. -/
theorem resetTakesOneStep : Obligations.ResetTakesOneStep :=
  fun s hm => ⟨s.tick.applyReset, step_of_reset hm, rfl, rfl, rfl, rfl, rfl, rfl, rfl, rfl, rfl⟩

end Sys2Proof.Machine
end
